-- ==== Sys2Proof/Word.lean ====
section
/-! DEFINITION. The bus word and the byte (00_scope.md R10). The lane, nibble and byte-order helpers
stand in Decode.lean. -/

namespace Sys2Proof

/-- The 32-bit bus data word (00_scope.md R10). -/
abbrev Word := BitVec 32

/-- One byte of a buffer or of the wire. -/
abbrev Byte := BitVec 8

end Sys2Proof
end

