-- ==== Sys2Proof/Syntax.lean ====
section
/-! DEFINITION. The instructions: one constructor for each row of opcode_table.json. The first seven
are command words (30_encoding.md R300 to R302). The others are the wire elements that PARSE executes
at its cursor (30_encoding.md R311, R314 to R317; 41_message_parser.md R505). -/

namespace Sys2Proof

/-- Where the words of an instruction stand, which says how they are read. -/
inductive Position where
  /-- A word written to `CMD` (10_state.md R108). -/
  | command
  /-- Bytes 0 to 3 of a datagram (30_encoding.md R311). -/
  | header
  /-- A byte where an option header byte would stand (30_encoding.md R317). -/
  | option
  /-- An option header byte whose delta nibble is being decoded (41_message_parser.md R505 steps 2 to 4). -/
  | delta
  /-- An option header byte whose length nibble is being decoded (41_message_parser.md R505 step 5). -/
  | length
deriving DecidableEq, Repr

/-- The rows of opcode_table.json. -/
inductive Instr where
  /-- `NOP`, 45_command_control.md R705. -/
  | nop
  /-- `DECODE_EXT`, 40_option_codec.md R410. -/
  | decodeExt
  /-- `ENCODE_EXT`, 40_option_codec.md R411. -/
  | encodeExt
  /-- `PARSE`, 41_message_parser.md R500. -/
  | parse
  /-- `BUILD`, 42_message_builder.md R600. -/
  | build
  /-- A command word with `OP` 5 to 15, 45_command_control.md R703. -/
  | illegalReservedOpcode (op : BitVec 4) (mbz : BitVec 28)
  /-- A command word with `OP` 0 to 4 and `MBZ` not 0, 45_command_control.md R703. -/
  | illegalReservedBits (op : BitVec 4) (mbz : BitVec 28)
  /-- `WIRE_HEADER`: version 1, type, token length, code, message-id, 30_encoding.md R311. -/
  | wireHeader (t : BitVec 2) (tkl : BitVec 4) (code : BitVec 8) (mid : BitVec 16)
  /-- `OPT_HDR`: an option header byte other than 0xFF, 30_encoding.md R314. -/
  | optHdr (dn ln : BitVec 4)
  /-- `OPT_DELTA_LIT`: delta nibble 0 to 12, 30_encoding.md R316. -/
  | optDeltaLit (dn ln : BitVec 4)
  /-- `OPT_DELTA_EXT8`: delta nibble 13, 30_encoding.md R316. -/
  | optDeltaExt8 (ln : BitVec 4)
  /-- `OPT_DELTA_EXT16`: delta nibble 14, 30_encoding.md R316. -/
  | optDeltaExt16 (ln : BitVec 4)
  /-- `OPT_DELTA_RESERVED`: delta nibble 15 in a byte other than 0xFF, 41_message_parser.md R505. -/
  | optDeltaReserved (ln : BitVec 4)
  /-- `OPT_LEN_LIT`: length nibble 0 to 12, 30_encoding.md R316. -/
  | optLenLit (dn ln : BitVec 4)
  /-- `OPT_LEN_EXT8`: length nibble 13, 30_encoding.md R316. -/
  | optLenExt8 (dn : BitVec 4)
  /-- `OPT_LEN_EXT16`: length nibble 14, 30_encoding.md R316. -/
  | optLenExt16 (dn : BitVec 4)
  /-- `OPT_LEN_RESERVED`: length nibble 15 with a delta nibble below 15, 41_message_parser.md R505. -/
  | optLenReserved (dn : BitVec 4)
  /-- `PAYLOAD_MARKER`: the byte 0xFF at an option position, 41_message_parser.md R506. -/
  | payloadMarker
deriving DecidableEq, Repr

end Sys2Proof
end

