-- ==== Sys2Proof/WellFormed.lean ====
section
/-! DEFINITION. Which instruction terms have an encoding: the value ranges that opcode_table.json and
30_encoding.md R302, R311, R316 give each row. -/

namespace Sys2Proof

/-- The ranges of the rows. An option header byte with both nibbles 15 is the payload marker
(90_conflicts.md C3). A delta class never stands over a length nibble of 15, which
41_message_parser.md R505 step 3 reports first. A header's token length may be any 4-bit value: 9 to
15 are read and then raise BadToken (30_encoding.md R321). -/
def Instr.wellFormed : Instr → Bool
  | .nop => true
  | .decodeExt => true
  | .encodeExt => true
  | .parse => true
  | .build => true
  | .illegalReservedOpcode op _ => decide (5 ≤ op.toNat)
  | .illegalReservedBits op mbz => decide (op.toNat ≤ 4) && decide (mbz ≠ 0)
  | .wireHeader _ _ _ _ => true
  | .optHdr dn ln => !(decide (dn = 15) && decide (ln = 15))
  | .optDeltaLit dn ln => decide (dn.toNat ≤ 12) && decide (ln ≠ 15)
  | .optDeltaExt8 ln => decide (ln ≠ 15)
  | .optDeltaExt16 ln => decide (ln ≠ 15)
  | .optDeltaReserved ln => decide (ln ≠ 15)
  | .optLenLit dn ln => decide (dn ≠ 15) && decide (ln.toNat ≤ 12)
  | .optLenExt8 dn => decide (dn ≠ 15)
  | .optLenExt16 dn => decide (dn ≠ 15)
  | .optLenReserved dn => decide (dn ≠ 15)
  | .payloadMarker => true

end Sys2Proof
end

