-- ==== Sys2Proof/Decode.lean ====
section
/-! DEFINITION. The decoder, total on any bytes at any position, rejecting by name; then the encoder,
written from the same tables (30_encoding.md); then the host's entry `decodeTableWord`. -/

namespace Sys2Proof

/-! ## Bit fields and byte orders -/

/-- Lane `k` of a bus word: bits `[8k+7:8k]` (20_memory.md R204). -/
def lane (w : Word) (k : Nat) : Byte := w.extractLsb' (8 * k) 8

/-- A bus word from its four lanes, lane 0 in the low bits (20_memory.md R204). -/
def ofLanes (b0 b1 b2 b3 : Byte) : Word := b3 ++ b2 ++ b1 ++ b0

/-- The high nibble `b[7:4]` (00_scope.md R11). -/
def hiNibble (b : Byte) : BitVec 4 := b.extractLsb' 4 4

/-- The low nibble `b[3:0]` (00_scope.md R11). -/
def loNibble (b : Byte) : BitVec 4 := b.extractLsb' 0 4

/-- `DN<<4 | LN`, an option header byte (30_encoding.md R315). -/
def nibbleByte (dn ln : BitVec 4) : Byte := dn ++ ln

/-- `be16(a, b) = a*256 + b` (00_scope.md R11). -/
def be16 (a b : Byte) : Nat := a.toNat * 256 + b.toNat

/-- Byte 0 of a legal header, `0x40 | T<<4 | TKL` (30_encoding.md R311): version 1 in bits 7:6. -/
def headerByte (t : BitVec 2) (tkl : BitVec 4) : Byte := (1#2 ++ t) ++ tkl

/-- The low byte of a 16-bit field. -/
def lowByte (v : BitVec 16) : Byte := v.extractLsb' 0 8

/-- The high byte of a 16-bit field, first on the wire (20_memory.md R207). -/
def highByte (v : BitVec 16) : Byte := v.extractLsb' 8 8

/-! ## Decoding -/

/-- Why bytes are no instruction at a position. -/
inductive DecodeError where
  /-- Fewer bytes than the encoding has. -/
  | tooFewBytes
  /-- A header whose version field is not 1 (30_encoding.md R311). -/
  | badVersion
  /-- The byte 0xFF, which is the payload marker, where the nibbles of an option header byte are
  decoded (30_encoding.md R317). -/
  | markerByte
deriving DecidableEq, Repr

/-- The command a word selects (30_encoding.md R300 to R302, 45_command_control.md R702): every word
selects exactly one. -/
def decodeCommand (w : Word) : Instr :=
  let op := w.extractLsb' 0 4
  let mbz := w.extractLsb' 4 28
  if 5 ≤ op.toNat then .illegalReservedOpcode op mbz
  else if mbz ≠ 0 then .illegalReservedBits op mbz
  else if op = 0 then .nop
  else if op = 1 then .decodeExt
  else if op = 2 then .encodeExt
  else if op = 3 then .parse
  else .build

/-- The header in four bytes (30_encoding.md R311). -/
def decodeHeader (b0 b1 b2 b3 : Byte) : Except DecodeError Instr :=
  if b0.extractLsb' 6 2 = 1 then
    .ok (.wireHeader (b0.extractLsb' 4 2) (loNibble b0) b1 (b2 ++ b3))
  else .error .badVersion

/-- The element at an option position: the marker test comes before the nibbles are looked at
(30_encoding.md R317). -/
def decodeOption (h : Byte) : Instr :=
  if h = 0xFF then .payloadMarker else .optHdr (hiNibble h) (loNibble h)

/-- The delta class of an option header byte. The two reserved nibbles are looked for first, the delta
nibble before the length nibble (41_message_parser.md R505 steps 2 and 3). -/
def decodeDelta (h : Byte) : Except DecodeError Instr :=
  let dn := hiNibble h
  let ln := loNibble h
  if h = 0xFF then .error .markerByte
  else if dn = 15 then .ok (.optDeltaReserved ln)
  else if ln = 15 then .ok (.optLenReserved dn)
  else if dn = 14 then .ok (.optDeltaExt16 ln)
  else if dn = 13 then .ok (.optDeltaExt8 ln)
  else .ok (.optDeltaLit dn ln)

/-- The length class of an option header byte (30_encoding.md R316). -/
def decodeLength (h : Byte) : Except DecodeError Instr :=
  let dn := hiNibble h
  let ln := loNibble h
  if h = 0xFF then .error .markerByte
  else if dn = 15 then .ok (.optDeltaReserved ln)
  else if ln = 15 then .ok (.optLenReserved dn)
  else if ln = 14 then .ok (.optLenExt16 dn)
  else if ln = 13 then .ok (.optLenExt8 dn)
  else .ok (.optLenLit dn ln)

/-- The instruction that a byte list begins with at a position, and the rest of the list. A command
word is four bytes in lane order (20_memory.md R204), a header four bytes in wire order. -/
def decode : Position → List Byte → Except DecodeError (Instr × List Byte)
  | .command, b0 :: b1 :: b2 :: b3 :: rest => .ok (decodeCommand (ofLanes b0 b1 b2 b3), rest)
  | .header, b0 :: b1 :: b2 :: b3 :: rest => (decodeHeader b0 b1 b2 b3).map (·, rest)
  | .option, h :: rest => .ok (decodeOption h, rest)
  | .delta, h :: rest => (decodeDelta h).map (·, rest)
  | .length, h :: rest => (decodeLength h).map (·, rest)
  | _, _ => .error .tooFewBytes

/-! ## Encoding -/

/-- The command word of a command (30_encoding.md R300, R301). -/
def commandWord (op : BitVec 4) (mbz : BitVec 28) : Word := mbz ++ op

/-- The four bytes of a bus word, lane 0 first. -/
def wordBytes (w : Word) : List Byte := [lane w 0, lane w 1, lane w 2, lane w 3]

/-- Where an instruction's words stand. OPT_LEN_RESERVED is found while the nibbles are checked, before
the delta extension is read (41_message_parser.md R505 step 3). -/
def Instr.position : Instr → Position
  | .nop => .command
  | .decodeExt => .command
  | .encodeExt => .command
  | .parse => .command
  | .build => .command
  | .illegalReservedOpcode _ _ => .command
  | .illegalReservedBits _ _ => .command
  | .wireHeader _ _ _ _ => .header
  | .optHdr _ _ => .option
  | .optDeltaLit _ _ => .delta
  | .optDeltaExt8 _ => .delta
  | .optDeltaExt16 _ => .delta
  | .optDeltaReserved _ => .delta
  | .optLenLit _ _ => .length
  | .optLenExt8 _ => .length
  | .optLenExt16 _ => .length
  | .optLenReserved _ => .delta
  | .payloadMarker => .option

/-- The bytes of a well-formed instruction (30_encoding.md R300, R301, R311, R315 to R317). -/
def encode : Instr → List Byte
  | .nop => wordBytes (commandWord 0 0)
  | .decodeExt => wordBytes (commandWord 1 0)
  | .encodeExt => wordBytes (commandWord 2 0)
  | .parse => wordBytes (commandWord 3 0)
  | .build => wordBytes (commandWord 4 0)
  | .illegalReservedOpcode op mbz => wordBytes (commandWord op mbz)
  | .illegalReservedBits op mbz => wordBytes (commandWord op mbz)
  | .wireHeader t tkl code mid => [headerByte t tkl, code, highByte mid, lowByte mid]
  | .optHdr dn ln => [nibbleByte dn ln]
  | .optDeltaLit dn ln => [nibbleByte dn ln]
  | .optDeltaExt8 ln => [nibbleByte 13 ln]
  | .optDeltaExt16 ln => [nibbleByte 14 ln]
  | .optDeltaReserved ln => [nibbleByte 15 ln]
  | .optLenLit dn ln => [nibbleByte dn ln]
  | .optLenExt8 dn => [nibbleByte dn 13]
  | .optLenExt16 dn => [nibbleByte dn 14]
  | .optLenReserved dn => [nibbleByte dn 15]
  | .payloadMarker => [0xFF]

/-! ## The host's entry: a row of opcode_table.json by its bits -/

/-- Where a table row's bits stand. The table numbers a header's bits with the first byte in 31..24, so
a header has 01 in bits 31:30. A 32-bit word of that form is taken for a header and every other one
for a command word. Of the rows a one-byte pattern fits, the most special is taken: marker, reserved
delta, reserved length, extended delta, extended length, and last the plain header byte. DESIGN
CHOICE (log 8): the table's rows overlap, and only this host entry has to choose. -/
def tablePosition (nbits w : Nat) : Option Position :=
  if 32 < nbits then none
  else if 8 < nbits then
    if w % 2 ^ 32 / 2 ^ 30 = 1 then some .header else some .command
  else
    let h := BitVec.ofNat 8 w
    if h = 0xFF then some .option
    else if hiNibble h = 15 ∨ loNibble h = 15 then some .delta
    else if 13 ≤ (hiNibble h).toNat then some .delta
    else if 13 ≤ (loNibble h).toNat then some .length
    else some .option

/-- The bytes of a table word as the hardware stores them: a command word in lane order, a header with
its first byte from bits 31..24. -/
def tableBytes (pos : Position) (w : Nat) : List Byte :=
  let v := BitVec.ofNat 32 w
  match pos with
  | .command => wordBytes v
  | .header => [lane v 3, lane v 2, lane v 1, lane v 0]
  | .option => [lane v 0]
  | .delta => [lane v 0]
  | .length => [lane v 0]

/-- The instruction the decoder reads from the bits of a row of opcode_table.json. -/
def decodeTableWord (nbits w : Nat) : Option Instr :=
  match tablePosition nbits (w % 2 ^ nbits) with
  | none => none
  | some pos =>
    match decode pos (tableBytes pos (w % 2 ^ nbits)) with
    | .ok (i, _) => some i
    | .error _ => none

end Sys2Proof
end

