-- ==== Sys2Proof/Config.lean ====
section
/-! DEFINITION. What an instance of the block fixes (the parameters of 00_scope.md R9) and the free
values (`draw` of 00_scope.md R12), which nothing in Lean can evaluate. -/

namespace Sys2Proof

/-- The parameters of 00_scope.md R9. "The model takes the following parameters as arguments": a State
carries one such record, and no step changes it. 16 bits bound every capacity by 65535. -/
structure Params where
  /-- `RX_CAP`, bytes of the inbound datagram buffer; R9 asks for at least 4 (`Params.wf`). -/
  rxCap : BitVec 16
  /-- `TX_CAP`, bytes of the outbound datagram buffer. -/
  txCap : BitVec 16
  /-- `BODY_CAP`, bytes of the response body buffer. -/
  bodyCap : BitVec 16
  /-- `PATH_CAP`, bytes of the path accumulator. -/
  pathCap : BitVec 16
  /-- `TEXT_PLAIN_CF`, the Content-Format number BUILD writes. -/
  textPlainCf : BitVec 32
deriving DecidableEq, Repr

/-- The one constraint of 00_scope.md R9 that the widths do not give: `4 <= RX_CAP`. -/
abbrev Params.wf (c : Params) : Prop := 4 ≤ c.rxCap.toNat

/-- The parameter values of 95_test_vectors.md ("Unless a vector states otherwise"), which the reset
state uses. DESIGN CHOICE (log 1), unsafe for a claim about `State.reset` alone: the spec leaves the
capacities OPEN. -/
def Params.vectors : Params :=
  { rxCap := 64, txCap := 64, bodyCap := 64, pathCap := 64, textPlainCf := 0 }

/-- An 8-bit `draw`: the free value of the byte at bus address `addr`, in the step numbered `tick`
(20_memory.md R206, 41_message_parser.md R509 and R510, 70_reset_and_hazards.md R901, R911, R912).
DESIGN CHOICE (log 5): safe, nothing constrains it. -/
opaque Config.drawByte (tick addr : Nat) : BitVec 8

/-- A 32-bit `draw`: the free value of the register at bus offset `offset`, in the step numbered
`tick` (41_message_parser.md R509, 70_reset_and_hazards.md R911, R912). A narrower field takes the
bits of its own place. DESIGN CHOICE (log 5): safe, nothing constrains it. -/
opaque Config.drawWord (tick offset : Nat) : BitVec 32

end Sys2Proof
end

