-- ==== Sys2Proof/Machine/State.lean ====
section
/-! DEFINITION. Everything the spec gives the machine, as plain data (10_state.md), and the state after
reset (70_reset_and_hazards.md R900). -/

namespace Sys2Proof.Machine

/-- The faults: bus errors, "the only faults outside the command path" (60_exceptions.md R810). The
machine stops where the real host would see an error response and could go on, which is safe. -/
inductive Fault where
  /-- Raised by a bus access whose address has `addr[1:0] != 0` (20_memory.md R203). Safe. -/
  | busMisaligned
  /-- Raised by a bus access to an address outside every region (20_memory.md R201). Safe. -/
  | busUnmapped
  /-- Raised by a bus access to a buffer word at or past its capacity (20_memory.md R205). Safe. -/
  | busPastCapacity
deriving DecidableEq, Repr

/-- The refusals. No meaning of this model answers one. -/
inductive Refusal where
  /-- Raised by `exec`'s arm of an instruction that has no meaning yet. Safe. -/
  | notModelled (mnemonic : String)
deriving DecidableEq, Repr

/-- The outcomes a command can record: one constructor for each (code, detail) pair of
60_exceptions.md R800 and R801, and OK. -/
inductive Error where
  | ok
  | tooShort
  | unsupportedVersion
  | tklGt8
  | tokenTrunc
  | buildTklGt8
  | deltaReserved
  | lengthReserved
  | deltaExtTrunc
  | lengthExtTrunc
  | valueOverrun
  | emptyPayload
  | pathOverflow
  | cfTooLong
  | nibbleReserved
  | extTrunc
  | bufferTooSmall
  | reservedOpcode
  | reservedBits
  | rxLenGtCap
  | bodyLenGtCap
  | availReserved
  | encodeRange
deriving DecidableEq, Repr

/-- `ERR_INFO` (10_state.md R110); bits 7:4 are reserved and hold nothing. -/
structure ErrInfo where
  code : BitVec 4
  detail : BitVec 8
  pos : BitVec 16
deriving DecidableEq, Repr

/-- The layout that `CODEC_IN` (10_state.md R111) and `CODEC_ENC` (R114) share; `count` is `AVAIL` in
the one and `EXTLEN` in the other. -/
structure CodecWord where
  nibble : BitVec 4
  count : BitVec 2
  ext0 : Byte
  ext1 : Byte
deriving DecidableEq, Repr

/-- `CODEC_OUT` (10_state.md R113). -/
structure CodecOut where
  value : BitVec 17
  used : BitVec 2
deriving DecidableEq, Repr

/-- `P_FLAGS` (10_state.md R121). -/
structure ParseFlags where
  valid : Bool
  pathPresent : Bool
  cfPresent : Bool
  payloadPresent : Bool
deriving DecidableEq, Repr

/-- The registers of the bank (10_state.md R102). -/
inductive Reg where
  | id | hwrev | cap0 | cap1
  | ctrl | cmd | status | errInfo
  | codecIn | codecValIn | codecOut | codecEnc
  | rxLen | reqType | reqTkl | reqCode | reqMid | reqToken0 | reqToken1
  | pFlags | pPathLen | pCfValue | pPayloadOff | pPayloadLen | pOptCount | pLastOptnum
  | respCode | bodyLen | txLen
deriving DecidableEq, Repr

/-- The four byte buffers (10_state.md R131). -/
inductive Buffer where
  | rx | tx | body | path
deriving DecidableEq, Repr

/-- Memory: the buffer bytes that something has written since hardware reset, by bus address
(20_memory.md R202), in one canonical form (`Memory.wf`, Ops.lean). An address that is not listed
holds no value, and each read of it is a free value (20_memory.md R206). So a byte's `written` bit
(10_state.md R134) is its being listed. -/
abbrev Memory := List Host.Cell

/-- Where PARSE stands in the datagram (41_message_parser.md R504, R505). -/
inductive Phase where
  /-- Before the framing checks (R501). -/
  | header
  /-- Where an option header byte or the marker would stand, or the datagram ends (R504). -/
  | option
  /-- The option header byte `h` at index `hp` is consumed; its nibbles and its delta come next
  (R505 steps 2 to 4). -/
  | delta (hp : Nat) (h : Byte)
  /-- The delta is known; the length and the value come next (R505 steps 5 and 6). -/
  | length (hp : Nat) (h : Byte) (delta : Nat)
  /-- Every check has passed. -/
  | done
  /-- A check has failed with this error, at this position. -/
  | failed (e : Error) (pos : Nat)
deriving DecidableEq, Repr

/-- The hidden state of a running PARSE (10_state.md R134, 41_message_parser.md R502), with the names of
R500's pseudocode. Its numbers are exact, as 00_scope.md R13 says of the pseudocode's additions. -/
structure Scan where
  n : Nat
  p : Nat
  num : Nat
  count : Nat
  t : BitVec 2
  tkl : BitVec 4
  code : Byte
  mid : BitVec 16
  token : List Byte
  path : List Byte
  pathPresent : Bool
  cf : Word
  cfPresent : Bool
  payPresent : Bool
  payOff : Nat
  payLen : Nat
  phase : Phase
deriving DecidableEq, Repr

/-- The moves that a run interleaves (60_exceptions.md R806, 70_reset_and_hazards.md R905). -/
inductive Move where
  /-- The host reads a bus word. -/
  | read (addr : BitVec 20)
  /-- The host writes a bus word. -/
  | write (addr : BitVec 20) (data : Word)
  /-- The `rst` input is asserted and released (70_reset_and_hazards.md R900). -/
  | hardReset
  /-- The block executes the wire element at the cursor of a running PARSE; nothing the host can see
  changes (10_state.md R134). -/
  | scan
  /-- The block takes the completion step of the command in flight (45_command_control.md R700). -/
  | complete
deriving DecidableEq, Repr

/-- The whole state of the block, and the model's own three fields at the end. -/
structure State where
  /-- The parameters (00_scope.md R9), shown in `CAP0` and `CAP1` (10_state.md R105, R106). -/
  params : Params
  /-- `CTRL.IRQ_EN` (10_state.md R107). -/
  irqEn : Bool
  /-- `STATUS.DONE` (10_state.md R109). -/
  done : Bool
  /-- `STATUS.OVERRUN` (10_state.md R109). -/
  overrun : Bool
  /-- `ERR_INFO` (10_state.md R110). `STATUS.ERR` is computed from it. -/
  errInfo : ErrInfo
  /-- `CODEC_IN` (10_state.md R111). -/
  codecIn : CodecWord
  /-- `CODEC_VAL_IN` (10_state.md R112). -/
  codecValIn : Word
  /-- `CODEC_OUT` (10_state.md R113). -/
  codecOut : CodecOut
  /-- `CODEC_ENC` (10_state.md R114). -/
  codecEnc : CodecWord
  /-- `RX_LEN.LEN` (10_state.md R115). -/
  rxLen : BitVec 16
  /-- `REQ_TYPE.TYPE` (10_state.md R116). -/
  reqType : BitVec 2
  /-- `REQ_TKL.TKL` (10_state.md R117). -/
  reqTkl : BitVec 4
  /-- `REQ_CODE.CODE` (10_state.md R118). -/
  reqCode : Byte
  /-- `REQ_MID.MID` (10_state.md R119). -/
  reqMid : BitVec 16
  /-- `REQ_TOKEN0`, token bytes 0 to 3 (10_state.md R120). -/
  reqToken0 : Word
  /-- `REQ_TOKEN1`, token bytes 4 to 7 (10_state.md R120). -/
  reqToken1 : Word
  /-- `P_FLAGS` (10_state.md R121). -/
  pFlags : ParseFlags
  /-- `P_PATH_LEN` (10_state.md R122). -/
  pPathLen : BitVec 16
  /-- `P_CF_VALUE` (10_state.md R123). -/
  pCfValue : Word
  /-- `P_PAYLOAD_OFF` (10_state.md R124). -/
  pPayloadOff : BitVec 16
  /-- `P_PAYLOAD_LEN` (10_state.md R125). -/
  pPayloadLen : BitVec 16
  /-- `P_OPT_COUNT` (10_state.md R126). -/
  pOptCount : BitVec 16
  /-- `P_LAST_OPTNUM` (10_state.md R127). -/
  pLastOptnum : Word
  /-- `RESP_CODE.CODE` (10_state.md R128). -/
  respCode : Byte
  /-- `BODY_LEN` (10_state.md R129). -/
  bodyLen : BitVec 16
  /-- `TX_LEN` (10_state.md R130). -/
  txLen : BitVec 16
  /-- The buffers `RX`, `TX`, `BODY` and `PATH` and their `written` bits (10_state.md R131, R134). -/
  mem : Memory
  /-- The command word of the running command (10_state.md R134). `STATUS.BUSY` is 1 exactly when there
  is one. -/
  inflight : Option Word
  /-- Set when the host writes an input of the running command (10_state.md R134). -/
  taint : Bool
  /-- The cursor and the accumulators of a running PARSE (10_state.md R134), once it has begun. -/
  scan : Option Scan
  /-- MODEL's own (log 5): the number of the step, which makes every free value fresh. -/
  draws : Nat
  /-- MODEL's own (log 2): the moves still to come. -/
  inputs : List Move
  /-- MODEL's own (log 6): the word that the last bus read returned to the host. -/
  busData : Word
deriving DecidableEq, Repr

/-- The block right after a hardware reset with parameters `c` (70_reset_and_hazards.md R900,
10_state.md R102): every register 0 apart from the constants, nothing in flight, no buffer byte
written. -/
def State.powerUp (c : Params) : State :=
  { params := c
    irqEn := false, done := false, overrun := false
    errInfo := { code := 0, detail := 0, pos := 0 }
    codecIn := { nibble := 0, count := 0, ext0 := 0, ext1 := 0 }
    codecValIn := 0
    codecOut := { value := 0, used := 0 }
    codecEnc := { nibble := 0, count := 0, ext0 := 0, ext1 := 0 }
    rxLen := 0, reqType := 0, reqTkl := 0, reqCode := 0, reqMid := 0
    reqToken0 := 0, reqToken1 := 0
    pFlags := { valid := false, pathPresent := false, cfPresent := false, payloadPresent := false }
    pPathLen := 0, pCfValue := 0, pPayloadOff := 0, pPayloadLen := 0, pOptCount := 0, pLastOptnum := 0
    respCode := 0, bodyLen := 0, txLen := 0
    mem := []
    inflight := none, taint := false, scan := none
    draws := 0, inputs := [], busData := 0 }

/-- The machine right after reset, with the parameters of the spec's test vectors (log 1). -/
def State.reset : State := State.powerUp Params.vectors

end Sys2Proof.Machine
end

