-- ==== Sys2Proof/Machine/Flags.lean ====
section
/-! DEFINITION. The status flags and the interrupt (10_state.md R109, R121, R135; 60_exceptions.md
R800, R801, R820), and how the structured registers are laid out in 32 bits. -/

namespace Sys2Proof.Machine

/-! ## Error numbers -/

/-- `ERR_INFO.CODE` of an outcome (60_exceptions.md R800). -/
def Error.code : Error → BitVec 4
  | .ok => 0
  | .tooShort => 1
  | .unsupportedVersion => 2
  | .tklGt8 => 3
  | .tokenTrunc => 3
  | .buildTklGt8 => 3
  | .deltaReserved => 4
  | .lengthReserved => 4
  | .deltaExtTrunc => 4
  | .lengthExtTrunc => 4
  | .valueOverrun => 4
  | .emptyPayload => 4
  | .pathOverflow => 4
  | .cfTooLong => 4
  | .nibbleReserved => 4
  | .extTrunc => 4
  | .bufferTooSmall => 5
  | .reservedOpcode => 6
  | .reservedBits => 6
  | .rxLenGtCap => 6
  | .bodyLenGtCap => 6
  | .availReserved => 6
  | .encodeRange => 7

/-- `ERR_INFO.DETAIL` of an outcome (60_exceptions.md R801). -/
def Error.detail : Error → BitVec 8
  | .ok => 0
  | .tooShort => 0
  | .unsupportedVersion => 0
  | .tklGt8 => 0x01
  | .tokenTrunc => 0x02
  | .buildTklGt8 => 0x03
  | .deltaReserved => 0x01
  | .lengthReserved => 0x02
  | .deltaExtTrunc => 0x03
  | .lengthExtTrunc => 0x04
  | .valueOverrun => 0x05
  | .emptyPayload => 0x06
  | .pathOverflow => 0x07
  | .cfTooLong => 0x08
  | .nibbleReserved => 0x09
  | .extTrunc => 0x0A
  | .bufferTooSmall => 0
  | .reservedOpcode => 0x01
  | .reservedBits => 0x02
  | .rxLenGtCap => 0x03
  | .bodyLenGtCap => 0x04
  | .availReserved => 0x05
  | .encodeRange => 0x01

/-- The record an outcome leaves (60_exceptions.md R803). -/
def Error.info (e : Error) (pos : Nat) : ErrInfo :=
  { code := e.code, detail := e.detail, pos := BitVec.ofNat 16 pos }

/-! ## Layouts -/

/-- One flag bit. -/
def bit (b : Bool) : BitVec 1 := BitVec.ofBool b

/-- Bit `k` of a word (00_scope.md R11). -/
def bitOf (v : Word) (k : Nat) : Bool := v.getLsbD k

/-- `ERR_INFO` as a word (10_state.md R110). -/
def ErrInfo.toWord (e : ErrInfo) : Word := ((e.pos ++ e.detail) ++ 0#4) ++ e.code

/-- The fields of an `ERR_INFO` word. -/
def ErrInfo.ofWord (v : Word) : ErrInfo :=
  { code := v.extractLsb' 0 4, detail := v.extractLsb' 8 8, pos := v.extractLsb' 16 16 }

/-- `CODEC_IN` or `CODEC_ENC` as a word (10_state.md R111, R114). -/
def CodecWord.toWord (c : CodecWord) : Word :=
  (((0#8 ++ c.ext1) ++ c.ext0) ++ (0#2 ++ c.count)) ++ c.nibble

/-- The fields of a `CODEC_IN` or `CODEC_ENC` word. -/
def CodecWord.ofWord (v : Word) : CodecWord :=
  { nibble := v.extractLsb' 0 4, count := v.extractLsb' 4 2
    ext0 := v.extractLsb' 8 8, ext1 := v.extractLsb' 16 8 }

/-- `CODEC_OUT` as a word (10_state.md R113). -/
def CodecOut.toWord (c : CodecOut) : Word := ((0#6 ++ c.used) ++ 0#7) ++ c.value

/-- The fields of a `CODEC_OUT` word. -/
def CodecOut.ofWord (v : Word) : CodecOut :=
  { value := v.extractLsb' 0 17, used := v.extractLsb' 24 2 }

/-- `P_FLAGS` as a word (10_state.md R121). -/
def ParseFlags.toWord (f : ParseFlags) : Word :=
  (((0#28 ++ bit f.payloadPresent) ++ bit f.cfPresent) ++ bit f.pathPresent) ++ bit f.valid

/-- The fields of a `P_FLAGS` word. -/
def ParseFlags.ofWord (v : Word) : ParseFlags :=
  { valid := bitOf v 0, pathPresent := bitOf v 1
    cfPresent := bitOf v 2, payloadPresent := bitOf v 3 }

/-! ## STATUS and the interrupt -/

/-- `STATUS.BUSY`: "`none` if and only if `STATUS.BUSY` = 0" (10_state.md R134). -/
def State.busy (s : State) : Bool := s.inflight.isSome

/-- `STATUS.ERR`: "always equals `ERR_INFO.CODE != 0`" (10_state.md R109). -/
def State.err (s : State) : Bool := decide (s.errInfo.code ≠ 0)

/-- `STATUS` as a word (10_state.md R109). -/
def State.statusWord (s : State) : Word :=
  (((0#28 ++ bit s.overrun) ++ bit s.err) ++ bit s.done) ++ bit s.busy

/-- `CTRL` as a word (10_state.md R107): `SOFT_RESET` always reads 0. -/
def State.ctrlWord (s : State) : Word := (0#30 ++ bit s.irqEn) ++ 0#1

/-- The interrupt output (60_exceptions.md R820). -/
def State.irq (s : State) : Bool := s.done && s.irqEn

/-- A write of `v` to `STATUS` (45_command_control.md R706): a 1 in bit 1 clears `DONE`, a 1 in bit 3
clears `OVERRUN`. It is how the host returns from an error (60_exceptions.md R811). -/
def State.acknowledge (v : Word) (s : State) : State :=
  { s with done := s.done && !bitOf v 1, overrun := s.overrun && !bitOf v 3 }

end Sys2Proof.Machine
end

