-- ==== Sys2Proof/Machine/Operands.lean ====
section
/-! DEFINITION. The operand forms: the option codec as pure functions (40_option_codec.md R400, R401),
the Content-Format number (42_message_builder.md R604, 41_message_parser.md R507), and the bytes that
commands read from buffers and token registers (20_memory.md R206, R212; 10_state.md R120). -/

namespace Sys2Proof.Machine

/-! ## The option codec -/

/-- `extlen(N)`: how many extension bytes a nibble has (30_encoding.md R316). -/
def extlen (n : BitVec 4) : Nat :=
  if n = 13 then 1 else if n = 14 then 2 else 0

/-- The largest value that has an encoding, 269 + 65535 (40_option_codec.md R402). -/
def maxExtValue : Nat := 65804

/-- What `NibbleDecode` answers (40_option_codec.md R400). -/
inductive NibbleResult where
  | ok (value next : Nat)
  | reserved
  | trunc
deriving DecidableEq, Repr

/-- `NibbleDecode(N, S, p, end)` (40_option_codec.md R400). -/
def nibbleDecode (n : BitVec 4) (src : Nat → Byte) (p stop : Nat) : NibbleResult :=
  if n.toNat ≤ 12 then .ok n.toNat p
  else if n = 13 then
    if stop < p + 1 then .trunc else .ok (13 + (src p).toNat) (p + 1)
  else if n = 14 then
    if stop < p + 2 then .trunc else .ok (269 + be16 (src p) (src (p + 1))) (p + 2)
  else .reserved

/-- `NibbleEncode(v)` (40_option_codec.md R401): the nibble and its extension bytes; `none` is `Range`. -/
def nibbleEncode (v : Nat) : Option (BitVec 4 × List Byte) :=
  if v ≤ 12 then some (BitVec.ofNat 4 v, [])
  else if v ≤ 268 then some (13, [BitVec.ofNat 8 (v - 13)])
  else if v ≤ maxExtValue then
    some (14, [highByte (BitVec.ofNat 16 (v - 269)), lowByte (BitVec.ofNat 16 (v - 269))])
  else none

/-- Byte `i` of an extension, 0 past its end (`byte(E, i)` of 40_option_codec.md R411). -/
def extByte (e : List Byte) (i : Nat) : Byte := e.getD i 0

/-! ## Wire numbers -/

/-- The big-endian unsigned number in a byte sequence (41_message_parser.md R507). -/
def beNat (bs : List Byte) : Nat := bs.foldl (fun acc b => acc * 256 + b.toNat) 0

/-- `UintBytes(v)`: the minimal big-endian bytes of a number (42_message_builder.md R604). -/
def uintBytes (v : Word) : List Byte :=
  if v.toNat = 0 then []
  else if v.toNat < 2 ^ 8 then [lane v 0]
  else if v.toNat < 2 ^ 16 then [lane v 1, lane v 0]
  else if v.toNat < 2 ^ 24 then [lane v 2, lane v 1, lane v 0]
  else [lane v 3, lane v 2, lane v 1, lane v 0]

/-! ## Buffers -/

/-- The base address of a buffer's window (20_memory.md R201). -/
def Buffer.base : Buffer → Nat
  | .rx => 0x10000
  | .tx => 0x20000
  | .body => 0x30000
  | .path => 0x40000

/-- The capacity of a buffer (00_scope.md R9, 10_state.md R131). -/
def Buffer.cap (c : Params) : Buffer → Nat
  | .rx => c.rxCap.toNat
  | .tx => c.txCap.toNat
  | .body => c.bodyCap.toNat
  | .path => c.pathCap.toNat

/-- Whether the host may write a buffer's window (20_memory.md R201). -/
def Buffer.hostWritable : Buffer → Bool
  | .rx => true
  | .tx => false
  | .body => true
  | .path => false

/-- The stored byte at a bus address; `none` is a byte never written (20_memory.md R206). -/
def Memory.get? : Memory → Nat → Option Byte
  | [], _ => none
  | (k, b) :: rest, a => if k = a then some b else Memory.get? rest a

/-- One read of buffer byte `i`: the stored byte, or a `draw` of this step when nothing has written it
(20_memory.md R206). -/
def State.readByte (s : State) (b : Buffer) (i : Nat) : Byte :=
  match Memory.get? s.mem (b.base + i) with
  | some v => v
  | none => Config.drawByte s.draws (b.base + i)

/-- `S[p .. p+len)` of a byte source (00_scope.md R11). -/
def slice (src : Nat → Byte) (p : Nat) : Nat → List Byte
  | 0 => []
  | len + 1 => src p :: slice src (p + 1) len

/-! ## Token registers -/

/-- `TOKEN[i]` (10_state.md R120). -/
def State.tokenByte (s : State) (i : Nat) : Byte :=
  if i < 4 then lane s.reqToken0 i else lane s.reqToken1 (i - 4)

/-- Four token bytes from index `i` as a register, 0 past the token's end (41_message_parser.md R503). -/
def tokenWord (token : List Byte) (i : Nat) : Word :=
  ofLanes (token.getD i 0) (token.getD (i + 1) 0) (token.getD (i + 2) 0) (token.getD (i + 3) 0)

end Sys2Proof.Machine
end

