-- ==== Sys2Proof/Machine/Ops.lean ====
section
/-! DEFINITION. The shared operations: memory, the register bank, free values, the inputs and outputs
of each command (10_state.md R136), the two resets, and the life of a command: start, `raise`,
`complete`, the completion step (45_command_control.md R700; 60_exceptions.md R803). -/

namespace Sys2Proof.Machine

/-! ## Memory -/

/-- The canonical form: addresses strictly rising. An unlisted address holds no value, so no entry can
equal what one reads as. -/
abbrev Memory.wf (m : Memory) : Prop := List.Pairwise (fun x y : Host.Cell => x.1 < y.1) m

/-- Consecutive bytes as cells from an address on. -/
def cells (a : Nat) : List Byte → Memory
  | [] => []
  | b :: bs => (a, b) :: cells (a + 1) bs

/-- Memory after the bytes `bs` are stored from address `a` on: the ONE way a byte becomes written. -/
def Memory.store (m : Memory) (a : Nat) (bs : List Byte) : Memory :=
  m.filter (fun c => decide (c.1 < a)) ++ (cells a bs ++
    m.filter (fun c => decide (a + bs.length ≤ c.1)))

/-- The written bytes from address `lo` on and below `hi` take new values. A byte that nothing has
written stays never written (10_state.md R134). -/
def Memory.revalue (m : Memory) (lo hi : Nat) (value : Nat → Byte) : Memory :=
  m.map (fun c => if lo ≤ c.1 ∧ c.1 < hi then (c.1, value c.1) else c)

/-- Buffer bytes from index `i` on become `bs`. -/
def State.storeBytes (s : State) (b : Buffer) (i : Nat) (bs : List Byte) : State :=
  { s with mem := Memory.store s.mem (b.base + i) bs }

/-- Every byte of a buffer becomes unspecified (41_message_parser.md R509, R510,
70_reset_and_hazards.md R901, R911). A written byte takes a `draw` of this step, and two reads of it
then agree (20_memory.md R210); a never-written byte stays so, and each read of it is a `draw` of its
own (20_memory.md R206). DEDUCED (log 10), safe. -/
def State.drawBuffer (s : State) (b : Buffer) : State :=
  { s with mem := s.mem.revalue b.base (b.base + b.cap s.params) (Config.drawByte s.draws) }

/-! ## The register bank -/

/-- The offset of a register (10_state.md R102). -/
def Reg.offset : Reg → Nat
  | .id => 0x000
  | .hwrev => 0x004
  | .cap0 => 0x008
  | .cap1 => 0x00C
  | .ctrl => 0x010
  | .cmd => 0x014
  | .status => 0x018
  | .errInfo => 0x01C
  | .codecIn => 0x020
  | .codecValIn => 0x024
  | .codecOut => 0x028
  | .codecEnc => 0x02C
  | .rxLen => 0x040
  | .reqType => 0x044
  | .reqTkl => 0x048
  | .reqCode => 0x04C
  | .reqMid => 0x050
  | .reqToken0 => 0x054
  | .reqToken1 => 0x058
  | .pFlags => 0x060
  | .pPathLen => 0x064
  | .pCfValue => 0x068
  | .pPayloadOff => 0x06C
  | .pPayloadLen => 0x070
  | .pOptCount => 0x074
  | .pLastOptnum => 0x078
  | .respCode => 0x080
  | .bodyLen => 0x084
  | .txLen => 0x088

/-- Every register, in the order of the map (10_state.md R102). -/
def Reg.all : List Reg :=
  [.id, .hwrev, .cap0, .cap1, .ctrl, .cmd, .status, .errInfo,
   .codecIn, .codecValIn, .codecOut, .codecEnc,
   .rxLen, .reqType, .reqTkl, .reqCode, .reqMid, .reqToken0, .reqToken1,
   .pFlags, .pPathLen, .pCfValue, .pPayloadOff, .pPayloadLen, .pOptCount, .pLastOptnum,
   .respCode, .bodyLen, .txLen]

/-- The register at an offset; `none` is a hole (10_state.md R102). -/
def Reg.at? (offset : Nat) : Option Reg := Reg.all.find? (fun r => decide (r.offset = offset))

/-- The word a register holds (10_state.md R101 to R130). -/
def Reg.get (r : Reg) (s : State) : Word :=
  match r with
  | .id => 0x434F4150
  | .hwrev => 1
  | .cap0 => s.params.txCap ++ s.params.rxCap
  | .cap1 => s.params.pathCap ++ s.params.bodyCap
  | .ctrl => s.ctrlWord
  | .cmd => 0
  | .status => s.statusWord
  | .errInfo => s.errInfo.toWord
  | .codecIn => s.codecIn.toWord
  | .codecValIn => s.codecValIn
  | .codecOut => s.codecOut.toWord
  | .codecEnc => s.codecEnc.toWord
  | .rxLen => s.rxLen.setWidth 32
  | .reqType => s.reqType.setWidth 32
  | .reqTkl => s.reqTkl.setWidth 32
  | .reqCode => s.reqCode.setWidth 32
  | .reqMid => s.reqMid.setWidth 32
  | .reqToken0 => s.reqToken0
  | .reqToken1 => s.reqToken1
  | .pFlags => s.pFlags.toWord
  | .pPathLen => s.pPathLen.setWidth 32
  | .pCfValue => s.pCfValue
  | .pPayloadOff => s.pPayloadOff.setWidth 32
  | .pPayloadLen => s.pPayloadLen.setWidth 32
  | .pOptCount => s.pOptCount.setWidth 32
  | .pLastOptnum => s.pLastOptnum
  | .respCode => s.respCode.setWidth 32
  | .bodyLen => s.bodyLen.setWidth 32
  | .txLen => s.txLen.setWidth 32

/-- The fields of a data register become the field bits of `v` (10_state.md R101: "keeps only the field
bits"). The constants and the control registers, which have rules of their own, stay. -/
def Reg.set (r : Reg) (v : Word) (s : State) : State :=
  match r with
  | .id => s
  | .hwrev => s
  | .cap0 => s
  | .cap1 => s
  | .ctrl => s
  | .cmd => s
  | .status => s
  | .errInfo => { s with errInfo := ErrInfo.ofWord v }
  | .codecIn => { s with codecIn := CodecWord.ofWord v }
  | .codecValIn => { s with codecValIn := v }
  | .codecOut => { s with codecOut := CodecOut.ofWord v }
  | .codecEnc => { s with codecEnc := CodecWord.ofWord v }
  | .rxLen => { s with rxLen := v.setWidth 16 }
  | .reqType => { s with reqType := v.setWidth 2 }
  | .reqTkl => { s with reqTkl := v.setWidth 4 }
  | .reqCode => { s with reqCode := v.setWidth 8 }
  | .reqMid => { s with reqMid := v.setWidth 16 }
  | .reqToken0 => { s with reqToken0 := v }
  | .reqToken1 => { s with reqToken1 := v }
  | .pFlags => { s with pFlags := ParseFlags.ofWord v }
  | .pPathLen => { s with pPathLen := v.setWidth 16 }
  | .pCfValue => { s with pCfValue := v }
  | .pPayloadOff => { s with pPayloadOff := v.setWidth 16 }
  | .pPayloadLen => { s with pPayloadLen := v.setWidth 16 }
  | .pOptCount => { s with pOptCount := v.setWidth 16 }
  | .pLastOptnum => { s with pLastOptnum := v }
  | .respCode => { s with respCode := v.setWidth 8 }
  | .bodyLen => { s with bodyLen := v.setWidth 16 }
  | .txLen => { s with txLen := v.setWidth 16 }

/-- The bits of a register that are no reserved bits (10_state.md R107 to R130): 1 where a read can
return a 1. -/
def Reg.fieldMask : Reg → Word
  | .id => 0xFFFFFFFF
  | .hwrev => 0xFFFFFFFF
  | .cap0 => 0xFFFFFFFF
  | .cap1 => 0xFFFFFFFF
  | .ctrl => 0x00000002
  | .cmd => 0x00000000
  | .status => 0x0000000F
  | .errInfo => 0xFFFFFF0F
  | .codecIn => 0x00FFFF3F
  | .codecValIn => 0xFFFFFFFF
  | .codecOut => 0x0301FFFF
  | .codecEnc => 0x00FFFF3F
  | .rxLen => 0x0000FFFF
  | .reqType => 0x00000003
  | .reqTkl => 0x0000000F
  | .reqCode => 0x000000FF
  | .reqMid => 0x0000FFFF
  | .reqToken0 => 0xFFFFFFFF
  | .reqToken1 => 0xFFFFFFFF
  | .pFlags => 0x0000000F
  | .pPathLen => 0x0000FFFF
  | .pCfValue => 0xFFFFFFFF
  | .pPayloadOff => 0x0000FFFF
  | .pPayloadLen => 0x0000FFFF
  | .pOptCount => 0x0000FFFF
  | .pLastOptnum => 0xFFFFFFFF
  | .respCode => 0x000000FF
  | .bodyLen => 0x0000FFFF
  | .txLen => 0x0000FFFF

/-- Whether a host write stores into the register's fields (`RW` of 10_state.md R101, R102). `CTRL`,
`CMD` and `STATUS` have write rules of their own (Bus.lean); the others ignore writes. -/
def Reg.hostWritable : Reg → Bool
  | .codecIn | .codecValIn | .rxLen | .reqType | .reqTkl | .reqCode | .reqMid
  | .reqToken0 | .reqToken1 | .respCode | .bodyLen => true
  | .id | .hwrev | .cap0 | .cap1 | .ctrl | .cmd | .status | .errInfo | .codecOut | .codecEnc
  | .pFlags | .pPathLen | .pCfValue | .pPayloadOff | .pPayloadLen | .pOptCount | .pLastOptnum
  | .txLen => false

/-- A register takes a `draw` of this step. -/
def State.drawReg (s : State) (r : Reg) : State := r.set (Config.drawWord s.draws r.offset) s

/-! ## Inputs and outputs of the commands (10_state.md R136) -/

/-- The command a word in flight selects, if one is running. -/
def State.running (s : State) : Option Instr := s.inflight.map decodeCommand

/-- The registers a command reads (10_state.md R136, 70_reset_and_hazards.md R911). -/
def inputRegs : Instr → List Reg
  | .decodeExt => [.codecIn]
  | .encodeExt => [.codecValIn]
  | .parse => [.rxLen]
  | .build => [.reqType, .reqTkl, .reqMid, .reqToken0, .reqToken1, .respCode, .bodyLen]
  | .nop | .illegalReservedOpcode _ _ | .illegalReservedBits _ _
  | .wireHeader _ _ _ _ | .optHdr _ _ | .optDeltaLit _ _ | .optDeltaExt8 _ | .optDeltaExt16 _
  | .optDeltaReserved _ | .optLenLit _ _ | .optLenExt8 _ | .optLenExt16 _ | .optLenReserved _
  | .payloadMarker => []

/-- The buffers a command reads (10_state.md R136, 70_reset_and_hazards.md R911). -/
def inputBuffers : Instr → List Buffer
  | .parse => [.rx]
  | .build => [.body]
  | .nop | .decodeExt | .encodeExt | .illegalReservedOpcode _ _ | .illegalReservedBits _ _
  | .wireHeader _ _ _ _ | .optHdr _ _ | .optDeltaLit _ _ | .optDeltaExt8 _ | .optDeltaExt16 _
  | .optDeltaReserved _ | .optLenLit _ _ | .optLenExt8 _ | .optLenExt16 _ | .optLenReserved _
  | .payloadMarker => []

/-- The registers that only PARSE writes and that a failed PARSE leaves unspecified, `P_FLAGS` apart
(41_message_parser.md R509). -/
def parseResultRegs : List Reg :=
  [.reqType, .reqTkl, .reqCode, .reqMid, .reqToken0, .reqToken1,
   .pPathLen, .pCfValue, .pPayloadOff, .pPayloadLen, .pOptCount, .pLastOptnum]

/-- The registers a command writes (10_state.md R136), but for `STATUS`, which keeps its meaning under
both hazards (70_reset_and_hazards.md R911, R912). A wire element writes hidden state only. -/
def outputRegs : Instr → List Reg
  | .nop => [.errInfo]
  | .decodeExt => [.codecOut, .errInfo]
  | .encodeExt => [.codecEnc, .errInfo]
  | .parse => parseResultRegs ++ [.pFlags, .errInfo]
  | .build => [.txLen, .errInfo]
  | .illegalReservedOpcode _ _ => [.errInfo]
  | .illegalReservedBits _ _ => [.errInfo]
  | .wireHeader _ _ _ _ | .optHdr _ _ | .optDeltaLit _ _ | .optDeltaExt8 _ | .optDeltaExt16 _
  | .optDeltaReserved _ | .optLenLit _ _ | .optLenExt8 _ | .optLenExt16 _ | .optLenReserved _
  | .payloadMarker => []

/-- The buffers a command writes (10_state.md R136). -/
def outputBuffers : Instr → List Buffer
  | .parse => [.path]
  | .build => [.tx]
  | .nop | .decodeExt | .encodeExt | .illegalReservedOpcode _ _ | .illegalReservedBits _ _
  | .wireHeader _ _ _ _ | .optHdr _ _ | .optDeltaLit _ _ | .optDeltaExt8 _ | .optDeltaExt16 _
  | .optDeltaReserved _ | .optLenLit _ _ | .optLenExt8 _ | .optLenExt16 _ | .optLenReserved _
  | .payloadMarker => []

/-- Every output of a command becomes a `draw`, `ERR_INFO` included (70_reset_and_hazards.md R911). Which
bytes of its buffer a tainted command has written is a part of that draw, so no `written` bit changes
(log 10). -/
def State.drawOutputs (s : State) (i : Instr) : State :=
  (outputBuffers i).foldl State.drawBuffer ((outputRegs i).foldl State.drawReg s)

/-! ## The life of a command -/

/-- What executing a command's rule gives: the state with the rule's own writes, and the outcome that
the completion step will record (45_command_control.md R700). -/
structure Result where
  st : State
  err : ErrInfo
deriving DecidableEq, Repr

/-- `complete()` (00_scope.md R12): the command ends without error. -/
def complete (s : State) : Result := { st := s, err := Error.ok.info 0 }

/-- `raise e(detail, pos)` (60_exceptions.md R803): the command ends with this record. It is the block's
exception entry: code, detail and position are all the state an error saves, and control goes to no
handler. -/
def raiseError (e : Error) (pos : Nat) (s : State) : Result := { st := s, err := e.info pos }

/-- A `CMD` write of `w` that is accepted (45_command_control.md R700, start). -/
def State.startCommand (w : Word) (s : State) : State :=
  { s with
    done := false
    errInfo := Error.ok.info 0
    taint := false
    inflight := some w
    scan := none }

/-- The completion step of the command `i`, whose rule gives `r`, in the state `s`
(45_command_control.md R700). A tainted command leaves draws in all its outputs, `ERR_INFO` included
(70_reset_and_hazards.md R911), and its rule changes nothing else. R700's pseudocode writes the result
into `ERR_INFO` after the draws; R911 says the draw stands. DEDUCED (log 7), safe. -/
def State.completion (i : Instr) (r : Result) (s : State) : State :=
  let t := if s.taint then s.drawOutputs i else { r.st with errInfo := r.err }
  { t with inflight := none, done := true, scan := none }

/-! ## Resets -/

/-- Hardware reset (70_reset_and_hazards.md R900): every register at its reset value, nothing in flight,
every buffer byte unwritten. The parameters and the model's own fields stay. -/
def State.hardReset (s : State) : State :=
  { State.powerUp s.params with draws := s.draws, inputs := s.inputs, busData := s.busData }

/-- The buffer that a running command was writing becomes unspecified when a soft reset abandons it:
`PATH` for PARSE, `TX` for BUILD (70_reset_and_hazards.md R901). -/
def State.abandonBuffers (s : State) : State :=
  match s.running with
  | some i => (outputBuffers i).foldl State.drawBuffer s
  | none => s

/-- Soft reset (70_reset_and_hazards.md R902): as a hardware reset, but the buffers keep their contents
and their `written` bits, apart from the buffer of an abandoned command. -/
def State.softReset (s : State) : State :=
  { s.hardReset with mem := s.abandonBuffers.mem }

end Sys2Proof.Machine
end

