-- ==== Sys2Proof/Machine/Bus.lean ====
section
/-! DEFINITION. The host's bus accesses (20_memory.md R200 to R211; 10_state.md R101; 45_command_control.md
R700, R701, R706; 70_reset_and_hazards.md R902, R911, R912). -/

namespace Sys2Proof.Machine

/-- What a bus address selects (20_memory.md R201, R209). -/
inductive Target where
  | reg (r : Reg)
  | hole
  /-- A buffer word whose first byte has index `i`, below the capacity. -/
  | word (b : Buffer) (i : Nat)
deriving DecidableEq, Repr

/-- The buffer whose window begins at `0x10000 * k` (20_memory.md R201). -/
def windowBuffer (k : Nat) : Option Buffer :=
  if k = 1 then some .rx
  else if k = 2 then some .tx
  else if k = 3 then some .body
  else if k = 4 then some .path
  else none

/-- The address decoder (20_memory.md R201, R203, R205): misaligned, then the register bank, then the
windows with their capacities; everything else is unmapped. -/
def resolve (c : Params) (addr : BitVec 20) : Except Fault Target :=
  let a := addr.toNat
  if a % 4 ≠ 0 then .error .busMisaligned
  else if a < 0x100 then
    match Reg.at? a with
    | some r => .ok (.reg r)
    | none => .ok .hole
  else
    match windowBuffer (a / 0x10000) with
    | some b =>
      if a % 0x10000 < b.cap c then .ok (.word b (a % 0x10000)) else .error .busPastCapacity
    | none => .error .busUnmapped

/-! ## Reads -/

/-- Whether the running command writes a register (70_reset_and_hazards.md R912). -/
def State.writesNow (s : State) (r : Reg) : Bool :=
  match s.running with
  | some i => decide (r ∈ outputRegs i)
  | none => false

/-- Whether the running command writes a buffer (70_reset_and_hazards.md R912). -/
def State.writesBufferNow (s : State) (b : Buffer) : Bool :=
  match s.running with
  | some i => decide (b ∈ outputBuffers i)
  | none => false

/-- Whether the running command reads a register (70_reset_and_hazards.md R911). -/
def State.readsNow (s : State) (r : Reg) : Bool :=
  match s.running with
  | some i => decide (r ∈ inputRegs i)
  | none => false

/-- Whether the running command reads a buffer (70_reset_and_hazards.md R911). -/
def State.readsBufferNow (s : State) (b : Buffer) : Bool :=
  match s.running with
  | some i => decide (b ∈ inputBuffers i)
  | none => false

/-- A host read of a register: its word, or a `draw` of its fields while the running command writes it
(70_reset_and_hazards.md R912). -/
def State.readReg (s : State) (r : Reg) : Word :=
  if s.writesNow r then Config.drawWord s.draws r.offset &&& r.fieldMask else r.get s

/-- One lane of a host read of a buffer: 0 past the capacity (20_memory.md R205), a `draw` while the
running command writes the buffer (70_reset_and_hazards.md R912), the byte otherwise. -/
def State.readLane (s : State) (b : Buffer) (i : Nat) : Byte :=
  if b.cap s.params ≤ i then 0
  else if s.writesBufferNow b then Config.drawByte s.draws (b.base + i)
  else s.readByte b i

/-- `MemRead(addr, 4)` (20_memory.md R204, R209). -/
def State.readTarget (s : State) (t : Target) : Word :=
  match t with
  | .reg r => s.readReg r
  | .hole => 0
  | .word b i =>
    ofLanes (s.readLane b i) (s.readLane b (i + 1)) (s.readLane b (i + 2)) (s.readLane b (i + 3))

/-- A host bus read. "Reads have no side effects" (20_memory.md R210): only the returned word is kept. A
bus error is a fault of the host's step (60_exceptions.md R810). -/
def busRead (addr : BitVec 20) (s : State) : Host.Outcome State Fault Refusal :=
  match resolve s.params addr with
  | .ok t => .next { s with busData := s.readTarget t }
  | .error f => .fault f

/-! ## Writes -/

/-- The input hazard (70_reset_and_hazards.md R911): a write to an input of the running command sets
`taint`. -/
def State.taintIf (s : State) (isInput : Bool) : State :=
  { s with taint := s.taint || isInput }

/-- A write to `CTRL` (10_state.md R107): `SOFT_RESET` wins over `IRQ_EN`. -/
def State.writeCtrl (v : Word) (s : State) : State :=
  if bitOf v 0 then s.softReset else { s with irqEn := bitOf v 1 }

/-- A write to `CMD`: it starts a command, or, while one runs, is discarded and sets `OVERRUN`
(45_command_control.md R700, R701). -/
def State.writeCmd (v : Word) (s : State) : State :=
  if s.busy then { s with overrun := true } else s.startCommand v

/-- A host write to a register (10_state.md R101). -/
def State.writeReg (r : Reg) (v : Word) (s : State) : State :=
  if r = .ctrl then s.writeCtrl v
  else if r = .cmd then s.writeCmd v
  else if r = .status then s.acknowledge v
  else if r.hostWritable then r.set v (s.taintIf (s.readsNow r))
  else s

/-- The bytes of a written word that lie below the capacity (20_memory.md R205). -/
def writtenLanes (v : Word) (cap i : Nat) : List Byte := (wordBytes v).take (cap - i)

/-- `MemWrite(addr, 4, v)` (20_memory.md R204, R205, R209). A write to an RO window or a hole is
ignored. -/
def State.writeTarget (t : Target) (v : Word) (s : State) : State :=
  match t with
  | .reg r => s.writeReg r v
  | .hole => s
  | .word b i =>
    if b.hostWritable then
      (s.taintIf (s.readsBufferNow b)).storeBytes b i (writtenLanes v (b.cap s.params) i)
    else s

/-- A host bus write. A bus error changes nothing and is a fault of the host's step (20_memory.md R211,
60_exceptions.md R810). -/
def busWrite (addr : BitVec 20) (v : Word) (s : State) : Host.Outcome State Fault Refusal :=
  match resolve s.params addr with
  | .ok t => .next (s.writeTarget t v)
  | .error f => .fault f

end Sys2Proof.Machine
end

