-- ==== Sys2Proof/Machine/Builder.lean ====
section
/-! DEFINITION. The datagram framer BUILD (42_message_builder.md R600 to R606). -/

namespace Sys2Proof.Machine

/-- The response type (42_message_builder.md R602): ACK for a CON request, NON otherwise. -/
def responseType (reqType : BitVec 2) : BitVec 2 := if reqType = 0 then 2 else 1

/-- One option in wire order, the first of its datagram (42_message_builder.md R604, 30_encoding.md
R315): header byte, delta extension, length extension, value. -/
def wireOption (delta : Nat) (value : List Byte) : List Byte :=
  match nibbleEncode delta, nibbleEncode value.length with
  | some (dn, de), some (ln, le) => nibbleByte dn ln :: (de ++ (le ++ value))
  | _, _ => []

/-- The marker and the body, or nothing when the body is empty (42_message_builder.md R600). -/
def wirePayload (body : List Byte) : List Byte :=
  match body with
  | [] => []
  | b :: bs => 0xFF :: b :: bs

/-- The token bytes that BUILD echoes, `TOKEN[0..TKL)` (42_message_builder.md R603). -/
def State.echoedToken (s : State) : List Byte := slice s.tokenByte 0 s.reqTkl.toNat

/-- The body, `BODY[0..BODY_LEN)` (10_state.md R129). -/
def State.body (s : State) : List Byte := slice (s.readByte .body) 0 s.bodyLen.toNat

/-- The framed datagram, `out` of 42_message_builder.md R600. -/
def State.frame (s : State) : List Byte :=
  [headerByte (responseType s.reqType) s.reqTkl, s.respCode, highByte s.reqMid, lowByte s.reqMid]
    ++ (s.echoedToken ++ (wireOption 12 (uintBytes s.params.textPlainCf) ++ wirePayload s.body))

/-- The rule of BUILD (42_message_builder.md R600). -/
def buildRule (s : State) : Result :=
  let failed := { s with txLen := 0 }
  if s.params.bodyCap.toNat < s.bodyLen.toNat then raiseError .bodyLenGtCap 0 failed
  else if 8 < s.reqTkl.toNat then raiseError .buildTklGt8 0 failed
  else if s.params.txCap.toNat < s.frame.length then raiseError .bufferTooSmall 0 failed
  else
    complete { s.storeBytes .tx 0 s.frame with txLen := BitVec.ofNat 16 s.frame.length }

/-- `BUILD` (42_message_builder.md R600). -/
def execBuild (s : State) : Host.Outcome State Fault Refusal :=
  .next (State.completion .build (buildRule s) s)

end Sys2Proof.Machine
end

