-- ==== Sys2Proof/Machine/Codec.lean ====
section
/-! DEFINITION. The option codec commands DECODE_EXT and ENCODE_EXT (40_option_codec.md R410, R411). -/

namespace Sys2Proof.Machine

/-- The extension bytes of `CODEC_IN` as a byte source (40_option_codec.md R410, `S`). -/
def codecSource (c : CodecWord) (i : Nat) : Byte := extByte [c.ext0, c.ext1] i

/-- The rule of DECODE_EXT (40_option_codec.md R410). -/
def decodeExtRule (s : State) : Result :=
  let zeroed := { s with codecOut := { value := 0, used := 0 } }
  if s.codecIn.count = 3 then raiseError .availReserved 0 zeroed
  else
    match nibbleDecode s.codecIn.nibble (codecSource s.codecIn) 0 s.codecIn.count.toNat with
    | .ok v u =>
      complete { s with codecOut := { value := BitVec.ofNat 17 v, used := BitVec.ofNat 2 u } }
    | .reserved => raiseError .nibbleReserved 0 zeroed
    | .trunc => raiseError .extTrunc 0 zeroed

/-- `DECODE_EXT` (40_option_codec.md R410). -/
def execDecodeExt (s : State) : Host.Outcome State Fault Refusal :=
  .next (State.completion .decodeExt (decodeExtRule s) s)

/-- The rule of ENCODE_EXT (40_option_codec.md R411). -/
def encodeExtRule (s : State) : Result :=
  match nibbleEncode s.codecValIn.toNat with
  | some (n, e) =>
    complete { s with codecEnc :=
      { nibble := n, count := BitVec.ofNat 2 e.length, ext0 := extByte e 0, ext1 := extByte e 1 } }
  | none =>
    raiseError .encodeRange 0
      { s with codecEnc := { nibble := 0, count := 0, ext0 := 0, ext1 := 0 } }

/-- `ENCODE_EXT` (40_option_codec.md R411). -/
def execEncodeExt (s : State) : Host.Outcome State Fault Refusal :=
  .next (State.completion .encodeExt (encodeExtRule s) s)

end Sys2Proof.Machine
end

