-- ==== Sys2Proof/Machine/Control.lean ====
section
/-! DEFINITION. The control group: NOP and the two classes of illegal command words
(45_command_control.md R703, R705). -/

namespace Sys2Proof.Machine

/-- `NOP` (45_command_control.md R705): it completes, and writes `STATUS` and `ERR_INFO` only. -/
def execNop (s : State) : Host.Outcome State Fault Refusal :=
  .next (State.completion .nop (complete s) s)

/-- A reserved opcode (45_command_control.md R703): IllegalCommand, RESERVED_OPCODE. -/
def execIllegalReservedOpcode (op : BitVec 4) (mbz : BitVec 28) (s : State) :
    Host.Outcome State Fault Refusal :=
  .next (State.completion (.illegalReservedOpcode op mbz) (raiseError .reservedOpcode 0 s) s)

/-- A legal opcode with reserved bits set (45_command_control.md R703): IllegalCommand,
RESERVED_BITS. -/
def execIllegalReservedBits (op : BitVec 4) (mbz : BitVec 28) (s : State) :
    Host.Outcome State Fault Refusal :=
  .next (State.completion (.illegalReservedBits op mbz) (raiseError .reservedBits 0 s) s)

end Sys2Proof.Machine
end

