-- ==== Sys2Proof/Machine/Parser.lean ====
section
/-! DEFINITION. The datagram extractor PARSE (41_message_parser.md R500 to R510). Each wire element
(header, option header byte, delta class, length class, marker) has a meaning of its own on the hidden
scan (10_state.md R134); PARSE executes them one after another and commits at its completion step. -/

namespace Sys2Proof.Machine

/-! ## One wire element on the scan -/

/-- `fail(E, d, pos)` (41_message_parser.md R509), inside the scan. -/
def Scan.fail (e : Error) (pos : Nat) (sc : Scan) : Scan := { sc with phase := .failed e pos }

/-- WIRE_HEADER (41_message_parser.md R501 checks 3, R503): the token length is checked, the header
fields and the token are taken, and the cursor goes to the first option. -/
def scanWireHeader (src : Nat → Byte) (t : BitVec 2) (tkl : BitVec 4) (code : BitVec 8)
    (mid : BitVec 16) (sc : Scan) : Scan :=
  match sc.phase with
  | .header =>
    if 8 < tkl.toNat then sc.fail .tklGt8 0
    else if sc.n < 4 + tkl.toNat then sc.fail .tokenTrunc 0
    else
      { sc with
        t := t, tkl := tkl, code := code, mid := mid
        token := slice src 4 tkl.toNat
        p := 4 + tkl.toNat
        phase := .option }
  | .option | .delta _ _ | .length _ _ _ | .done | .failed _ _ => sc

/-- OPT_HDR (41_message_parser.md R500, R505): the header byte is consumed and its nibbles are kept. -/
def scanOptHdr (dn ln : BitVec 4) (sc : Scan) : Scan :=
  match sc.phase with
  | .option => { sc with p := sc.p + 1, phase := .delta sc.p (nibbleByte dn ln) }
  | .header | .delta _ _ | .length _ _ _ | .done | .failed _ _ => sc

/-- A delta class (41_message_parser.md R505 step 4): the delta extension is decoded at the cursor. -/
def scanDelta (src : Nat → Byte) (dn ln : BitVec 4) (sc : Scan) : Scan :=
  match sc.phase with
  | .delta hp _ =>
    match nibbleDecode dn src sc.p sc.n with
    | .ok delta next => { sc with p := next, phase := .length hp (nibbleByte dn ln) delta }
    | .trunc => sc.fail .deltaExtTrunc hp
    | .reserved => sc.fail .deltaReserved hp
  | .header | .option | .length _ _ _ | .done | .failed _ _ => sc

/-- OPT_DELTA_RESERVED (41_message_parser.md R505 step 2). -/
def scanDeltaReserved (sc : Scan) : Scan :=
  match sc.phase with
  | .delta hp _ => sc.fail .deltaReserved hp
  | .length hp _ _ => sc.fail .deltaReserved hp
  | .header | .option | .done | .failed _ _ => sc

/-- OPT_LEN_RESERVED (41_message_parser.md R505 step 3). -/
def scanLenReserved (sc : Scan) : Scan :=
  match sc.phase with
  | .delta hp _ => sc.fail .lengthReserved hp
  | .length hp _ _ => sc.fail .lengthReserved hp
  | .header | .option | .done | .failed _ _ => sc

/-- The path after one more segment: a '/' between segments, none leading (41_message_parser.md
R508). -/
def joinPath (present : Bool) (path segment : List Byte) : List Byte :=
  if present then path ++ (0x2F :: segment) else path ++ segment

/-- An option whose delta and length are known, its value at the cursor (41_message_parser.md R500
from the value check on; R502, R505 step 6, R507, R508). -/
def scanValue (src : Nat → Byte) (pathCap hp delta len : Nat) (sc : Scan) : Scan :=
  if sc.n < sc.p + len then sc.fail .valueOverrun hp
  else
    let counted := { sc with num := sc.num + delta, count := sc.count + 1 }
    let v := slice src sc.p len
    if counted.num = 11 then
      if pathCap < (joinPath sc.pathPresent sc.path v).length then counted.fail .pathOverflow hp
      else
        { counted with
          path := joinPath sc.pathPresent sc.path v
          pathPresent := true
          p := sc.p + len
          phase := .option }
    else if counted.num = 12 then
      if 4 < len then counted.fail .cfTooLong hp
      else
        { counted with
          cf := BitVec.ofNat 32 (beNat v)
          cfPresent := true
          p := sc.p + len
          phase := .option }
    else { counted with p := sc.p + len, phase := .option }

/-- A length class (41_message_parser.md R505 steps 5 and 6): the length extension is decoded at the
cursor, and then the value is taken. -/
def scanLength (src : Nat → Byte) (pathCap : Nat) (ln : BitVec 4) (sc : Scan) : Scan :=
  match sc.phase with
  | .length hp _ delta =>
    match nibbleDecode ln src sc.p sc.n with
    | .ok len next => scanValue src pathCap hp delta len { sc with p := next }
    | .trunc => sc.fail .lengthExtTrunc hp
    | .reserved => sc.fail .lengthReserved hp
  | .header | .option | .delta _ _ | .done | .failed _ _ => sc

/-- PAYLOAD_MARKER (41_message_parser.md R506): a marker that is the last byte is EMPTY_PAYLOAD;
otherwise everything after it is the payload. -/
def scanPayloadMarker (sc : Scan) : Scan :=
  match sc.phase with
  | .option =>
    if sc.p + 1 = sc.n then sc.fail .emptyPayload sc.p
    else
      { sc with
        payPresent := true, payOff := sc.p + 1, payLen := sc.n - (sc.p + 1), phase := .done }
  | .header | .delta _ _ | .length _ _ _ | .done | .failed _ _ => sc

/-- The effect of a wire element on the scan. A command word is none. -/
def wireEffect (src : Nat → Byte) (pathCap : Nat) (i : Instr) (sc : Scan) : Scan :=
  match i with
  | .wireHeader t tkl code mid => scanWireHeader src t tkl code mid sc
  | .optHdr dn ln => scanOptHdr dn ln sc
  | .optDeltaLit dn ln => scanDelta src dn ln sc
  | .optDeltaExt8 ln => scanDelta src 13 ln sc
  | .optDeltaExt16 ln => scanDelta src 14 ln sc
  | .optDeltaReserved _ => scanDeltaReserved sc
  | .optLenLit _ ln => scanLength src pathCap ln sc
  | .optLenExt8 _ => scanLength src pathCap 13 sc
  | .optLenExt16 _ => scanLength src pathCap 14 sc
  | .optLenReserved _ => scanLenReserved sc
  | .payloadMarker => scanPayloadMarker sc
  | .nop | .decodeExt | .encodeExt | .parse | .build
  | .illegalReservedOpcode _ _ | .illegalReservedBits _ _ => sc

/-! ## Fetching the next wire element -/

/-- What stands at the cursor. -/
inductive WireFetch where
  /-- An element to execute. -/
  | instr (i : Instr)
  /-- A framing check that fails before any element can be read (41_message_parser.md R501). -/
  | fail (e : Error)
  /-- The datagram ends where an option could begin (41_message_parser.md R504). -/
  | datagramEnd
  /-- PARSE has already finished or failed. -/
  | nothing
deriving DecidableEq, Repr

/-- A decoder's answer as a fetch; a byte list that is no element fails PARSE by the named error. -/
def fetchOf (d : Except DecodeError (Instr × List Byte)) : WireFetch :=
  match d with
  | .ok (i, _) => .instr i
  | .error .tooFewBytes => .fail .tooShort
  | .error .badVersion => .fail .unsupportedVersion
  | .error .markerByte => .fail .deltaReserved

/-- The wire element at the cursor, read by the decoder. Before the header is decoded, `RX_LEN` is held
against `RX_CAP` (41_message_parser.md R501 check 0), and a header needs 4 bytes (check 1). -/
def fetchWire (src : Nat → Byte) (rxCap : Nat) (sc : Scan) : WireFetch :=
  match sc.phase with
  | .header =>
    if rxCap < sc.n then .fail .rxLenGtCap
    else fetchOf (decode .header (slice src 0 (min sc.n 4)))
  | .option => if sc.p < sc.n then fetchOf (decode .option [src sc.p]) else .datagramEnd
  | .delta _ h => fetchOf (decode .delta [h])
  | .length _ h _ => fetchOf (decode .length [h])
  | .done => .nothing
  | .failed _ _ => .nothing

/-- One pass: fetch and execute the element at the cursor. -/
def scanAdvance (src : Nat → Byte) (rxCap pathCap : Nat) (sc : Scan) : Scan :=
  match fetchWire src rxCap sc with
  | .instr i => wireEffect src pathCap i sc
  | .fail e => sc.fail e 0
  | .datagramEnd => { sc with phase := .done }
  | .nothing => sc

/-- `k` passes. -/
def scanRun (src : Nat → Byte) (rxCap pathCap : Nat) : Nat → Scan → Scan
  | 0, sc => sc
  | k + 1, sc => scanRun src rxCap pathCap k (scanAdvance src rxCap pathCap sc)

/-- More passes than any datagram of `n` bytes takes: one for the header, three for each option, one
for the end (41_message_parser.md R511). -/
def scanFuel (n : Nat) : Nat := 3 * n + 4

/-! ## The scan of a state -/

/-- PARSE's hidden state when it starts (41_message_parser.md R500, R502). `RX_LEN` is read once. -/
def Scan.start (n : Nat) : Scan :=
  { n := n, p := 0, num := 0, count := 0
    t := 0, tkl := 0, code := 0, mid := 0, token := []
    path := [], pathPresent := false, cf := 0, cfPresent := false
    payPresent := false, payOff := n, payLen := 0, phase := .header }

/-- The hidden state of a running PARSE: where it stands, or its start. -/
def State.theScan (s : State) : Scan := s.scan.getD (Scan.start s.rxLen.toNat)

/-- The effect of a wire element on a state: hidden state only (10_state.md R134). A wire element is one
only at the cursor of a running PARSE; elsewhere the same bytes are data, and nothing happens
(41_message_parser.md R504). DEDUCED (log 3), safe. -/
def State.onScan (f : Scan → Scan) (s : State) : State :=
  if s.running = some .parse then { s with scan := some (f s.theScan) } else s

/-- The bytes of `RX` as PARSE reads them. -/
def State.rxSource (s : State) : Nat → Byte := s.readByte .rx

/-- The wire element at the cursor of the running PARSE. -/
def State.fetchWire (s : State) : WireFetch :=
  Sys2Proof.Machine.fetchWire s.rxSource s.params.rxCap.toNat s.theScan

/-- The scan when every remaining element has been executed. -/
def State.finalScan (s : State) : Scan :=
  scanRun s.rxSource s.params.rxCap.toNat s.params.pathCap.toNat (scanFuel s.theScan.n) s.theScan

/-! ## Meanings of the wire elements -/

/-- `WIRE_HEADER` (30_encoding.md R311, 41_message_parser.md R503). -/
def execWireHeader (t : BitVec 2) (tkl : BitVec 4) (code : BitVec 8) (mid : BitVec 16) (s : State) :
    Host.Outcome State Fault Refusal :=
  .next (s.onScan (scanWireHeader s.rxSource t tkl code mid))

/-- `OPT_HDR` (41_message_parser.md R505). -/
def execOptHdr (dn ln : BitVec 4) (s : State) : Host.Outcome State Fault Refusal :=
  .next (s.onScan (scanOptHdr dn ln))

/-- `OPT_DELTA_LIT` (30_encoding.md R316). -/
def execOptDeltaLit (dn ln : BitVec 4) (s : State) : Host.Outcome State Fault Refusal :=
  .next (s.onScan (scanDelta s.rxSource dn ln))

/-- `OPT_DELTA_EXT8` (30_encoding.md R316). -/
def execOptDeltaExt8 (ln : BitVec 4) (s : State) : Host.Outcome State Fault Refusal :=
  .next (s.onScan (scanDelta s.rxSource 13 ln))

/-- `OPT_DELTA_EXT16` (30_encoding.md R316). -/
def execOptDeltaExt16 (ln : BitVec 4) (s : State) : Host.Outcome State Fault Refusal :=
  .next (s.onScan (scanDelta s.rxSource 14 ln))

/-- `OPT_DELTA_RESERVED` (41_message_parser.md R505). -/
def execOptDeltaReserved (_ln : BitVec 4) (s : State) : Host.Outcome State Fault Refusal :=
  .next (s.onScan scanDeltaReserved)

/-- `OPT_LEN_LIT` (30_encoding.md R316, 41_message_parser.md R505). -/
def execOptLenLit (_dn ln : BitVec 4) (s : State) : Host.Outcome State Fault Refusal :=
  .next (s.onScan (scanLength s.rxSource s.params.pathCap.toNat ln))

/-- `OPT_LEN_EXT8` (30_encoding.md R316, 41_message_parser.md R505). -/
def execOptLenExt8 (_dn : BitVec 4) (s : State) : Host.Outcome State Fault Refusal :=
  .next (s.onScan (scanLength s.rxSource s.params.pathCap.toNat 13))

/-- `OPT_LEN_EXT16` (30_encoding.md R316, 41_message_parser.md R505). -/
def execOptLenExt16 (_dn : BitVec 4) (s : State) : Host.Outcome State Fault Refusal :=
  .next (s.onScan (scanLength s.rxSource s.params.pathCap.toNat 14))

/-- `OPT_LEN_RESERVED` (41_message_parser.md R505). -/
def execOptLenReserved (_dn : BitVec 4) (s : State) : Host.Outcome State Fault Refusal :=
  .next (s.onScan scanLenReserved)

/-- `PAYLOAD_MARKER` (41_message_parser.md R506). -/
def execPayloadMarker (s : State) : Host.Outcome State Fault Refusal :=
  .next (s.onScan scanPayloadMarker)

/-! ## PARSE -/

/-- The failure writes of PARSE (41_message_parser.md R509): `VALID` is 0, every other output is
unspecified. -/
def State.parseFailure (s : State) : State :=
  let drawn := (parseResultRegs.foldl State.drawReg (s.drawReg .pFlags)).drawBuffer .path
  { drawn with pFlags := { drawn.pFlags with valid := false } }

/-- The success writes of PARSE (41_message_parser.md R500 commit, R510): `PATH` past the path becomes
unspecified, and its never-written bytes stay so. -/
def State.parseCommit (sc : Scan) (s : State) : State :=
  let stored := (s.drawBuffer .path).storeBytes .path 0 sc.path
  { stored with
    reqType := sc.t
    reqTkl := sc.tkl
    reqCode := sc.code
    reqMid := sc.mid
    reqToken0 := tokenWord sc.token 0
    reqToken1 := tokenWord sc.token 4
    pPathLen := BitVec.ofNat 16 sc.path.length
    pCfValue := sc.cf
    pPayloadOff := BitVec.ofNat 16 sc.payOff
    pPayloadLen := BitVec.ofNat 16 sc.payLen
    pOptCount := BitVec.ofNat 16 sc.count
    pLastOptnum := BitVec.ofNat 32 sc.num
    pFlags :=
      { valid := true, pathPresent := sc.pathPresent
        cfPresent := sc.cfPresent, payloadPresent := sc.payPresent } }

/-- The rule of PARSE (41_message_parser.md R500): every remaining element, then the commit or the
failure. -/
def parseRule (s : State) : Result :=
  match s.finalScan.phase with
  | .failed e pos => raiseError e pos s.parseFailure
  | .header | .option | .delta _ _ | .length _ _ _ | .done => complete (s.parseCommit s.finalScan)

/-- `PARSE` (41_message_parser.md R500). -/
def execParse (s : State) : Host.Outcome State Fault Refusal :=
  .next (State.completion .parse (parseRule s) s)

end Sys2Proof.Machine
end

