-- ==== Sys2Proof/Machine/Dispatch.lean ====
section
/-! DEFINITION. The dispatch: one arm for each instruction, one direct call of its meaning. -/

namespace Sys2Proof.Machine

/-- The meaning of an instruction in a state. -/
def exec (i : Instr) (s : State) : Host.Outcome State Fault Refusal :=
  match i with
  | .nop => Sys2Proof.Machine.execNop s
  | .decodeExt => Sys2Proof.Machine.execDecodeExt s
  | .encodeExt => Sys2Proof.Machine.execEncodeExt s
  | .parse => Sys2Proof.Machine.execParse s
  | .build => Sys2Proof.Machine.execBuild s
  | .illegalReservedOpcode op mbz => Sys2Proof.Machine.execIllegalReservedOpcode op mbz s
  | .illegalReservedBits op mbz => Sys2Proof.Machine.execIllegalReservedBits op mbz s
  | .wireHeader t tkl code mid => Sys2Proof.Machine.execWireHeader t tkl code mid s
  | .optHdr dn ln => Sys2Proof.Machine.execOptHdr dn ln s
  | .optDeltaLit dn ln => Sys2Proof.Machine.execOptDeltaLit dn ln s
  | .optDeltaExt8 ln => Sys2Proof.Machine.execOptDeltaExt8 ln s
  | .optDeltaExt16 ln => Sys2Proof.Machine.execOptDeltaExt16 ln s
  | .optDeltaReserved ln => Sys2Proof.Machine.execOptDeltaReserved ln s
  | .optLenLit dn ln => Sys2Proof.Machine.execOptLenLit dn ln s
  | .optLenExt8 dn => Sys2Proof.Machine.execOptLenExt8 dn s
  | .optLenExt16 dn => Sys2Proof.Machine.execOptLenExt16 dn s
  | .optLenReserved dn => Sys2Proof.Machine.execOptLenReserved dn s
  | .payloadMarker => Sys2Proof.Machine.execPayloadMarker s

end Sys2Proof.Machine
end

