-- ==== Sys2Proof/Machine/Fetch.lean ====
section
/-! DEFINITION. What one move does: the completion step, a hidden PARSE step, a host access, a reset
(60_exceptions.md R806); and the bytes and words that a program is placed into (log 8). -/

namespace Sys2Proof.Machine

/-- The move is taken off the list, and the step gets the next number. -/
def State.tick (rest : List Move) (s : State) : State :=
  { s with inputs := rest, draws := s.draws + 1 }

/-- The completion step (45_command_control.md R700, R702): the word in flight is decoded and executed.
An idle block has none. -/
def completeMove (s : State) : Host.Outcome State Fault Refusal :=
  match s.inflight with
  | some w => exec (decodeCommand w) s
  | none => .next s

/-- A hidden step of a running PARSE: the wire element at the cursor is executed, or a framing check
fails, or the end of the datagram is reached. -/
def scanMove (s : State) : Host.Outcome State Fault Refusal :=
  if s.running = some .parse then
    match s.fetchWire with
    | .instr i => exec i s
    | .fail e => .next (s.onScan (Scan.fail e 0))
    | .datagramEnd => .next (s.onScan (fun sc => { sc with phase := .done }))
    | .nothing => .next s
  else .next s

/-- What a move does (60_exceptions.md R806). -/
def move (m : Move) (s : State) : Host.Outcome State Fault Refusal :=
  match m with
  | .read addr => busRead addr s
  | .write addr data => busWrite addr data s
  | .hardReset => .next s.hardReset
  | .scan => scanMove s
  | .complete => completeMove s

/-- What happens when no move is left: a command in flight completes ("every started command that no
reset abandons completes eventually", 70_reset_and_hazards.md R920), and an idle block stays as it
is. -/
def noMove (s : State) : Host.Outcome State Fault Refusal :=
  if s.busy then completeMove (s.tick []) else .next s

/-- A PARSE in flight over the datagram bytes `bs` from RX index `i` on, its cursor at `p` and in the
phase `ph`: `RX` is as long as its capacity, and zeros follow `bs`. -/
def State.placeWire (s : State) (i : Nat) (bs : List Byte) (p : Nat) (ph : Phase) : State :=
  let n := s.params.rxCap.toNat
  let placed :=
    (s.startCommand (commandWord 3 0)).storeBytes .rx i ((bs ++ List.replicate 8 0).take (n - i))
  { placed with
    rxLen := s.params.rxCap
    scan := some { Scan.start n with p := p, phase := ph } }

/-- The state in which a table word is what the next move fetches (log 8): a command word is in
flight, as after a `CMD` write of it; a wire element stands at the cursor of a PARSE in flight. -/
def State.placeWord (s : State) (pos : Position) (bs : List Byte) : State :=
  match pos with
  | .command =>
    s.startCommand (ofLanes (extByte bs 0) (extByte bs 1) (extByte bs 2) (extByte bs 3))
  | .header => s.placeWire 0 bs 0 .header
  | .option => s.placeWire 4 bs 4 .option
  | .delta => s.placeWire 4 bs 5 (.delta 4 (extByte bs 0))
  | .length => s.placeWire 4 bs 5 (.length 4 (extByte bs 0) 0)

/-- The move that fetches from a position. -/
def fetchMove (pos : Position) : Move :=
  match pos with
  | .command => .complete
  | .header | .option | .delta | .length => .scan

end Sys2Proof.Machine
end

