-- ==== Sys2Proof/Machine/Step.lean ====
section
/-! DEFINITION. One step, and the host's way to place the next instruction. -/

namespace Sys2Proof.Machine

/-- One step of the block and its host: the next move of the list, or what follows when none is left. -/
def step (s : State) : Host.Outcome State Fault Refusal :=
  match s.inputs with
  | [] => noMove s
  | m :: rest => move m (s.tick rest)

/-- The same state with the instruction whose table bits are `w` placed where the next step fetches
it, and the move that fetches it put first (log 8). -/
def State.withFetchWord (s : State) (nbits w : Nat) : State :=
  match tablePosition nbits (w % 2 ^ nbits) with
  | none => s
  | some pos =>
    let placed := s.placeWord pos (tableBytes pos (w % 2 ^ nbits))
    { placed with inputs := fetchMove pos :: s.inputs }

end Sys2Proof.Machine
end

