-- ==== Sys2Proof/Laws/State.lean ====
section
/-! SUPPORT. One lemma for each field and each named update of State, true by definition: later proofs
never unfold an update. -/

namespace Sys2Proof.Machine

/-! ## tick -/

@[simp] theorem tick_params (s : State) (rest : List Move) :
    (s.tick rest).params = s.params := rfl

@[simp] theorem tick_irqEn (s : State) (rest : List Move) :
    (s.tick rest).irqEn = s.irqEn := rfl

@[simp] theorem tick_done (s : State) (rest : List Move) :
    (s.tick rest).done = s.done := rfl

@[simp] theorem tick_overrun (s : State) (rest : List Move) :
    (s.tick rest).overrun = s.overrun := rfl

@[simp] theorem tick_errInfo (s : State) (rest : List Move) :
    (s.tick rest).errInfo = s.errInfo := rfl

@[simp] theorem tick_codecIn (s : State) (rest : List Move) :
    (s.tick rest).codecIn = s.codecIn := rfl

@[simp] theorem tick_codecValIn (s : State) (rest : List Move) :
    (s.tick rest).codecValIn = s.codecValIn := rfl

@[simp] theorem tick_codecOut (s : State) (rest : List Move) :
    (s.tick rest).codecOut = s.codecOut := rfl

@[simp] theorem tick_codecEnc (s : State) (rest : List Move) :
    (s.tick rest).codecEnc = s.codecEnc := rfl

@[simp] theorem tick_rxLen (s : State) (rest : List Move) :
    (s.tick rest).rxLen = s.rxLen := rfl

@[simp] theorem tick_reqType (s : State) (rest : List Move) :
    (s.tick rest).reqType = s.reqType := rfl

@[simp] theorem tick_reqTkl (s : State) (rest : List Move) :
    (s.tick rest).reqTkl = s.reqTkl := rfl

@[simp] theorem tick_reqCode (s : State) (rest : List Move) :
    (s.tick rest).reqCode = s.reqCode := rfl

@[simp] theorem tick_reqMid (s : State) (rest : List Move) :
    (s.tick rest).reqMid = s.reqMid := rfl

@[simp] theorem tick_reqToken0 (s : State) (rest : List Move) :
    (s.tick rest).reqToken0 = s.reqToken0 := rfl

@[simp] theorem tick_reqToken1 (s : State) (rest : List Move) :
    (s.tick rest).reqToken1 = s.reqToken1 := rfl

@[simp] theorem tick_pFlags (s : State) (rest : List Move) :
    (s.tick rest).pFlags = s.pFlags := rfl

@[simp] theorem tick_pPathLen (s : State) (rest : List Move) :
    (s.tick rest).pPathLen = s.pPathLen := rfl

@[simp] theorem tick_pCfValue (s : State) (rest : List Move) :
    (s.tick rest).pCfValue = s.pCfValue := rfl

@[simp] theorem tick_pPayloadOff (s : State) (rest : List Move) :
    (s.tick rest).pPayloadOff = s.pPayloadOff := rfl

@[simp] theorem tick_pPayloadLen (s : State) (rest : List Move) :
    (s.tick rest).pPayloadLen = s.pPayloadLen := rfl

@[simp] theorem tick_pOptCount (s : State) (rest : List Move) :
    (s.tick rest).pOptCount = s.pOptCount := rfl

@[simp] theorem tick_pLastOptnum (s : State) (rest : List Move) :
    (s.tick rest).pLastOptnum = s.pLastOptnum := rfl

@[simp] theorem tick_respCode (s : State) (rest : List Move) :
    (s.tick rest).respCode = s.respCode := rfl

@[simp] theorem tick_bodyLen (s : State) (rest : List Move) :
    (s.tick rest).bodyLen = s.bodyLen := rfl

@[simp] theorem tick_txLen (s : State) (rest : List Move) :
    (s.tick rest).txLen = s.txLen := rfl

@[simp] theorem tick_mem (s : State) (rest : List Move) :
    (s.tick rest).mem = s.mem := rfl

@[simp] theorem tick_inflight (s : State) (rest : List Move) :
    (s.tick rest).inflight = s.inflight := rfl

@[simp] theorem tick_taint (s : State) (rest : List Move) :
    (s.tick rest).taint = s.taint := rfl

@[simp] theorem tick_scan (s : State) (rest : List Move) :
    (s.tick rest).scan = s.scan := rfl

@[simp] theorem tick_draws (s : State) (rest : List Move) :
    (s.tick rest).draws = s.draws + 1 := rfl

@[simp] theorem tick_inputs (s : State) (rest : List Move) :
    (s.tick rest).inputs = rest := rfl

@[simp] theorem tick_busData (s : State) (rest : List Move) :
    (s.tick rest).busData = s.busData := rfl

/-! ## storeBytes -/

@[simp] theorem storeBytes_params (s : State) (b : Buffer) (i : Nat) (bs : List Byte) :
    (s.storeBytes b i bs).params = s.params := rfl

@[simp] theorem storeBytes_irqEn (s : State) (b : Buffer) (i : Nat) (bs : List Byte) :
    (s.storeBytes b i bs).irqEn = s.irqEn := rfl

@[simp] theorem storeBytes_done (s : State) (b : Buffer) (i : Nat) (bs : List Byte) :
    (s.storeBytes b i bs).done = s.done := rfl

@[simp] theorem storeBytes_overrun (s : State) (b : Buffer) (i : Nat) (bs : List Byte) :
    (s.storeBytes b i bs).overrun = s.overrun := rfl

@[simp] theorem storeBytes_errInfo (s : State) (b : Buffer) (i : Nat) (bs : List Byte) :
    (s.storeBytes b i bs).errInfo = s.errInfo := rfl

@[simp] theorem storeBytes_codecIn (s : State) (b : Buffer) (i : Nat) (bs : List Byte) :
    (s.storeBytes b i bs).codecIn = s.codecIn := rfl

@[simp] theorem storeBytes_codecValIn (s : State) (b : Buffer) (i : Nat) (bs : List Byte) :
    (s.storeBytes b i bs).codecValIn = s.codecValIn := rfl

@[simp] theorem storeBytes_codecOut (s : State) (b : Buffer) (i : Nat) (bs : List Byte) :
    (s.storeBytes b i bs).codecOut = s.codecOut := rfl

@[simp] theorem storeBytes_codecEnc (s : State) (b : Buffer) (i : Nat) (bs : List Byte) :
    (s.storeBytes b i bs).codecEnc = s.codecEnc := rfl

@[simp] theorem storeBytes_rxLen (s : State) (b : Buffer) (i : Nat) (bs : List Byte) :
    (s.storeBytes b i bs).rxLen = s.rxLen := rfl

@[simp] theorem storeBytes_reqType (s : State) (b : Buffer) (i : Nat) (bs : List Byte) :
    (s.storeBytes b i bs).reqType = s.reqType := rfl

@[simp] theorem storeBytes_reqTkl (s : State) (b : Buffer) (i : Nat) (bs : List Byte) :
    (s.storeBytes b i bs).reqTkl = s.reqTkl := rfl

@[simp] theorem storeBytes_reqCode (s : State) (b : Buffer) (i : Nat) (bs : List Byte) :
    (s.storeBytes b i bs).reqCode = s.reqCode := rfl

@[simp] theorem storeBytes_reqMid (s : State) (b : Buffer) (i : Nat) (bs : List Byte) :
    (s.storeBytes b i bs).reqMid = s.reqMid := rfl

@[simp] theorem storeBytes_reqToken0 (s : State) (b : Buffer) (i : Nat) (bs : List Byte) :
    (s.storeBytes b i bs).reqToken0 = s.reqToken0 := rfl

@[simp] theorem storeBytes_reqToken1 (s : State) (b : Buffer) (i : Nat) (bs : List Byte) :
    (s.storeBytes b i bs).reqToken1 = s.reqToken1 := rfl

@[simp] theorem storeBytes_pFlags (s : State) (b : Buffer) (i : Nat) (bs : List Byte) :
    (s.storeBytes b i bs).pFlags = s.pFlags := rfl

@[simp] theorem storeBytes_pPathLen (s : State) (b : Buffer) (i : Nat) (bs : List Byte) :
    (s.storeBytes b i bs).pPathLen = s.pPathLen := rfl

@[simp] theorem storeBytes_pCfValue (s : State) (b : Buffer) (i : Nat) (bs : List Byte) :
    (s.storeBytes b i bs).pCfValue = s.pCfValue := rfl

@[simp] theorem storeBytes_pPayloadOff (s : State) (b : Buffer) (i : Nat) (bs : List Byte) :
    (s.storeBytes b i bs).pPayloadOff = s.pPayloadOff := rfl

@[simp] theorem storeBytes_pPayloadLen (s : State) (b : Buffer) (i : Nat) (bs : List Byte) :
    (s.storeBytes b i bs).pPayloadLen = s.pPayloadLen := rfl

@[simp] theorem storeBytes_pOptCount (s : State) (b : Buffer) (i : Nat) (bs : List Byte) :
    (s.storeBytes b i bs).pOptCount = s.pOptCount := rfl

@[simp] theorem storeBytes_pLastOptnum (s : State) (b : Buffer) (i : Nat) (bs : List Byte) :
    (s.storeBytes b i bs).pLastOptnum = s.pLastOptnum := rfl

@[simp] theorem storeBytes_respCode (s : State) (b : Buffer) (i : Nat) (bs : List Byte) :
    (s.storeBytes b i bs).respCode = s.respCode := rfl

@[simp] theorem storeBytes_bodyLen (s : State) (b : Buffer) (i : Nat) (bs : List Byte) :
    (s.storeBytes b i bs).bodyLen = s.bodyLen := rfl

@[simp] theorem storeBytes_txLen (s : State) (b : Buffer) (i : Nat) (bs : List Byte) :
    (s.storeBytes b i bs).txLen = s.txLen := rfl

@[simp] theorem storeBytes_mem (s : State) (b : Buffer) (i : Nat) (bs : List Byte) :
    (s.storeBytes b i bs).mem = Memory.store s.mem (b.base + i) bs := rfl

@[simp] theorem storeBytes_inflight (s : State) (b : Buffer) (i : Nat) (bs : List Byte) :
    (s.storeBytes b i bs).inflight = s.inflight := rfl

@[simp] theorem storeBytes_taint (s : State) (b : Buffer) (i : Nat) (bs : List Byte) :
    (s.storeBytes b i bs).taint = s.taint := rfl

@[simp] theorem storeBytes_scan (s : State) (b : Buffer) (i : Nat) (bs : List Byte) :
    (s.storeBytes b i bs).scan = s.scan := rfl

@[simp] theorem storeBytes_draws (s : State) (b : Buffer) (i : Nat) (bs : List Byte) :
    (s.storeBytes b i bs).draws = s.draws := rfl

@[simp] theorem storeBytes_inputs (s : State) (b : Buffer) (i : Nat) (bs : List Byte) :
    (s.storeBytes b i bs).inputs = s.inputs := rfl

@[simp] theorem storeBytes_busData (s : State) (b : Buffer) (i : Nat) (bs : List Byte) :
    (s.storeBytes b i bs).busData = s.busData := rfl

/-! ## drawBuffer -/

@[simp] theorem drawBuffer_params (s : State) (b : Buffer) :
    (s.drawBuffer b).params = s.params := rfl

@[simp] theorem drawBuffer_irqEn (s : State) (b : Buffer) :
    (s.drawBuffer b).irqEn = s.irqEn := rfl

@[simp] theorem drawBuffer_done (s : State) (b : Buffer) :
    (s.drawBuffer b).done = s.done := rfl

@[simp] theorem drawBuffer_overrun (s : State) (b : Buffer) :
    (s.drawBuffer b).overrun = s.overrun := rfl

@[simp] theorem drawBuffer_errInfo (s : State) (b : Buffer) :
    (s.drawBuffer b).errInfo = s.errInfo := rfl

@[simp] theorem drawBuffer_codecIn (s : State) (b : Buffer) :
    (s.drawBuffer b).codecIn = s.codecIn := rfl

@[simp] theorem drawBuffer_codecValIn (s : State) (b : Buffer) :
    (s.drawBuffer b).codecValIn = s.codecValIn := rfl

@[simp] theorem drawBuffer_codecOut (s : State) (b : Buffer) :
    (s.drawBuffer b).codecOut = s.codecOut := rfl

@[simp] theorem drawBuffer_codecEnc (s : State) (b : Buffer) :
    (s.drawBuffer b).codecEnc = s.codecEnc := rfl

@[simp] theorem drawBuffer_rxLen (s : State) (b : Buffer) :
    (s.drawBuffer b).rxLen = s.rxLen := rfl

@[simp] theorem drawBuffer_reqType (s : State) (b : Buffer) :
    (s.drawBuffer b).reqType = s.reqType := rfl

@[simp] theorem drawBuffer_reqTkl (s : State) (b : Buffer) :
    (s.drawBuffer b).reqTkl = s.reqTkl := rfl

@[simp] theorem drawBuffer_reqCode (s : State) (b : Buffer) :
    (s.drawBuffer b).reqCode = s.reqCode := rfl

@[simp] theorem drawBuffer_reqMid (s : State) (b : Buffer) :
    (s.drawBuffer b).reqMid = s.reqMid := rfl

@[simp] theorem drawBuffer_reqToken0 (s : State) (b : Buffer) :
    (s.drawBuffer b).reqToken0 = s.reqToken0 := rfl

@[simp] theorem drawBuffer_reqToken1 (s : State) (b : Buffer) :
    (s.drawBuffer b).reqToken1 = s.reqToken1 := rfl

@[simp] theorem drawBuffer_pFlags (s : State) (b : Buffer) :
    (s.drawBuffer b).pFlags = s.pFlags := rfl

@[simp] theorem drawBuffer_pPathLen (s : State) (b : Buffer) :
    (s.drawBuffer b).pPathLen = s.pPathLen := rfl

@[simp] theorem drawBuffer_pCfValue (s : State) (b : Buffer) :
    (s.drawBuffer b).pCfValue = s.pCfValue := rfl

@[simp] theorem drawBuffer_pPayloadOff (s : State) (b : Buffer) :
    (s.drawBuffer b).pPayloadOff = s.pPayloadOff := rfl

@[simp] theorem drawBuffer_pPayloadLen (s : State) (b : Buffer) :
    (s.drawBuffer b).pPayloadLen = s.pPayloadLen := rfl

@[simp] theorem drawBuffer_pOptCount (s : State) (b : Buffer) :
    (s.drawBuffer b).pOptCount = s.pOptCount := rfl

@[simp] theorem drawBuffer_pLastOptnum (s : State) (b : Buffer) :
    (s.drawBuffer b).pLastOptnum = s.pLastOptnum := rfl

@[simp] theorem drawBuffer_respCode (s : State) (b : Buffer) :
    (s.drawBuffer b).respCode = s.respCode := rfl

@[simp] theorem drawBuffer_bodyLen (s : State) (b : Buffer) :
    (s.drawBuffer b).bodyLen = s.bodyLen := rfl

@[simp] theorem drawBuffer_txLen (s : State) (b : Buffer) :
    (s.drawBuffer b).txLen = s.txLen := rfl

@[simp] theorem drawBuffer_mem (s : State) (b : Buffer) : (s.drawBuffer b).mem =
    s.mem.revalue b.base (b.base + b.cap s.params) (Config.drawByte s.draws) := rfl

@[simp] theorem drawBuffer_inflight (s : State) (b : Buffer) :
    (s.drawBuffer b).inflight = s.inflight := rfl

@[simp] theorem drawBuffer_taint (s : State) (b : Buffer) :
    (s.drawBuffer b).taint = s.taint := rfl

@[simp] theorem drawBuffer_scan (s : State) (b : Buffer) :
    (s.drawBuffer b).scan = s.scan := rfl

@[simp] theorem drawBuffer_draws (s : State) (b : Buffer) :
    (s.drawBuffer b).draws = s.draws := rfl

@[simp] theorem drawBuffer_inputs (s : State) (b : Buffer) :
    (s.drawBuffer b).inputs = s.inputs := rfl

@[simp] theorem drawBuffer_busData (s : State) (b : Buffer) :
    (s.drawBuffer b).busData = s.busData := rfl

/-! ## taintIf -/

@[simp] theorem taintIf_params (s : State) (isInput : Bool) :
    (s.taintIf isInput).params = s.params := rfl

@[simp] theorem taintIf_irqEn (s : State) (isInput : Bool) :
    (s.taintIf isInput).irqEn = s.irqEn := rfl

@[simp] theorem taintIf_done (s : State) (isInput : Bool) :
    (s.taintIf isInput).done = s.done := rfl

@[simp] theorem taintIf_overrun (s : State) (isInput : Bool) :
    (s.taintIf isInput).overrun = s.overrun := rfl

@[simp] theorem taintIf_errInfo (s : State) (isInput : Bool) :
    (s.taintIf isInput).errInfo = s.errInfo := rfl

@[simp] theorem taintIf_codecIn (s : State) (isInput : Bool) :
    (s.taintIf isInput).codecIn = s.codecIn := rfl

@[simp] theorem taintIf_codecValIn (s : State) (isInput : Bool) :
    (s.taintIf isInput).codecValIn = s.codecValIn := rfl

@[simp] theorem taintIf_codecOut (s : State) (isInput : Bool) :
    (s.taintIf isInput).codecOut = s.codecOut := rfl

@[simp] theorem taintIf_codecEnc (s : State) (isInput : Bool) :
    (s.taintIf isInput).codecEnc = s.codecEnc := rfl

@[simp] theorem taintIf_rxLen (s : State) (isInput : Bool) :
    (s.taintIf isInput).rxLen = s.rxLen := rfl

@[simp] theorem taintIf_reqType (s : State) (isInput : Bool) :
    (s.taintIf isInput).reqType = s.reqType := rfl

@[simp] theorem taintIf_reqTkl (s : State) (isInput : Bool) :
    (s.taintIf isInput).reqTkl = s.reqTkl := rfl

@[simp] theorem taintIf_reqCode (s : State) (isInput : Bool) :
    (s.taintIf isInput).reqCode = s.reqCode := rfl

@[simp] theorem taintIf_reqMid (s : State) (isInput : Bool) :
    (s.taintIf isInput).reqMid = s.reqMid := rfl

@[simp] theorem taintIf_reqToken0 (s : State) (isInput : Bool) :
    (s.taintIf isInput).reqToken0 = s.reqToken0 := rfl

@[simp] theorem taintIf_reqToken1 (s : State) (isInput : Bool) :
    (s.taintIf isInput).reqToken1 = s.reqToken1 := rfl

@[simp] theorem taintIf_pFlags (s : State) (isInput : Bool) :
    (s.taintIf isInput).pFlags = s.pFlags := rfl

@[simp] theorem taintIf_pPathLen (s : State) (isInput : Bool) :
    (s.taintIf isInput).pPathLen = s.pPathLen := rfl

@[simp] theorem taintIf_pCfValue (s : State) (isInput : Bool) :
    (s.taintIf isInput).pCfValue = s.pCfValue := rfl

@[simp] theorem taintIf_pPayloadOff (s : State) (isInput : Bool) :
    (s.taintIf isInput).pPayloadOff = s.pPayloadOff := rfl

@[simp] theorem taintIf_pPayloadLen (s : State) (isInput : Bool) :
    (s.taintIf isInput).pPayloadLen = s.pPayloadLen := rfl

@[simp] theorem taintIf_pOptCount (s : State) (isInput : Bool) :
    (s.taintIf isInput).pOptCount = s.pOptCount := rfl

@[simp] theorem taintIf_pLastOptnum (s : State) (isInput : Bool) :
    (s.taintIf isInput).pLastOptnum = s.pLastOptnum := rfl

@[simp] theorem taintIf_respCode (s : State) (isInput : Bool) :
    (s.taintIf isInput).respCode = s.respCode := rfl

@[simp] theorem taintIf_bodyLen (s : State) (isInput : Bool) :
    (s.taintIf isInput).bodyLen = s.bodyLen := rfl

@[simp] theorem taintIf_txLen (s : State) (isInput : Bool) :
    (s.taintIf isInput).txLen = s.txLen := rfl

@[simp] theorem taintIf_mem (s : State) (isInput : Bool) :
    (s.taintIf isInput).mem = s.mem := rfl

@[simp] theorem taintIf_inflight (s : State) (isInput : Bool) :
    (s.taintIf isInput).inflight = s.inflight := rfl

@[simp] theorem taintIf_taint (s : State) (isInput : Bool) :
    (s.taintIf isInput).taint = (s.taint || isInput) := rfl

@[simp] theorem taintIf_scan (s : State) (isInput : Bool) :
    (s.taintIf isInput).scan = s.scan := rfl

@[simp] theorem taintIf_draws (s : State) (isInput : Bool) :
    (s.taintIf isInput).draws = s.draws := rfl

@[simp] theorem taintIf_inputs (s : State) (isInput : Bool) :
    (s.taintIf isInput).inputs = s.inputs := rfl

@[simp] theorem taintIf_busData (s : State) (isInput : Bool) :
    (s.taintIf isInput).busData = s.busData := rfl

/-! ## startCommand -/

@[simp] theorem startCommand_params (s : State) (w : Word) :
    (State.startCommand w s).params = s.params := rfl

@[simp] theorem startCommand_irqEn (s : State) (w : Word) :
    (State.startCommand w s).irqEn = s.irqEn := rfl

@[simp] theorem startCommand_done (s : State) (w : Word) :
    (State.startCommand w s).done = false := rfl

@[simp] theorem startCommand_overrun (s : State) (w : Word) :
    (State.startCommand w s).overrun = s.overrun := rfl

@[simp] theorem startCommand_errInfo (s : State) (w : Word) :
    (State.startCommand w s).errInfo = Error.ok.info 0 := rfl

@[simp] theorem startCommand_codecIn (s : State) (w : Word) :
    (State.startCommand w s).codecIn = s.codecIn := rfl

@[simp] theorem startCommand_codecValIn (s : State) (w : Word) :
    (State.startCommand w s).codecValIn = s.codecValIn := rfl

@[simp] theorem startCommand_codecOut (s : State) (w : Word) :
    (State.startCommand w s).codecOut = s.codecOut := rfl

@[simp] theorem startCommand_codecEnc (s : State) (w : Word) :
    (State.startCommand w s).codecEnc = s.codecEnc := rfl

@[simp] theorem startCommand_rxLen (s : State) (w : Word) :
    (State.startCommand w s).rxLen = s.rxLen := rfl

@[simp] theorem startCommand_reqType (s : State) (w : Word) :
    (State.startCommand w s).reqType = s.reqType := rfl

@[simp] theorem startCommand_reqTkl (s : State) (w : Word) :
    (State.startCommand w s).reqTkl = s.reqTkl := rfl

@[simp] theorem startCommand_reqCode (s : State) (w : Word) :
    (State.startCommand w s).reqCode = s.reqCode := rfl

@[simp] theorem startCommand_reqMid (s : State) (w : Word) :
    (State.startCommand w s).reqMid = s.reqMid := rfl

@[simp] theorem startCommand_reqToken0 (s : State) (w : Word) :
    (State.startCommand w s).reqToken0 = s.reqToken0 := rfl

@[simp] theorem startCommand_reqToken1 (s : State) (w : Word) :
    (State.startCommand w s).reqToken1 = s.reqToken1 := rfl

@[simp] theorem startCommand_pFlags (s : State) (w : Word) :
    (State.startCommand w s).pFlags = s.pFlags := rfl

@[simp] theorem startCommand_pPathLen (s : State) (w : Word) :
    (State.startCommand w s).pPathLen = s.pPathLen := rfl

@[simp] theorem startCommand_pCfValue (s : State) (w : Word) :
    (State.startCommand w s).pCfValue = s.pCfValue := rfl

@[simp] theorem startCommand_pPayloadOff (s : State) (w : Word) :
    (State.startCommand w s).pPayloadOff = s.pPayloadOff := rfl

@[simp] theorem startCommand_pPayloadLen (s : State) (w : Word) :
    (State.startCommand w s).pPayloadLen = s.pPayloadLen := rfl

@[simp] theorem startCommand_pOptCount (s : State) (w : Word) :
    (State.startCommand w s).pOptCount = s.pOptCount := rfl

@[simp] theorem startCommand_pLastOptnum (s : State) (w : Word) :
    (State.startCommand w s).pLastOptnum = s.pLastOptnum := rfl

@[simp] theorem startCommand_respCode (s : State) (w : Word) :
    (State.startCommand w s).respCode = s.respCode := rfl

@[simp] theorem startCommand_bodyLen (s : State) (w : Word) :
    (State.startCommand w s).bodyLen = s.bodyLen := rfl

@[simp] theorem startCommand_txLen (s : State) (w : Word) :
    (State.startCommand w s).txLen = s.txLen := rfl

@[simp] theorem startCommand_mem (s : State) (w : Word) :
    (State.startCommand w s).mem = s.mem := rfl

@[simp] theorem startCommand_inflight (s : State) (w : Word) :
    (State.startCommand w s).inflight = some w := rfl

@[simp] theorem startCommand_taint (s : State) (w : Word) :
    (State.startCommand w s).taint = false := rfl

@[simp] theorem startCommand_scan (s : State) (w : Word) :
    (State.startCommand w s).scan = none := rfl

@[simp] theorem startCommand_draws (s : State) (w : Word) :
    (State.startCommand w s).draws = s.draws := rfl

@[simp] theorem startCommand_inputs (s : State) (w : Word) :
    (State.startCommand w s).inputs = s.inputs := rfl

@[simp] theorem startCommand_busData (s : State) (w : Word) :
    (State.startCommand w s).busData = s.busData := rfl

/-! ## acknowledge -/

@[simp] theorem acknowledge_params (s : State) (v : Word) :
    (State.acknowledge v s).params = s.params := rfl

@[simp] theorem acknowledge_irqEn (s : State) (v : Word) :
    (State.acknowledge v s).irqEn = s.irqEn := rfl

@[simp] theorem acknowledge_done (s : State) (v : Word) :
    (State.acknowledge v s).done = (s.done && !bitOf v 1) := rfl

@[simp] theorem acknowledge_overrun (s : State) (v : Word) :
    (State.acknowledge v s).overrun = (s.overrun && !bitOf v 3) := rfl

@[simp] theorem acknowledge_errInfo (s : State) (v : Word) :
    (State.acknowledge v s).errInfo = s.errInfo := rfl

@[simp] theorem acknowledge_codecIn (s : State) (v : Word) :
    (State.acknowledge v s).codecIn = s.codecIn := rfl

@[simp] theorem acknowledge_codecValIn (s : State) (v : Word) :
    (State.acknowledge v s).codecValIn = s.codecValIn := rfl

@[simp] theorem acknowledge_codecOut (s : State) (v : Word) :
    (State.acknowledge v s).codecOut = s.codecOut := rfl

@[simp] theorem acknowledge_codecEnc (s : State) (v : Word) :
    (State.acknowledge v s).codecEnc = s.codecEnc := rfl

@[simp] theorem acknowledge_rxLen (s : State) (v : Word) :
    (State.acknowledge v s).rxLen = s.rxLen := rfl

@[simp] theorem acknowledge_reqType (s : State) (v : Word) :
    (State.acknowledge v s).reqType = s.reqType := rfl

@[simp] theorem acknowledge_reqTkl (s : State) (v : Word) :
    (State.acknowledge v s).reqTkl = s.reqTkl := rfl

@[simp] theorem acknowledge_reqCode (s : State) (v : Word) :
    (State.acknowledge v s).reqCode = s.reqCode := rfl

@[simp] theorem acknowledge_reqMid (s : State) (v : Word) :
    (State.acknowledge v s).reqMid = s.reqMid := rfl

@[simp] theorem acknowledge_reqToken0 (s : State) (v : Word) :
    (State.acknowledge v s).reqToken0 = s.reqToken0 := rfl

@[simp] theorem acknowledge_reqToken1 (s : State) (v : Word) :
    (State.acknowledge v s).reqToken1 = s.reqToken1 := rfl

@[simp] theorem acknowledge_pFlags (s : State) (v : Word) :
    (State.acknowledge v s).pFlags = s.pFlags := rfl

@[simp] theorem acknowledge_pPathLen (s : State) (v : Word) :
    (State.acknowledge v s).pPathLen = s.pPathLen := rfl

@[simp] theorem acknowledge_pCfValue (s : State) (v : Word) :
    (State.acknowledge v s).pCfValue = s.pCfValue := rfl

@[simp] theorem acknowledge_pPayloadOff (s : State) (v : Word) :
    (State.acknowledge v s).pPayloadOff = s.pPayloadOff := rfl

@[simp] theorem acknowledge_pPayloadLen (s : State) (v : Word) :
    (State.acknowledge v s).pPayloadLen = s.pPayloadLen := rfl

@[simp] theorem acknowledge_pOptCount (s : State) (v : Word) :
    (State.acknowledge v s).pOptCount = s.pOptCount := rfl

@[simp] theorem acknowledge_pLastOptnum (s : State) (v : Word) :
    (State.acknowledge v s).pLastOptnum = s.pLastOptnum := rfl

@[simp] theorem acknowledge_respCode (s : State) (v : Word) :
    (State.acknowledge v s).respCode = s.respCode := rfl

@[simp] theorem acknowledge_bodyLen (s : State) (v : Word) :
    (State.acknowledge v s).bodyLen = s.bodyLen := rfl

@[simp] theorem acknowledge_txLen (s : State) (v : Word) :
    (State.acknowledge v s).txLen = s.txLen := rfl

@[simp] theorem acknowledge_mem (s : State) (v : Word) :
    (State.acknowledge v s).mem = s.mem := rfl

@[simp] theorem acknowledge_inflight (s : State) (v : Word) :
    (State.acknowledge v s).inflight = s.inflight := rfl

@[simp] theorem acknowledge_taint (s : State) (v : Word) :
    (State.acknowledge v s).taint = s.taint := rfl

@[simp] theorem acknowledge_scan (s : State) (v : Word) :
    (State.acknowledge v s).scan = s.scan := rfl

@[simp] theorem acknowledge_draws (s : State) (v : Word) :
    (State.acknowledge v s).draws = s.draws := rfl

@[simp] theorem acknowledge_inputs (s : State) (v : Word) :
    (State.acknowledge v s).inputs = s.inputs := rfl

@[simp] theorem acknowledge_busData (s : State) (v : Word) :
    (State.acknowledge v s).busData = s.busData := rfl

end Sys2Proof.Machine
end

