-- ==== Sys2Proof/Machine/HostProgram.lean ====
section
/-! DEFINITION. The notation for host programs (30_encoding.md R322): each line as the moves it stands
for. -/

namespace Sys2Proof.Machine

/-- A line of a host program (30_encoding.md R322). -/
inductive HostLine where
  /-- `WR <REG>, <v>`. -/
  | wr (r : Reg) (v : Word)
  /-- `RD <REG>`. -/
  | rd (r : Reg)
  /-- `EXPECT <REG>, <v>`: a read whose result must equal `v` (`HostLine.met`). -/
  | expect (r : Reg) (v : Word)
  /-- `CMD <MNEMONIC>`: a write of the opcode to `CMD`. -/
  | cmd (op : BitVec 4)
  /-- `WAIT`: reads of `STATUS` until `BUSY` is 0 and `DONE` is 1. The command completes after `polls`
  reads, which 70_reset_and_hazards.md R920 leaves free, and one more read sees it. -/
  | wait (polls : Nat)
  /-- `ACK`: `WR STATUS, 0x00000002`. -/
  | ack
  /-- `FILL <BUF>, b0 b1 ...`. -/
  | fill (b : Buffer) (bytes : List Byte)
  /-- `DUMP <BUF>, n`. -/
  | dump (b : Buffer) (n : Nat)
deriving DecidableEq, Repr

/-- The bus address of a register: the register bank begins at address 0 (20_memory.md R201). -/
def Reg.addr (r : Reg) : BitVec 20 := BitVec.ofNat 20 r.offset

/-- The bus address of word `w` of a buffer's window (20_memory.md R204). -/
def Buffer.wordAddr (b : Buffer) (w : Nat) : BitVec 20 := BitVec.ofNat 20 (b.base + 4 * w)

/-- How many words hold `n` bytes, `ceil(n/4)`. -/
def wordsFor (n : Nat) : Nat := (n + 3) / 4

/-- The word a `FILL` writes for word index `w`: the bytes in their lanes, 0 past the last one. -/
def fillWord (bytes : List Byte) (w : Nat) : Word :=
  ofLanes (bytes.getD (4 * w) 0) (bytes.getD (4 * w + 1) 0)
    (bytes.getD (4 * w + 2) 0) (bytes.getD (4 * w + 3) 0)

/-- The moves of a line. DESIGN CHOICE (log 13), unsafe: the completion that 70_reset_and_hazards.md R920
leaves open stands inside `WAIT`, so no list given here completes a command before its `WAIT`. -/
def HostLine.moves : HostLine → List Move
  | .wr r v => [.write r.addr v]
  | .rd r => [.read r.addr]
  | .expect r _ => [.read r.addr]
  | .cmd op => [.write Reg.cmd.addr (commandWord op 0)]
  | .wait polls =>
    List.replicate polls (.read Reg.status.addr) ++ [.complete, .read Reg.status.addr]
  | .ack => [.write Reg.status.addr 0x00000002]
  | .fill b bytes =>
    (List.range (wordsFor bytes.length)).map (fun w => .write (b.wordAddr w) (fillWord bytes w))
  | .dump b n => (List.range (wordsFor n)).map (fun w => .read (b.wordAddr w))

/-- Whether an `EXPECT` is met in the state right after its read. The other lines test nothing. -/
def HostLine.met (l : HostLine) (s : State) : Bool :=
  match l with
  | .expect _ v => decide (s.busData = v)
  | .wr _ _ | .rd _ | .cmd _ | .wait _ | .ack | .fill _ _ | .dump _ _ => true

/-- The moves of a program, in one of the interleavings that 70_reset_and_hazards.md R920 allows: a
command completes inside its `WAIT` or, when the program has none left, after its last line. DESIGN
CHOICE (log 13), unsafe; `step` itself takes any list of moves, and so every interleaving. -/
def programMoves (p : List HostLine) : List Move := p.flatMap HostLine.moves

end Sys2Proof.Machine
end

