-- ==== Sys2Proof/Machine/Message.lean ====
section
/-! DEFINITION. A datagram as a message (30_encoding.md R310, R313, R315, R317, R319): its fields, its
bytes, and what its options mean, written without reference to the parser. -/

namespace Sys2Proof.Machine

/-- One CoAP message (30_encoding.md R310). An option is its delta and its value. -/
structure Message where
  t : BitVec 2
  code : Byte
  mid : BitVec 16
  token : List Byte
  options : List (Nat × List Byte)
  payload : List Byte
deriving DecidableEq, Repr

/-- The token length field. -/
def Message.tkl (m : Message) : BitVec 4 := BitVec.ofNat 4 m.token.length

/-- The options in wire order (30_encoding.md R315). -/
def wireOptions (options : List (Nat × List Byte)) : List Byte :=
  options.flatMap (fun o => wireOption o.1 o.2)

/-- The bytes of a message (30_encoding.md R310, R311). -/
def Message.bytes (m : Message) : List Byte :=
  [headerByte m.t m.tkl, m.code, highByte m.mid, lowByte m.mid]
    ++ (m.token ++ (wireOptions m.options ++ wirePayload m.payload))

/-- The options with their numbers, the running sums of the deltas from `num` on (30_encoding.md
R319). -/
def numbered (num : Nat) : List (Nat × List Byte) → List (Nat × List Byte)
  | [] => []
  | (delta, value) :: rest => (num + delta, value) :: numbered (num + delta) rest

/-- The values of the options with a given number, in wire order. -/
def Message.valuesOf (m : Message) (number : Nat) : List (List Byte) :=
  ((numbered 0 m.options).filter (fun o => decide (o.1 = number))).map Prod.snd

/-- The Uri-Path segments joined by '/' (41_message_parser.md R508). -/
def joinSegments (segments : List (List Byte)) : List Byte := [0x2F].intercalate segments

/-- The joined path of a message. -/
def Message.path (m : Message) : List Byte := joinSegments (m.valuesOf 11)

/-- The Content-Format value: the last one wins, 0 if there is none (41_message_parser.md R507). -/
def Message.contentFormat (m : Message) : Nat := beNat ((m.valuesOf 12).getLastD [])

/-- The last running option number, the sum of the deltas (41_message_parser.md R513). -/
def Message.lastNumber (m : Message) : Nat := (m.options.map Prod.fst).sum

/-- The index of the first payload byte, or the length when there is none (41_message_parser.md
R506). -/
def Message.payloadOffset (m : Message) : Nat := m.bytes.length - m.payload.length

/-- A message that passes every check of PARSE (30_encoding.md R316, R321; 41_message_parser.md R501,
R507, R508). -/
def Message.legal (c : Params) (m : Message) : Prop :=
  m.token.length ≤ 8 ∧
  (∀ o ∈ m.options, o.1 ≤ maxExtValue ∧ o.2.length ≤ maxExtValue) ∧
  m.path.length ≤ c.pathCap.toNat ∧
  (∀ v ∈ m.valuesOf 12, v.length ≤ 4) ∧
  m.bytes.length ≤ c.rxCap.toNat

/-- What BUILD frames, as a message (42_message_builder.md R602 to R604). -/
def State.builtMessage (s : State) : Message :=
  { t := if s.reqType = 0 then 2 else 1
    code := s.respCode
    mid := s.reqMid
    token := slice s.tokenByte 0 s.reqTkl.toNat
    options := [(12, uintBytes s.params.textPlainCf)]
    payload := slice (s.readByte .body) 0 s.bodyLen.toNat }

/-- `RX[0..RX_LEN)` holds these bytes. -/
def State.rxHolds (s : State) (bs : List Byte) : Prop :=
  s.rxLen.toNat = bs.length ∧
  ∀ i < bs.length, Memory.get? s.mem (Buffer.rx.base + i) = bs[i]?

end Sys2Proof.Machine
end

