-- ==== Sys2Proof/Safety.lean ====
section
/-! DEFINITION. What counts as a safe run, the end of a run (70_reset_and_hazards.md R907), the host's
duties (R906, R910), and the invariant of the machine. -/

namespace Sys2Proof.Machine

/-- A step that is no fault and no refusal: the host made no access with a bus error
(60_exceptions.md R810). -/
def StepSafe (s : State) : Prop := ∃ t, step s = .next t

/-- `k` steps without a fault or a refusal. -/
def RunSafe (k : Nat) (s : State) : Prop := ∃ t, Sys2Proof.core.run k s = .next t

/-- The end of a run: the host has made its last access and `BUSY` = 0 (70_reset_and_hazards.md
R907). -/
def State.ended (s : State) : Bool := s.inputs.isEmpty && !s.busy

/-- When the host may read an output of the last command (70_reset_and_hazards.md R910): `BUSY` = 0 and
`DONE` = 1. -/
def State.outputsValid (s : State) : Bool := !s.busy && s.done

/-- The datagram to send after BUILD has completed with OK, and none after an error
(70_reset_and_hazards.md R906 (b), (c)). -/
def State.datagramToSend (s : State) : Option (List Byte) :=
  if s.outputsValid && !s.err then some (slice (s.readByte .tx) 0 s.txLen.toNat) else none

/-- Whether the next move is a reset: `rst`, or a `CTRL` write with `SOFT_RESET` set
(70_reset_and_hazards.md R900, R902). -/
def State.nextMoveResets (s : State) : Prop :=
  (∃ rest, s.inputs = .hardReset :: rest) ∨
  (∃ v rest, s.inputs = .write 0x00010 v :: rest ∧ bitOf v 0 = true)

/-- Every listed byte is a byte of a buffer below its capacity (20_memory.md R202). -/
def MemoryInside (c : Params) (m : Memory) : Prop :=
  ∀ cell ∈ m, ∃ b : Buffer, b.base ≤ cell.1 ∧ cell.1 < b.base + b.cap c

/-- What the scan of a running PARSE keeps once it is past the header (41_message_parser.md R511,
R512): the cursor stays inside the datagram, the path inside its capacity, and the counts small
enough for their registers. The weight says what the consumed bytes can have added to `num`. -/
structure Scan.Bounded (c : Params) (sc : Scan) : Prop where
  pastHeader : sc.phase ≠ .header
  notFailed : ∀ e pos, sc.phase ≠ .failed e pos
  inRx : sc.n ≤ c.rxCap.toNat
  cursor : sc.p ≤ sc.n
  tokenLength : sc.token.length = sc.tkl.toNat
  tokenMax : sc.tkl.toNat ≤ 8
  path : sc.path.length ≤ c.pathCap.toNat
  count : sc.count + 4 ≤ sc.p
  num : sc.num ≤ 21935 * (sc.p - 4)
  payload : sc.payOff + sc.payLen = sc.n
  inOption : ∀ hp h, sc.phase = .delta hp h → 4 ≤ hp ∧ hp + 1 = sc.p ∧ sc.count + 4 ≤ hp ∧
    sc.num ≤ 21935 * (hp - 4)
  inValue : ∀ hp h delta, sc.phase = .length hp h delta →
    4 ≤ hp ∧ hp + 1 ≤ sc.p ∧ sc.count + 4 ≤ hp ∧ sc.num + delta ≤ 21935 * (sc.p - 4)

/-- A failed scan carries an error, and a position other than 0 only with MalformedOption
(60_exceptions.md R802). -/
def Scan.FailedWell (sc : Scan) : Prop :=
  ∃ e pos, sc.phase = .failed e pos ∧ e ≠ .ok ∧ (e.code = 4 ∨ pos = 0)

/-- The scan is at its start, or has failed, or keeps its bounds. -/
def Scan.Ok (c : Params) (sc : Scan) : Prop :=
  sc = Scan.start sc.n ∨ sc.FailedWell ∨ sc.Bounded c

/-- The invariant of the machine. Every step keeps it, and reset has it. -/
structure Inv (s : State) : Prop where
  /-- 00_scope.md R9. -/
  params : s.params.wf
  /-- The canonical form of memory. -/
  memory : Memory.wf s.mem
  /-- 20_memory.md R202, R212. -/
  inside : MemoryInside s.params s.mem
  /-- "`BUSY` = 1 and `DONE` = 1 never hold together" (10_state.md R109). -/
  busyDone : ¬ (s.busy = true ∧ s.done = true)
  /-- The cursor exists only while PARSE runs (10_state.md R134). -/
  scanRuns : s.scan.isSome = true → s.running = some .parse
  /-- 41_message_parser.md R512. -/
  scanOk : ∀ sc, s.scan = some sc → sc.Ok s.params

end Sys2Proof.Machine
end

