-- ==== Sys2Proof/Certificates/Slice0/Obligations.lean ====
section
/-! DEFINITION. The statements about the model that the provers settle. Each docstring names the rule of
spec/ that a statement formalises. -/

open Sys2Proof Sys2Proof.Machine

/-! ## Resets -/

/-- 70_reset_and_hazards.md R900: what hardware reset leaves. -/
def Obligations.HardResetLeavesResetValues : Prop :=
  ∀ (s : State) (rest : List Move), s.inputs = .hardReset :: rest →
    ∃ t, step s = .next t ∧
      Reg.id.get t = 0x434F4150 ∧ Reg.hwrev.get t = 0x00000001 ∧
      Reg.cap0.get t = s.params.txCap ++ s.params.rxCap ∧
      Reg.cap1.get t = s.params.pathCap ++ s.params.bodyCap ∧
      (∀ r : Reg, r ∉ [Reg.id, .hwrev, .cap0, .cap1] → r.get t = 0) ∧
      t.inflight = none ∧ t.taint = false ∧ t.scan = none ∧
      (∀ a, Memory.get? t.mem a = none) ∧ t.irq = false

/-- 70_reset_and_hazards.md R902 and R901: what a soft reset leaves, in the buffers too. R901 makes the
buffer of an abandoned command unspecified; that its written bytes then hold one draw each and its
never-written bytes stay so is the model's reading (log 10). -/
def Obligations.SoftResetKeepsBuffers : Prop :=
  ∀ (s : State) (v : Word) (rest : List Move),
    s.inputs = .write 0x00010 v :: rest → v.getLsbD 0 = true →
    ∃ t, step s = .next t ∧
      Reg.id.get t = Reg.id.get s ∧ Reg.hwrev.get t = Reg.hwrev.get s ∧
      Reg.cap0.get t = Reg.cap0.get s ∧ Reg.cap1.get t = Reg.cap1.get s ∧
      (∀ r : Reg, r ∉ [Reg.id, .hwrev, .cap0, .cap1] → r.get t = 0) ∧
      t.inflight = none ∧ t.taint = false ∧ t.scan = none ∧ t.irq = false ∧
      (∀ i < 0x10000, Memory.get? t.mem (0x10000 + i) = Memory.get? s.mem (0x10000 + i)) ∧
      (∀ i < 0x10000, Memory.get? t.mem (0x30000 + i) = Memory.get? s.mem (0x30000 + i)) ∧
      (s.running ≠ some .build →
        ∀ i < 0x10000, Memory.get? t.mem (0x20000 + i) = Memory.get? s.mem (0x20000 + i)) ∧
      (s.running ≠ some .parse →
        ∀ i < 0x10000, Memory.get? t.mem (0x40000 + i) = Memory.get? s.mem (0x40000 + i)) ∧
      (s.running = some .build → ∀ i < s.params.txCap.toNat,
        Memory.get? t.mem (0x20000 + i) =
          (Memory.get? s.mem (0x20000 + i)).map
            (fun _ => Config.drawByte t.draws (0x20000 + i))) ∧
      (s.running = some .parse → ∀ i < s.params.pathCap.toNat,
        Memory.get? t.mem (0x40000 + i) =
          (Memory.get? s.mem (0x40000 + i)).map
            (fun _ => Config.drawByte t.draws (0x40000 + i)))

/-! ## The host's bus -/

/-- 20_memory.md R201, R203, R205, R211 and 60_exceptions.md R810: which bus accesses fault, that the
others complete, and that nothing else faults or is refused. -/
def Obligations.BusErrorsAreTheOnlyFaults : Prop :=
  (∀ (s : State) (m : Move) (addr : BitVec 20) (rest : List Move),
    (m = .read addr ∨ ∃ v, m = .write addr v) → s.inputs = m :: rest →
    (addr.toNat % 4 ≠ 0 → step s = .fault .busMisaligned) ∧
    (addr.toNat % 4 = 0 →
      (0x100 ≤ addr.toNat ∧ addr.toNat < 0x10000) ∨ 0x50000 ≤ addr.toNat →
      step s = .fault .busUnmapped) ∧
    (addr.toNat % 4 = 0 → ∀ b : Buffer,
      b.base + b.cap s.params ≤ addr.toNat → addr.toNat < b.base + 0x10000 →
      step s = .fault .busPastCapacity) ∧
    (addr.toNat % 4 = 0 →
      addr.toNat < 0x100 ∨ (∃ b : Buffer, b.base ≤ addr.toNat ∧
        addr.toNat < b.base + b.cap s.params) →
      ∃ t, step s = .next t)) ∧
  (∀ (s : State) (f : Fault), step s = .fault f →
    ∃ addr rest, s.inputs = .read addr :: rest ∨ ∃ v, s.inputs = .write addr v :: rest) ∧
  (∀ (s : State) (r : Refusal), step s ≠ .refused r)

/-- 20_memory.md R210: a bus read changes nothing but the word it returns (`inputs` and `draws` are the
model's own bookkeeping of the step). -/
def Obligations.BusReadsHaveNoSideEffects : Prop :=
  ∀ (s t : State) (addr : BitVec 20) (rest : List Move),
    s.inputs = .read addr :: rest → step s = .next t →
    t = { s with inputs := rest, draws := s.draws + 1, busData := t.busData }

/-- 10_state.md R101, R102, 20_memory.md R209 and 70_reset_and_hazards.md R912: the offset of every
register, what a read there returns, and that every other word of the bank is a hole that reads 0. -/
def Obligations.RegisterReadReturnsValueOrDraw : Prop :=
  let bank : List (Reg × BitVec 20) :=
    [(.id, 0x00000), (.hwrev, 0x00004), (.cap0, 0x00008), (.cap1, 0x0000C), (.ctrl, 0x00010),
     (.cmd, 0x00014), (.status, 0x00018), (.errInfo, 0x0001C), (.codecIn, 0x00020),
     (.codecValIn, 0x00024), (.codecOut, 0x00028), (.codecEnc, 0x0002C), (.rxLen, 0x00040),
     (.reqType, 0x00044), (.reqTkl, 0x00048)] ++
    [(.reqCode, 0x0004C), (.reqMid, 0x00050), (.reqToken0, 0x00054), (.reqToken1, 0x00058),
     (.pFlags, 0x00060), (.pPathLen, 0x00064), (.pCfValue, 0x00068), (.pPayloadOff, 0x0006C),
     (.pPayloadLen, 0x00070), (.pOptCount, 0x00074), (.pLastOptnum, 0x00078), (.respCode, 0x00080),
     (.bodyLen, 0x00084), (.txLen, 0x00088)]
  (∀ r : Reg, ∃ a, (r, a) ∈ bank) ∧
  (∀ p ∈ bank, p.1.addr = p.2 ∧
    ∀ (s : State) (rest : List Move), s.inputs = .read p.2 :: rest →
      ∃ t, step s = .next t ∧
        ((∃ i, s.running = some i ∧ p.1 ∈ outputRegs i) →
          t.busData = Config.drawWord t.draws p.2.toNat &&& p.1.fieldMask) ∧
        (¬ (∃ i, s.running = some i ∧ p.1 ∈ outputRegs i) → t.busData = p.1.get s)) ∧
  (∀ (s : State) (addr : BitVec 20) (rest : List Move),
    addr.toNat < 0x100 → addr.toNat % 4 = 0 → (∀ p ∈ bank, addr ≠ p.2) →
    s.inputs = .read addr :: rest → ∃ t, step s = .next t ∧ t.busData = 0)

/-- 20_memory.md R204, R205, R206 and 70_reset_and_hazards.md R912: what a buffer read returns, lane by
lane. A never-written byte and a byte of a running command's output are draws of the step. -/
def Obligations.BufferReadReturnsLanes : Prop :=
  ∀ (s : State) (b : Buffer) (w : Nat) (addr : BitVec 20) (rest : List Move),
    addr.toNat = b.base + 4 * w → 4 * w < b.cap s.params → s.inputs = .read addr :: rest →
    ∃ t, step s = .next t ∧ ∀ k < 4,
      (b.cap s.params ≤ 4 * w + k → t.busData.extractLsb' (8 * k) 8 = 0#8) ∧
      (4 * w + k < b.cap s.params → s.writesBufferNow b = false →
        t.busData.extractLsb' (8 * k) 8 =
          (Memory.get? s.mem (b.base + (4 * w + k))).getD
            (Config.drawByte t.draws (b.base + (4 * w + k)))) ∧
      (4 * w + k < b.cap s.params → s.writesBufferNow b = true →
        t.busData.extractLsb' (8 * k) 8 = Config.drawByte t.draws (b.base + (4 * w + k)))

/-- 20_memory.md R204, R205: a write to the RX or BODY window stores the lanes below the capacity, and
nothing else changes. -/
def Obligations.BufferWriteStoresLanes : Prop :=
  ∀ (s : State) (b : Buffer) (w : Nat) (addr : BitVec 20) (v : Word) (rest : List Move),
    b = .rx ∨ b = .body → addr.toNat = b.base + 4 * w → 4 * w < b.cap s.params →
    s.inputs = .write addr v :: rest →
    ∃ t, step s = .next t ∧
      (∀ k < 4, 4 * w + k < b.cap s.params →
        Memory.get? t.mem (b.base + (4 * w + k)) = some (v.extractLsb' (8 * k) 8)) ∧
      (∀ a, ¬ (b.base + 4 * w ≤ a ∧ a < b.base + 4 * w + 4 ∧ a < b.base + b.cap s.params) →
        Memory.get? t.mem a = Memory.get? s.mem a) ∧
      (∀ r : Reg, r.get t = r.get s) ∧ t.inflight = s.inflight ∧ t.scan = s.scan

/-- 10_state.md R101 and 20_memory.md R205, R209: writes to read-only registers, to holes and to the TX
and PATH windows are accepted and ignored. -/
def Obligations.ReadOnlyWritesAreIgnored : Prop :=
  ∀ (s : State) (addr : BitVec 20) (v : Word) (rest : List Move),
    s.inputs = .write addr v :: rest →
    ((∃ r ∈ [Reg.id, .hwrev, .cap0, .cap1, .errInfo, .codecOut, .codecEnc, .pFlags, .pPathLen,
        .pCfValue, .pPayloadOff, .pPayloadLen, .pOptCount, .pLastOptnum, .txLen], addr = r.addr) ∨
      (addr.toNat < 0x100 ∧ addr.toNat % 4 = 0 ∧ ∀ r : Reg, r.offset ≠ addr.toNat) ∨
      (∃ b w, (b = Buffer.tx ∨ b = .path) ∧ addr.toNat = b.base + 4 * w ∧
        4 * w < b.cap s.params)) →
    step s = .next (s.tick rest)

/-- 10_state.md R101 with the fields of R111, R112, R115 to R120, R128, R129: a write to a read-write
register keeps the field bits, and every other register and all of memory keep their values. -/
def Obligations.RegisterWriteKeepsFieldBits : Prop :=
  ∀ (s : State) (v : Word) (rest : List Move) (p : Reg × BitVec 20 × Word),
    p ∈ [(Reg.codecIn, (0x00020 : BitVec 20), (0x00FFFF3F : Word)), (.codecValIn, 0x00024, 0xFFFFFFFF),
      (.rxLen, 0x00040, 0x0000FFFF), (.reqType, 0x00044, 0x00000003),
      (.reqTkl, 0x00048, 0x0000000F), (.reqCode, 0x0004C, 0x000000FF),
      (.reqMid, 0x00050, 0x0000FFFF), (.reqToken0, 0x00054, 0xFFFFFFFF),
      (.reqToken1, 0x00058, 0xFFFFFFFF), (.respCode, 0x00080, 0x000000FF),
      (.bodyLen, 0x00084, 0x0000FFFF)] →
    s.inputs = .write p.2.1 v :: rest →
    ∃ t, step s = .next t ∧ p.1.get t = v &&& p.2.2 ∧
      (∀ r : Reg, r ≠ p.1 → r.get t = r.get s) ∧
      t.mem = s.mem ∧ t.inflight = s.inflight ∧ t.scan = s.scan

/-- 70_reset_and_hazards.md R911: a host write to an input of the running command sets `taint`, and a
write to anything else that is stored leaves it. -/
def Obligations.InputWritesTaint : Prop :=
  ∀ (s : State) (i : Instr) (v : Word) (rest : List Move), s.running = some i →
    (∀ r : Reg, r.hostWritable = true → s.inputs = .write r.addr v :: rest →
      ∃ t, step s = .next t ∧ (r ∈ inputRegs i → t.taint = true) ∧
        (r ∉ inputRegs i → t.taint = s.taint)) ∧
    (∀ (b : Buffer) (w : Nat) (addr : BitVec 20), b.hostWritable = true →
      addr.toNat = b.base + 4 * w → 4 * w < b.cap s.params → s.inputs = .write addr v :: rest →
      ∃ t, step s = .next t ∧ (b ∈ inputBuffers i → t.taint = true) ∧
        (b ∉ inputBuffers i → t.taint = s.taint))

/-! ## Command port, status and interrupt -/

/-- 45_command_control.md R700, start: an accepted `CMD` write. -/
def Obligations.CommandWriteStarts : Prop :=
  ∀ (s : State) (w : Word) (rest : List Move),
    s.inputs = .write 0x00014 w :: rest → s.busy = false →
    ∃ t, step s = .next t ∧ t.inflight = some w ∧ t.busy = true ∧ t.done = false ∧
      Reg.errInfo.get t = 0 ∧ t.err = false ∧ t.taint = false ∧ t.overrun = s.overrun ∧
      (∀ r : Reg, r ∉ [Reg.status, .errInfo] → r.get t = r.get s) ∧ t.mem = s.mem

/-- 45_command_control.md R701: a `CMD` write while `BUSY` = 1 is discarded, sets `OVERRUN` and changes
nothing else; and a step clears `OVERRUN` only by a write of 1 to it or a reset. -/
def Obligations.CommandWriteWhileBusyOverruns : Prop :=
  (∀ (s : State) (w : Word) (rest : List Move),
    s.inputs = .write 0x00014 w :: rest → s.busy = true →
    step s = .next { s.tick rest with overrun := true }) ∧
  (∀ s t : State, s.overrun = true → step s = .next t → t.overrun = true ∨
    (∃ v rest, s.inputs = .write 0x00018 v :: rest ∧ v.getLsbD 3 = true) ∨
    (∃ v rest, s.inputs = .write 0x00010 v :: rest ∧ v.getLsbD 0 = true) ∨
    (∃ rest, s.inputs = .hardReset :: rest))

/-- 45_command_control.md R706: what a `STATUS` write clears, and what it leaves; and while `BUSY` = 1
(in every state that has the invariant) `DONE` is already 0 and stays 0. -/
def Obligations.StatusWriteClearsDoneAndOverrun : Prop :=
  ∀ (s : State) (v : Word) (rest : List Move), s.inputs = .write 0x00018 v :: rest →
    ∃ t, step s = .next t ∧
      t.done = (s.done && !v.getLsbD 1) ∧ t.overrun = (s.overrun && !v.getLsbD 3) ∧
      t.busy = s.busy ∧ t.err = s.err ∧ t.errInfo = s.errInfo ∧
      t = { s.tick rest with done := t.done, overrun := t.overrun } ∧
      (Inv s → s.busy = true → s.done = false ∧ t.done = false)

/-- 10_state.md R109, R134 and 60_exceptions.md R820: the bits of `STATUS`, and the interrupt as a
function of `STATUS` and `CTRL`. -/
def Obligations.StatusBitsAndInterruptLevel : Prop :=
  ∀ s : State,
    ((Reg.status.get s).getLsbD 0 = true ↔ s.inflight ≠ none) ∧
    (Reg.status.get s).getLsbD 1 = s.done ∧ (Reg.status.get s).getLsbD 3 = s.overrun ∧
    ((Reg.status.get s).getLsbD 2 = true ↔ (Reg.errInfo.get s).extractLsb' 0 4 ≠ 0#4) ∧
    (Reg.status.get s).extractLsb' 4 28 = 0#28 ∧
    (s.irq = true ↔
      ((Reg.status.get s).getLsbD 1 = true ∧ (Reg.ctrl.get s).getLsbD 1 = true))

/-- 10_state.md R107 and 60_exceptions.md R820: a `CTRL` write without `SOFT_RESET` sets `IRQ_EN`, and
writing 0 to it takes `irq` low without touching `DONE`. -/
def Obligations.ControlWriteMasksInterrupt : Prop :=
  ∀ (s : State) (v : Word) (rest : List Move),
    s.inputs = .write 0x00010 v :: rest → v.getLsbD 0 = false →
    ∃ t, step s = .next t ∧ Reg.ctrl.get t = v &&& 0x00000002 ∧
      (v.getLsbD 1 = false → t.irq = false) ∧
      (∀ r : Reg, r ≠ .ctrl → r.get t = r.get s) ∧ t.mem = s.mem

/-! ## NOP and the illegal words -/

/-- 45_command_control.md R705: NOP writes `STATUS` and `ERR_INFO` only. -/
def Obligations.NopCompletes : Prop :=
  ∀ s : State, s.taint = false →
    exec .nop s = .next
      { s with errInfo := { code := 0, detail := 0, pos := 0 }
               inflight := none, done := true, scan := none }

/-- 45_command_control.md R703 and 30_encoding.md R302: every illegal word completes with
IllegalCommand, RESERVED_OPCODE before RESERVED_BITS, and writes nothing but `STATUS` and
`ERR_INFO`. It starts like any other command, and its completion raises `irq` when `IRQ_EN` = 1. -/
def Obligations.IllegalWordsComplete : Prop :=
  ∀ s : State, s.taint = false →
    let ends := fun (i : Instr) (detail : BitVec 8) => exec i s = .next
      { s with errInfo := { code := 6, detail := detail, pos := 0 }
               inflight := none, done := true, scan := none }
    (∀ op mbz, ends (.illegalReservedOpcode op mbz) 0x01) ∧
    (∀ op mbz, ends (.illegalReservedBits op mbz) 0x02) ∧
    (∀ w : Word, 5 ≤ w.toNat % 16 → ends (decodeCommand w) 0x01) ∧
    (∀ w : Word, w.toNat % 16 < 5 → 16 ≤ w.toNat → ends (decodeCommand w) 0x02) ∧
    (∀ (w : Word) (t : State), 5 ≤ w.toNat → exec (decodeCommand w) s = .next t →
      t.irq = s.irqEn) ∧
    (∀ (w : Word) (rest : List Move), 5 ≤ w.toNat → s.inputs = .write 0x00014 w :: rest →
      s.busy = false → ∃ t, step s = .next t ∧ t.inflight = some w ∧ t.done = false)

/-- 30_encoding.md R300 to R302, 45_command_control.md R702: the words that select a command, by
number; every other word is one of the two illegal classes. -/
def Obligations.EveryWordSelectsOneCommand : Prop :=
  ∀ w : Word,
    (w.toNat = 0 → decodeCommand w = .nop) ∧ (w.toNat = 1 → decodeCommand w = .decodeExt) ∧
    (w.toNat = 2 → decodeCommand w = .encodeExt) ∧ (w.toNat = 3 → decodeCommand w = .parse) ∧
    (w.toNat = 4 → decodeCommand w = .build) ∧
    (5 ≤ w.toNat → 5 ≤ w.toNat % 16 → decodeCommand w =
      .illegalReservedOpcode (BitVec.ofNat 4 w.toNat) (BitVec.ofNat 28 (w.toNat / 16))) ∧
    (5 ≤ w.toNat → w.toNat % 16 < 5 → decodeCommand w =
      .illegalReservedBits (BitVec.ofNat 4 w.toNat) (BitVec.ofNat 28 (w.toNat / 16)))

/-! ## The option codec -/

/-- 40_option_codec.md R410: DECODE_EXT, every case, and that it changes nothing but `CODEC_OUT`,
`STATUS` and `ERR_INFO`. -/
def Obligations.DecodeExtWritesResult : Prop :=
  ∀ s : State, s.taint = false →
    let n := s.codecIn.nibble.toNat
    let a := s.codecIn.count.toNat
    let ext8 := 13 + s.codecIn.ext0.toNat
    let ext16 := 269 + (256 * s.codecIn.ext0.toNat + s.codecIn.ext1.toNat)
    let ends := fun (value used code detail : Nat) => exec .decodeExt s = .next
      { s with
        codecOut := { value := BitVec.ofNat 17 value, used := BitVec.ofNat 2 used }
        errInfo := { code := BitVec.ofNat 4 code, detail := BitVec.ofNat 8 detail, pos := 0 }
        inflight := none, done := true, scan := none }
    (a = 3 → ends 0 0 6 0x05) ∧
    (a ≠ 3 → n = 15 → ends 0 0 4 0x09) ∧
    (n = 13 → a = 0 → ends 0 0 4 0x0A) ∧
    (n = 14 → a < 2 → ends 0 0 4 0x0A) ∧
    (a ≠ 3 → n ≤ 12 → ends n 0 0 0) ∧
    (n = 13 → 1 ≤ a → a ≤ 2 → ends ext8 1 0 0) ∧
    (n = 14 → a = 2 → ends ext16 2 0 0)

/-- 40_option_codec.md R411: ENCODE_EXT, every case, and that it changes nothing but `CODEC_ENC`,
`STATUS` and `ERR_INFO`. -/
def Obligations.EncodeExtWritesResult : Prop :=
  ∀ s : State, s.taint = false →
    let v := s.codecValIn.toNat
    let ends := fun (nibble len ext0 ext1 code detail : Nat) => exec .encodeExt s = .next
      { s with
        codecEnc := { nibble := BitVec.ofNat 4 nibble, count := BitVec.ofNat 2 len
                      ext0 := BitVec.ofNat 8 ext0, ext1 := BitVec.ofNat 8 ext1 }
        errInfo := { code := BitVec.ofNat 4 code, detail := BitVec.ofNat 8 detail, pos := 0 }
        inflight := none, done := true, scan := none }
    (v ≤ 12 → ends v 0 0 0 0 0) ∧
    (13 ≤ v → v ≤ 268 → ends 13 1 (v - 13) 0 0 0) ∧
    (269 ≤ v → v ≤ 65804 → ends 14 2 ((v - 269) / 256) ((v - 269) % 256) 0 0) ∧
    (65805 ≤ v → ends 0 0 0 0 7 0x01)

/-- 40_option_codec.md R402: the range, the widths and the nibbles of the two codec functions. -/
def Obligations.CodecFunctionsStayInRange : Prop :=
  (∀ (n : BitVec 4) (src : Nat → Byte) (p stop v next : Nat),
    nibbleDecode n src p stop = .ok v next → v ≤ 65804) ∧
  (∀ v, (∃ r, nibbleEncode v = some r) ↔ v ≤ 65804) ∧
  (∀ v n e, nibbleEncode v = some (n, e) → e.length = extlen n ∧ n ≠ 15) ∧
  (∀ (n n' : BitVec 4) (src src' : Nat → Byte) (p p' stop stop' v next next' : Nat),
    nibbleDecode n src p stop = .ok v next → nibbleDecode n' src' p' stop' = .ok v next' →
    n = n' ∧ slice src p (next - p) = slice src' p' (next' - p'))

/-- 40_option_codec.md R403: encoding and decoding are inverse. -/
def Obligations.CodecRoundTrips : Prop :=
  (∀ v n e, v ≤ 65804 → nibbleEncode v = some (n, e) →
    nibbleDecode n (extByte e) 0 e.length = .ok v e.length) ∧
  (∀ (n : BitVec 4) (src : Nat → Byte) (p stop v next : Nat),
    nibbleDecode n src p stop = .ok v next →
    nibbleEncode v = some (n, slice src p (next - p)))

/-- 40_option_codec.md R412: the result of ENCODE_EXT, copied into `CODEC_IN` as a word, decodes back. -/
def Obligations.EncodeThenDecodeCommandsRoundTrip : Prop :=
  ∀ s : State, s.taint = false → s.codecValIn.toNat ≤ 65804 →
    ∃ t u, exec .encodeExt s = .next t ∧ t.err = false ∧
      exec .decodeExt (Reg.codecIn.set (Reg.codecEnc.get t) t) = .next u ∧ u.err = false ∧
      u.codecOut.value.toNat = s.codecValIn.toNat ∧ u.codecOut.used = t.codecEnc.count

/-- 42_message_builder.md R604 and 30_encoding.md R320: `UintBytes` is the big-endian form without a
leading zero byte, at most 4 bytes. -/
def Obligations.UintBytesAreMinimal : Prop :=
  ∀ v : Word, beNat (uintBytes v) = v.toNat ∧ (uintBytes v).length ≤ 4 ∧
    (uintBytes v).head? ≠ some 0#8 ∧ (v = 0 → uintBytes v = [])

/-! ## BUILD -/

/-- 42_message_builder.md R600, R602, R603, R605, R606: a successful BUILD, its length, its bytes in
`TX`, and its frame. -/
def Obligations.BuildFramesResponse : Prop :=
  ∀ s : State, s.taint = false →
    let len := 4 + s.reqTkl.toNat + 1 + (uintBytes s.params.textPlainCf).length
      + (if 0 < s.bodyLen.toNat then 1 + s.bodyLen.toNat else 0)
    s.bodyLen.toNat ≤ s.params.bodyCap.toNat → s.reqTkl.toNat ≤ 8 → len ≤ s.params.txCap.toNat →
    ∃ t, exec .build s = .next t ∧
      t = { s with mem := t.mem, txLen := BitVec.ofNat 16 len
                   errInfo := { code := 0, detail := 0, pos := 0 }
                   inflight := none, done := true, scan := none } ∧
      t.txLen.toNat = len ∧ s.builtMessage.bytes.length = len ∧
      (∀ i < len, Memory.get? t.mem (0x20000 + i) = s.builtMessage.bytes[i]?) ∧
      (∀ a, ¬ (0x20000 ≤ a ∧ a < 0x20000 + len) → Memory.get? t.mem a = Memory.get? s.mem a) ∧
      Memory.get? t.mem 0x20000 =
        some (0x40#8 ||| ((if s.reqType = 0 then 2#8 else 1#8) <<< 4) ||| s.reqTkl.setWidth 8)

/-- 42_message_builder.md R601, R605, R606: every failure of BUILD, in order. `TX_LEN` is 0 and every
byte of `TX`, and everything else, is unchanged. -/
def Obligations.BuildFailuresLeaveTx : Prop :=
  ∀ s : State, s.taint = false →
    let len := 4 + s.reqTkl.toNat + 1 + (uintBytes s.params.textPlainCf).length
      + (if 0 < s.bodyLen.toNat then 1 + s.bodyLen.toNat else 0)
    let ends := fun (code detail : Nat) => exec .build s = .next
      { s with
        txLen := 0
        errInfo := { code := BitVec.ofNat 4 code, detail := BitVec.ofNat 8 detail, pos := 0 }
        inflight := none, done := true, scan := none }
    (s.params.bodyCap.toNat < s.bodyLen.toNat → ends 6 0x04) ∧
    (s.bodyLen.toNat ≤ s.params.bodyCap.toNat → 8 < s.reqTkl.toNat → ends 3 0x03) ∧
    (s.bodyLen.toNat ≤ s.params.bodyCap.toNat → s.reqTkl.toNat ≤ 8 →
      s.params.txCap.toNat < len → ends 5 0)

/-! ## PARSE -/

/-- 41_message_parser.md R501 and 60_exceptions.md R805: the framing checks in their order, each with
its code, its detail and position 0; and a datagram that ends exactly after its token passes. -/
def Obligations.ParseFramingChecks : Prop :=
  ∀ s : State, s.taint = false → s.scan = none →
    let n := s.rxLen.toNat
    let b0 := s.readByte .rx 0
    let ends := fun (code detail : Nat) => ∃ t, exec .parse s = .next t ∧
      t.errInfo = { code := BitVec.ofNat 4 code, detail := BitVec.ofNat 8 detail, pos := 0 } ∧
      t.err = true ∧ t.done = true ∧ t.busy = false ∧ t.pFlags.valid = false
    (s.params.rxCap.toNat < n → ends 6 0x03) ∧
    (n ≤ s.params.rxCap.toNat → n < 4 → ends 1 0) ∧
    (n ≤ s.params.rxCap.toNat → 4 ≤ n → b0.toNat / 64 ≠ 1 → ends 2 0) ∧
    (n ≤ s.params.rxCap.toNat → 4 ≤ n → b0.toNat / 64 = 1 → 8 < b0.toNat % 16 → ends 3 0x01) ∧
    (n ≤ s.params.rxCap.toNat → 4 ≤ n → b0.toNat / 64 = 1 → b0.toNat % 16 ≤ 8 →
      n < 4 + b0.toNat % 16 → ends 3 0x02) ∧
    (n ≤ s.params.rxCap.toNat → 4 ≤ n → b0.toNat / 64 = 1 → b0.toNat % 16 ≤ 8 →
      n = 4 + b0.toNat % 16 → ∃ t, exec .parse s = .next t ∧ t.err = false ∧ t.done = true)

/-- 41_message_parser.md R500, R503, R506 to R508, R510, R513: PARSE of any legal datagram extracts its
message: header, token, joined path, Content-Format, payload slice, option count and last number. -/
def Obligations.ParseExtractsLegalMessage : Prop :=
  ∀ (s : State) (m : Message), s.taint = false → s.scan = none → m.legal s.params →
    s.rxHolds m.bytes →
    ∃ t, exec .parse s = .next t ∧
      t.errInfo = { code := 0, detail := 0, pos := 0 } ∧ t.done = true ∧ t.busy = false ∧
      t.reqType = m.t ∧ t.reqTkl.toNat = m.token.length ∧ t.reqCode = m.code ∧ t.reqMid = m.mid ∧
      (∀ i < 8, t.tokenByte i = m.token.getD i 0) ∧
      t.pPathLen.toNat = m.path.length ∧
      (∀ i < m.path.length, Memory.get? t.mem (0x40000 + i) = m.path[i]?) ∧
      t.pCfValue.toNat = m.contentFormat ∧
      t.pPayloadOff.toNat = m.payloadOffset ∧ t.pPayloadLen.toNat = m.payload.length ∧
      t.pOptCount.toNat = m.options.length ∧ t.pLastOptnum.toNat = m.lastNumber ∧
      t.pFlags.valid = true ∧ t.pFlags.pathPresent = decide (m.valuesOf 11 ≠ []) ∧
      t.pFlags.cfPresent = decide (m.valuesOf 12 ≠ []) ∧
      t.pFlags.payloadPresent = decide (m.payload ≠ [])

/-- 41_message_parser.md R509, R510: PARSE always completes; `VALID` is 1 exactly without an error; and
the frame of PARSE: the registers and bytes that it never writes. The last clause, which `PATH` bytes
are written afterwards (those of before and those of the committed path), is the model's reading of
the `written` bits (log 4, log 10). The premise `Inv s` (a stated invariant) only rules out a hidden
scan that no run reaches (log 3). -/
def Obligations.ParseFrame : Prop :=
  ∀ s : State, Inv s → s.taint = false →
    ∃ t, exec .parse s = .next t ∧ t.done = true ∧ t.inflight = none ∧ t.scan = none ∧
      (t.pFlags.valid = true ↔ t.err = false) ∧
      (∀ r ∈ [Reg.id, .hwrev, .cap0, .cap1, .ctrl, .cmd, .codecIn, .codecValIn, .codecOut,
          .codecEnc, .rxLen, .respCode, .bodyLen, .txLen], r.get t = r.get s) ∧
      t.overrun = s.overrun ∧ t.taint = s.taint ∧
      (∀ a, ¬ (0x40000 ≤ a ∧ a < 0x40000 + s.params.pathCap.toNat) →
        Memory.get? t.mem a = Memory.get? s.mem a) ∧
      (∀ i < s.params.pathCap.toNat, (Memory.get? t.mem (0x40000 + i)).isSome =
        ((Memory.get? s.mem (0x40000 + i)).isSome ||
          (!t.err && decide (i < t.pPathLen.toNat))))

/-- 41_message_parser.md R511: the pass bound of the model is never reached unfinished, from any scan
and any bytes: PARSE always ends in a commit or a failure. -/
def Obligations.ParseTerminates : Prop :=
  ∀ (src : Nat → Byte) (rxCap pathCap : Nat) (sc : Scan),
    let final := (scanRun src rxCap pathCap (scanFuel sc.n) sc).phase
    final = .done ∨ ∃ e pos, final = .failed e pos

/-- 10_state.md R134 and 45_command_control.md R700: a hidden step of PARSE changes nothing but the
scan, and PARSE ends as it would have without it, when every byte of the datagram is written. -/
def Obligations.HiddenParseStepsAreInvisible : Prop :=
  ∀ (s : State) (rest : List Move), s.inputs = .scan :: rest → s.running = some .parse →
    (∀ i < s.theScan.n, ∃ b, Memory.get? s.mem (0x10000 + i) = some b) →
    ∃ t, step s = .next t ∧ t = { s.tick rest with scan := t.scan } ∧ t.finalScan = s.finalScan

/-- 10_state.md R136, 20_memory.md R212: PARSE depends on `RX_LEN` and the datagram bytes only. Two
states with the same parameters, length and datagram, at the same step number, end with the same
outputs whatever the rest of them holds; a `PATH` byte outside the path, where it is written in both
or in neither. That unspecified outputs are equal too is the model's choice: a draw is a function of
the step number and the place (log 5), held where a byte is written (log 10). -/
def Obligations.ParseDependsOnDatagramOnly : Prop :=
  ∀ s s' t t' : State, s.taint = false → s'.taint = false → s.scan = none → s'.scan = none →
    s.params = s'.params → s.rxLen = s'.rxLen → s.draws = s'.draws →
    (∀ i < s.rxLen.toNat, Memory.get? s.mem (0x10000 + i) = Memory.get? s'.mem (0x10000 + i)) →
    exec .parse s = .next t → exec .parse s' = .next t' →
    (∀ r ∈ outputRegs .parse, r.get t = r.get t') ∧
    (t.err = false → ∀ i < t.pPathLen.toNat,
      Memory.get? t.mem (0x40000 + i) = Memory.get? t'.mem (0x40000 + i)) ∧
    (∀ i < s.params.pathCap.toNat,
      (Memory.get? s.mem (0x40000 + i)).isSome = (Memory.get? s'.mem (0x40000 + i)).isSome →
      Memory.get? t.mem (0x40000 + i) = Memory.get? t'.mem (0x40000 + i))

/-- 42_message_builder.md R609: the framed response, copied into `RX`, parses back to what was built. -/
def Obligations.BuildThenParseRoundTrips : Prop :=
  ∀ s t u : State, s.taint = false → exec .build s = .next t → t.err = false →
    u.taint = false → u.scan = none → u.params = s.params → u.rxLen = t.txLen →
    t.txLen.toNat ≤ u.params.rxCap.toNat →
    (∀ i < t.txLen.toNat, Memory.get? u.mem (0x10000 + i) = Memory.get? t.mem (0x20000 + i)) →
    ∃ r, exec .parse u = .next r ∧ r.err = false ∧ r.pFlags.valid = true ∧
      r.reqMid = s.reqMid ∧ r.reqTkl = s.reqTkl ∧
      (∀ i < s.reqTkl.toNat, r.tokenByte i = s.tokenByte i) ∧
      r.reqType = (if s.reqType = 0 then 2 else 1) ∧ r.reqCode = s.respCode ∧
      r.pCfValue = s.params.textPlainCf ∧ r.pFlags.cfPresent = true ∧
      r.pOptCount = 1 ∧ r.pLastOptnum = 12 ∧
      (r.pFlags.payloadPresent = true ↔ 0 < s.bodyLen.toNat) ∧
      r.pPayloadLen = s.bodyLen ∧
      (∀ i < s.bodyLen.toNat, Memory.get? u.mem (0x10000 + (r.pPayloadOff.toNat + i)) =
        some (s.readByte .body i))

/-- 42_message_builder.md R609 (its last sentence), R602, R603: the response that BUILD frames in a state
`u` with the request registers of a successful PARSE echoes the request's token and message-id, byte
for byte, and is an ACK exactly when the request was a CON. -/
def Obligations.ResponseEchoesRequest : Prop :=
  ∀ s t u v : State, s.taint = false → s.scan = none → exec .parse s = .next t → t.err = false →
    u.taint = false → u.reqType = t.reqType → u.reqTkl = t.reqTkl → u.reqMid = t.reqMid →
    (∀ i < 8, u.tokenByte i = t.tokenByte i) →
    exec .build u = .next v → v.err = false →
    let rx := s.readByte .rx
    let tx := fun i => Memory.get? v.mem (0x20000 + i)
    t.reqTkl.toNat = (rx 0).toNat % 16 ∧
    (∀ i < t.reqTkl.toNat, tx (4 + i) = some (rx (4 + i))) ∧
    tx 2 = some (rx 2) ∧ tx 3 = some (rx 3) ∧
    (∃ b, tx 0 = some b ∧ b.toNat / 64 = 1 ∧ b.toNat % 16 = (rx 0).toNat % 16 ∧
      b.toNat / 16 % 4 = (if (rx 0).toNat / 16 % 4 = 0 then 2 else 1))

/-! ## The wire elements -/

/-- 10_state.md R134: no wire element changes anything but the hidden scan, and it does so only while
PARSE runs. This is the frame of all eleven. -/
def Obligations.WireElementsTouchOnlyTheScan : Prop :=
  ∀ (i : Instr) (s : State), i.position ≠ .command →
    ∃ t, exec i s = .next t ∧ t = { s with scan := t.scan } ∧
      (s.running ≠ some .parse → t = s)

/-- 30_encoding.md R311, R313 and 41_message_parser.md R501, R503: WIRE_HEADER at the start of a
datagram. -/
def Obligations.HeaderElementExtracts : Prop :=
  ∀ (s : State) (sc : Scan) (t : BitVec 2) (tkl : BitVec 4) (code : BitVec 8) (mid : BitVec 16),
    s.running = some .parse → s.theScan = sc → sc.phase = .header →
    (8 < tkl.toNat → exec (.wireHeader t tkl code mid) s = .next
      { s with scan := some { sc with phase := .failed .tklGt8 0 } }) ∧
    (tkl.toNat ≤ 8 → sc.n < 4 + tkl.toNat → exec (.wireHeader t tkl code mid) s = .next
      { s with scan := some { sc with phase := .failed .tokenTrunc 0 } }) ∧
    (tkl.toNat ≤ 8 → 4 + tkl.toNat ≤ sc.n → exec (.wireHeader t tkl code mid) s = .next
      { s with scan := some { sc with
          t := t, tkl := tkl, code := code, mid := mid
          token := (List.range tkl.toNat).map (fun i => s.readByte .rx (4 + i))
          p := 4 + tkl.toNat, phase := .option } })

/-- 41_message_parser.md R505 and R506: an option header byte is consumed; a marker ends the options, or
fails when it is the last byte. -/
def Obligations.OptionHeaderAndMarker : Prop :=
  ∀ (s : State) (sc : Scan) (dn ln : BitVec 4),
    s.running = some .parse → s.theScan = sc → sc.phase = .option →
    exec (.optHdr dn ln) s = .next
      { s with scan := some { sc with p := sc.p + 1, phase := .delta sc.p (dn ++ ln) } } ∧
    (sc.p + 1 = sc.n → exec .payloadMarker s = .next
      { s with scan := some { sc with phase := .failed .emptyPayload sc.p } }) ∧
    (sc.p + 1 < sc.n → exec .payloadMarker s = .next
      { s with scan := some { sc with
          payPresent := true, payOff := sc.p + 1, payLen := sc.n - sc.p - 1, phase := .done } })

/-- 30_encoding.md R316 and 41_message_parser.md R505 steps 2 and 4: the delta classes. -/
def Obligations.DeltaClassesDecode : Prop :=
  ∀ (s : State) (sc : Scan) (dn ln : BitVec 4) (hp : Nat) (h : Byte),
    s.running = some .parse → s.theScan = sc → sc.phase = .delta hp h →
    let e0 := (s.readByte .rx sc.p).toNat
    let e1 := (s.readByte .rx (sc.p + 1)).toNat
    (dn.toNat ≤ 12 → exec (.optDeltaLit dn ln) s = .next
      { s with scan := some { sc with phase := .length hp (dn ++ ln) dn.toNat } }) ∧
    (sc.p + 1 ≤ sc.n → exec (.optDeltaExt8 ln) s = .next
      { s with scan := some { sc with
          p := sc.p + 1, phase := .length hp (13#4 ++ ln) (13 + e0) } }) ∧
    (sc.n < sc.p + 1 → exec (.optDeltaExt8 ln) s = .next
      { s with scan := some { sc with phase := .failed .deltaExtTrunc hp } }) ∧
    (sc.p + 2 ≤ sc.n → exec (.optDeltaExt16 ln) s = .next
      { s with scan := some { sc with
          p := sc.p + 2, phase := .length hp (14#4 ++ ln) (269 + (256 * e0 + e1)) } }) ∧
    (sc.n < sc.p + 2 → exec (.optDeltaExt16 ln) s = .next
      { s with scan := some { sc with phase := .failed .deltaExtTrunc hp } }) ∧
    exec (.optDeltaReserved ln) s = .next
      { s with scan := some { sc with phase := .failed .deltaReserved hp } } ∧
    exec (.optLenReserved dn) s = .next
      { s with scan := some { sc with phase := .failed .lengthReserved hp } }

/-- 30_encoding.md R316 and 41_message_parser.md R505 step 5: the length classes, as the option value of
the decoded length (`scanValue`, which the next two statements describe). -/
def Obligations.LengthClassesDecode : Prop :=
  ∀ (s : State) (sc : Scan) (dn ln : BitVec 4) (hp delta : Nat) (h : Byte),
    s.running = some .parse → s.theScan = sc → sc.phase = .length hp h delta →
    let e0 := (s.readByte .rx sc.p).toNat
    let e1 := (s.readByte .rx (sc.p + 1)).toNat
    let value := fun (len used : Nat) => some (scanValue (s.readByte .rx) s.params.pathCap.toNat
      hp delta len { sc with p := sc.p + used })
    (ln.toNat ≤ 12 → exec (.optLenLit dn ln) s = .next { s with scan := value ln.toNat 0 }) ∧
    (sc.p + 1 ≤ sc.n →
      exec (.optLenExt8 dn) s = .next { s with scan := value (13 + e0) 1 }) ∧
    (sc.n < sc.p + 1 → exec (.optLenExt8 dn) s = .next
      { s with scan := some { sc with phase := .failed .lengthExtTrunc hp } }) ∧
    (sc.p + 2 ≤ sc.n →
      exec (.optLenExt16 dn) s = .next { s with scan := value (269 + (256 * e0 + e1)) 2 }) ∧
    (sc.n < sc.p + 2 → exec (.optLenExt16 dn) s = .next
      { s with scan := some { sc with phase := .failed .lengthExtTrunc hp } }) ∧
    exec (.optLenReserved dn) s = .next
      { s with scan := some { sc with phase := .failed .lengthReserved hp } }

/-- 41_message_parser.md R502, R505 step 6, R507: an option value that is no Uri-Path: overrun, Content-
Format, or skipped with its delta still counted. -/
def Obligations.OptionValueInterpreted : Prop :=
  ∀ (src : Nat → Byte) (pathCap hp delta len : Nat) (sc : Scan),
    let v := (List.range len).map (fun i => src (sc.p + i))
    let r := scanValue src pathCap hp delta len sc
    (sc.n < sc.p + len → r = { sc with phase := .failed .valueOverrun hp }) ∧
    (sc.p + len ≤ sc.n →
      r.num = sc.num + delta ∧ r.count = sc.count + 1 ∧
      (sc.num + delta ≠ 11 → sc.num + delta ≠ 12 → r = { sc with
        num := sc.num + delta, count := sc.count + 1, p := sc.p + len, phase := .option }) ∧
      (sc.num + delta = 12 → 4 < len → r.phase = .failed .cfTooLong hp) ∧
      (sc.num + delta = 12 → len ≤ 4 → r = { sc with
        num := 12, count := sc.count + 1, p := sc.p + len, phase := .option
        cfPresent := true, cf := BitVec.ofNat 32 (beNat v) }))

/-- 41_message_parser.md R508: a Uri-Path value joins the path with a '/' between segments, or overflows
`PATH_CAP`. -/
def Obligations.UriPathSegmentsJoin : Prop :=
  ∀ (src : Nat → Byte) (pathCap hp delta len : Nat) (sc : Scan),
    let v := (List.range len).map (fun i => src (sc.p + i))
    let need := len + (if sc.pathPresent then 1 else 0)
    let r := scanValue src pathCap hp delta len sc
    sc.p + len ≤ sc.n → sc.num + delta = 11 →
    (pathCap < sc.path.length + need → r.phase = .failed .pathOverflow hp) ∧
    (sc.path.length + need ≤ pathCap → r = { sc with
      num := 11, count := sc.count + 1, p := sc.p + len, phase := .option, pathPresent := true
      path := sc.path ++ (if sc.pathPresent then [0x2F#8] else []) ++ v })

/-! ## Errors and hazards of every command -/

/-- 60_exceptions.md R801: an untainted command records no (code, detail) pair outside the table, and a
position other than 0 only with MalformedOption of PARSE (R802). The premise `Inv s` only rules out a
hidden scan that no run reaches. -/
def Obligations.OnlyListedErrorsAreRecorded : Prop :=
  ∀ (i : Instr) (s t : State), Inv s → i.position = .command → s.taint = false →
    exec i s = .next t →
    ((t.errInfo.code.toNat, t.errInfo.detail.toNat) ∈ [(0, 0), (1, 0), (2, 0), (3, 1), (3, 2),
      (3, 3), (4, 1), (4, 2), (4, 3), (4, 4), (4, 5), (4, 6), (4, 7), (4, 8), (4, 9), (4, 10),
      (5, 0), (6, 1), (6, 2), (6, 3), (6, 4), (6, 5), (7, 1)]) ∧
    (t.errInfo.pos ≠ 0 → i = .parse ∧ t.errInfo.code = 4)

/-- 70_reset_and_hazards.md R911: a tainted command still clears `BUSY` and sets `DONE`; every output is
a draw, `ERR_INFO` included (that it stands against R700's pseudocode is the model's reading, log 7);
everything else is unchanged. A never-written byte of an output buffer stays so, and its reads are
draws (log 10). -/
def Obligations.TaintedCommandLeavesDraws : Prop :=
  ∀ (i : Instr) (s : State), i.position = .command → s.taint = true →
    ∃ t, exec i s = .next t ∧ t.busy = false ∧ t.done = true ∧ t.overrun = s.overrun ∧
      (∀ r ∈ outputRegs i, r.get t = Config.drawWord s.draws r.offset &&& r.fieldMask) ∧
      (∀ b ∈ outputBuffers i, ∀ k < b.cap s.params,
        Memory.get? t.mem (b.base + k) =
          (Memory.get? s.mem (b.base + k)).map (fun _ => Config.drawByte s.draws (b.base + k))) ∧
      (∀ r : Reg, r ≠ .status → r ∉ outputRegs i → r.get t = r.get s) ∧
      (∀ a, (∀ b ∈ outputBuffers i, ¬ (b.base ≤ a ∧ a < b.base + b.cap s.params)) →
        Memory.get? t.mem a = Memory.get? s.mem a)

/-! ## Encoding -/

/-- Every well-formed instruction, at every operand value, decodes back from its bytes. -/
def Obligations.DecodeOfEncode : Prop :=
  ∀ (i : Instr) (rest : List Byte), i.wellFormed = true →
    decode i.position (encode i ++ rest) = .ok (i, rest)

/-- Whatever bytes decode are the encoding of the instruction they decode to, and it is well formed. -/
def Obligations.EncodeOfDecode : Prop :=
  ∀ (pos : Position) (bs rest : List Byte) (i : Instr),
    decode pos bs = .ok (i, rest) → i.wellFormed = true ∧ bs = encode i ++ rest

/-- Words written out from 30_encoding.md R301, R302, R311, R314, R316, R317. -/
def Obligations.WrittenOutWordsDecode : Prop :=
  decode .command [0x03, 0x00, 0x00, 0x00] = .ok (.parse, []) ∧
  decode .command [0x13, 0x00, 0x00, 0x00] = .ok (.illegalReservedBits 3 1, []) ∧
  decode .command [0x0F, 0x00, 0x00, 0x80] = .ok (.illegalReservedOpcode 15 0x8000000, []) ∧
  decode .header [0x42, 0x01, 0x12, 0x34] = .ok (.wireHeader 0 2 0x01 0x1234, []) ∧
  decode .header [0x82, 0x01, 0x12, 0x34] = .error .badVersion ∧
  decode .option [0xB6] = .ok (.optHdr 11 6, []) ∧
  decode .option [0xFF] = .ok (.payloadMarker, []) ∧
  decode .delta [0xE0] = .ok (.optDeltaExt16 0, []) ∧
  decode .delta [0xDF] = .ok (.optLenReserved 13, []) ∧
  decode .length [0x0D] = .ok (.optLenExt8 0, [])

/-! ## Steps -/

/-- 45_command_control.md R700 and R702: at a completion move, a step is `exec` of the decoded word in
flight, in the state whose move is taken off and whose step is numbered. -/
def Obligations.CompletionStepRunsDecodedCommand : Prop :=
  ∀ (s : State) (w : Word) (rest : List Move),
    s.inputs = .complete :: rest → s.inflight = some w →
    step s = exec (decodeCommand w) { s with inputs := rest, draws := s.draws + 1 }

/-- 41_message_parser.md R504: at a hidden move, a step is `exec` of the wire element that the decoder
reads at the cursor: four header bytes, one byte at an option position, or the kept header byte. -/
def Obligations.ScanStepRunsDecodedElement : Prop :=
  ∀ (s : State) (sc : Scan) (rest : List Move) (i : Instr) (more : List Byte),
    s.inputs = .scan :: rest → s.running = some .parse → s.theScan = sc →
    let u := { s with inputs := rest, draws := s.draws + 1 }
    let rx := u.readByte .rx
    (sc.phase = .header → 4 ≤ sc.n → sc.n ≤ s.params.rxCap.toNat →
      decode .header [rx 0, rx 1, rx 2, rx 3] = .ok (i, more) → step s = exec i u) ∧
    (sc.phase = .option → sc.p < sc.n →
      decode .option [rx sc.p] = .ok (i, more) → step s = exec i u) ∧
    (∀ hp h, sc.phase = .delta hp h → decode .delta [h] = .ok (i, more) → step s = exec i u) ∧
    (∀ hp h d, sc.phase = .length hp h d → decode .length [h] = .ok (i, more) →
      step s = exec i u)

/-- 70_reset_and_hazards.md R920: when no move is left, a started command completes, and the run has
then ended (R907). -/
def Obligations.StartedCommandCompletes : Prop :=
  ∀ s : State, s.inputs = [] → s.busy = true →
    ∃ t, step s = .next t ∧ t.done = true ∧ t.ended = true

/-- The step keeps the invariant of the machine (`Inv`). -/
def Obligations.StepKeepsInvariant : Prop :=
  ∀ s t : State, Inv s → step s = .next t → Inv t

/-- The reset state has the invariant, and so does the state after a hardware reset with any legal
parameters. -/
def Obligations.ResetHasInvariant : Prop :=
  Inv State.reset ∧ ∀ c : Params, c.wf → Inv (State.powerUp c)

/-- 10_state.md R103 to R106: the constant registers never change. -/
def Obligations.ConstantRegistersNeverChange : Prop :=
  ∀ s t : State, step s = .next t →
    t.params = s.params ∧ Reg.id.get t = 0x434F4150 ∧ Reg.hwrev.get t = 0x00000001 ∧
      (Reg.cap0.get t).extractLsb' 0 16 = s.params.rxCap ∧
      (Reg.cap0.get t).extractLsb' 16 16 = s.params.txCap ∧
      (Reg.cap1.get t).extractLsb' 0 16 = s.params.bodyCap ∧
      (Reg.cap1.get t).extractLsb' 16 16 = s.params.pathCap

/-- 10_state.md R113, R114, R121, R130: "Only DECODE_EXT writes" `CODEC_OUT`, only ENCODE_EXT
`CODEC_ENC`, only PARSE `P_FLAGS` (and the other `P_*`), only BUILD `TX_LEN`; a reset clears them. -/
def Obligations.ResultsChangeOnlyByTheirCommand : Prop :=
  ∀ s t : State, step s = .next t → ¬ s.nextMoveResets →
    (t.codecOut ≠ s.codecOut → s.running = some .decodeExt) ∧
    (t.codecEnc ≠ s.codecEnc → s.running = some .encodeExt) ∧
    ((∃ r ∈ [Reg.pFlags, .pPathLen, .pCfValue, .pPayloadOff, .pPayloadLen, .pOptCount,
      .pLastOptnum], r.get t ≠ r.get s) → s.running = some .parse) ∧
    (t.txLen ≠ s.txLen → s.running = some .build)

/-- 10_state.md R131 and 20_memory.md R212: "No command writes `RX` or `BODY`": a byte of their windows
changes only by a host write to its own word, or by a hardware reset; and a byte of `TX` or `PATH`
only by BUILD or PARSE (their completion, or a soft reset that abandons them, R901), or by a hardware
reset. -/
def Obligations.BuffersChangeOnlyByTheirWriters : Prop :=
  ∀ (s t : State) (a : Nat), Inv s → step s = .next t →
    Memory.get? t.mem a ≠ Memory.get? s.mem a → (∀ rest, s.inputs ≠ .hardReset :: rest) →
    (∃ addr v rest, s.inputs = .write addr v :: rest ∧ addr.toNat / 4 = a / 4 ∧
      (a / 0x10000 = 1 ∨ a / 0x10000 = 3)) ∨
    (a / 0x10000 = 2 ∧ s.running = some .build) ∨ (a / 0x10000 = 4 ∧ s.running = some .parse)

/-! ## Layouts, inputs and outputs -/

/-- 10_state.md R107, R108, R110, R111, R113, R114, R115 to R130: where the fields stand in the words of
the registers, and that the reserved bits read 0. -/
def Obligations.RegisterWordLayouts : Prop :=
  ∀ s : State,
    (let w := Reg.ctrl.get s
     w.getLsbD 0 = false ∧ w.getLsbD 1 = s.irqEn ∧ w.extractLsb' 2 30 = 0#30) ∧
    Reg.cmd.get s = 0 ∧
    (let w := Reg.errInfo.get s
     w.extractLsb' 0 4 = s.errInfo.code ∧ w.extractLsb' 4 4 = 0#4 ∧
      w.extractLsb' 8 8 = s.errInfo.detail ∧ w.extractLsb' 16 16 = s.errInfo.pos) ∧
    (∀ p ∈ [(Reg.codecIn, s.codecIn), (Reg.codecEnc, s.codecEnc)],
      let w := p.1.get s
      w.extractLsb' 0 4 = p.2.nibble ∧ w.extractLsb' 4 2 = p.2.count ∧ w.extractLsb' 6 2 = 0#2 ∧
      w.extractLsb' 8 8 = p.2.ext0 ∧ w.extractLsb' 16 8 = p.2.ext1 ∧ w.extractLsb' 24 8 = 0#8) ∧
    (let w := Reg.codecOut.get s
     w.extractLsb' 0 17 = s.codecOut.value ∧ w.extractLsb' 17 7 = 0#7 ∧
      w.extractLsb' 24 2 = s.codecOut.used ∧ w.extractLsb' 26 6 = 0#6) ∧
    (let w := Reg.pFlags.get s
     w.getLsbD 0 = s.pFlags.valid ∧ w.getLsbD 1 = s.pFlags.pathPresent ∧
      w.getLsbD 2 = s.pFlags.cfPresent ∧ w.getLsbD 3 = s.pFlags.payloadPresent ∧
      w.extractLsb' 4 28 = 0#28) ∧
    (∀ k < 4, s.tokenByte k = (Reg.reqToken0.get s).extractLsb' (8 * k) 8 ∧
      s.tokenByte (4 + k) = (Reg.reqToken1.get s).extractLsb' (8 * k) 8) ∧
    (∀ p ∈ [(Reg.codecValIn, s.codecValIn.toNat), (.rxLen, s.rxLen.toNat),
        (.reqType, s.reqType.toNat), (.reqTkl, s.reqTkl.toNat), (.reqCode, s.reqCode.toNat),
        (.reqMid, s.reqMid.toNat), (.pPathLen, s.pPathLen.toNat), (.pCfValue, s.pCfValue.toNat),
        (.pPayloadOff, s.pPayloadOff.toNat), (.pPayloadLen, s.pPayloadLen.toNat),
        (.pOptCount, s.pOptCount.toNat), (.pLastOptnum, s.pLastOptnum.toNat),
        (.respCode, s.respCode.toNat), (.bodyLen, s.bodyLen.toNat), (.txLen, s.txLen.toNat)],
      (p.1.get s).toNat = p.2)

/-- 10_state.md R136: the inputs and the outputs of each command, which the hazards use. `STATUS`, an
output of every command, keeps its meaning under both hazards (70_reset_and_hazards.md R911, R912) and
is not listed. -/
def Obligations.CommandInputsAndOutputs : Prop :=
  let is := fun (i : Instr) (ins : List Reg) (inb : List Buffer) (outs : List Reg)
      (outb : List Buffer) =>
    (∀ r, r ∈ inputRegs i ↔ r ∈ ins) ∧ (∀ b, b ∈ inputBuffers i ↔ b ∈ inb) ∧
    (∀ r, r ∈ outputRegs i ↔ r ∈ Reg.errInfo :: outs) ∧ (∀ b, b ∈ outputBuffers i ↔ b ∈ outb)
  is .nop [] [] [] [] ∧
  is .decodeExt [.codecIn] [] [.codecOut] [] ∧
  is .encodeExt [.codecValIn] [] [.codecEnc] [] ∧
  is .parse [.rxLen] [.rx] [.reqType, .reqTkl, .reqCode, .reqMid, .reqToken0, .reqToken1, .pFlags,
    .pPathLen, .pCfValue, .pPayloadOff, .pPayloadLen, .pOptCount, .pLastOptnum] [.path] ∧
  is .build [.reqType, .reqTkl, .reqMid, .reqToken0, .reqToken1, .respCode, .bodyLen] [.body]
    [.txLen] [.tx] ∧
  (∀ op mbz, is (.illegalReservedOpcode op mbz) [] [] [] []) ∧
  (∀ op mbz, is (.illegalReservedBits op mbz) [] [] [] [])

/-! ## The errors of PARSE, and the written bits -/

/-- 41_message_parser.md R509, 60_exceptions.md R800 to R803: what an untainted PARSE records. A scan
that ends in a failure gives exactly that failure's code, detail and position, `VALID` = 0 and draws
in the other result registers (log 5); one that ends well gives OK. -/
def Obligations.ParseRecordsItsFailure : Prop :=
  ∀ s : State, s.taint = false →
    (s.finalScan.phase = .done → ∃ t, exec .parse s = .next t ∧
      t.errInfo = { code := 0, detail := 0, pos := 0 } ∧ t.pFlags.valid = true) ∧
    (∀ row ∈ [(Error.tooShort, 1, 0x00), (.unsupportedVersion, 2, 0x00), (.tklGt8, 3, 0x01),
        (.tokenTrunc, 3, 0x02), (.deltaReserved, 4, 0x01), (.lengthReserved, 4, 0x02),
        (.deltaExtTrunc, 4, 0x03), (.lengthExtTrunc, 4, 0x04), (.valueOverrun, 4, 0x05),
        (.emptyPayload, 4, 0x06), (.pathOverflow, 4, 0x07), (.cfTooLong, 4, 0x08),
        (.rxLenGtCap, 6, 0x03)],
      ∀ pos, s.finalScan.phase = .failed row.1 pos →
      ∃ t, exec .parse s = .next t ∧
        t.errInfo = { code := BitVec.ofNat 4 row.2.1, detail := BitVec.ofNat 8 row.2.2
                      pos := BitVec.ofNat 16 pos } ∧
        t.err = true ∧ t.done = true ∧ t.busy = false ∧ t.pFlags.valid = false ∧
        (∀ r ∈ [Reg.reqType, .reqTkl, .reqCode, .reqMid, .reqToken0, .reqToken1, .pPathLen,
            .pCfValue, .pPayloadOff, .pPayloadLen, .pOptCount, .pLastOptnum],
          r.get t = Config.drawWord s.draws r.offset &&& r.fieldMask))

/-- 41_message_parser.md R505 to R508, 60_exceptions.md R802, R805: a datagram that goes on, after a
header, a token and options that pass every check, with one bad option (or a marker at its very end)
completes PARSE with MalformedOption, the detail of the first check that fails, and the index of that
option's header byte. -/
def Obligations.ParseReportsFirstBadOption : Prop :=
  ∀ (s : State) (m : Message) (bad : List Byte), s.taint = false → s.scan = none →
    m.legal s.params → m.payload = [] → m.bytes.length + bad.length ≤ s.params.rxCap.toNat →
    s.rxHolds (m.bytes ++ bad) →
    let ends := fun (detail : BitVec 8) => ∃ t, exec .parse s = .next t ∧
      t.errInfo = { code := 4, detail := detail, pos := BitVec.ofNat 16 m.bytes.length } ∧
      t.pFlags.valid = false ∧ t.done = true ∧ t.busy = false
    (∀ (ln : BitVec 4) (more : List Byte), ln ≠ 15 → bad = (15#4 ++ ln) :: more → ends 0x01) ∧
    (∀ (dn : BitVec 4) (more : List Byte), dn ≠ 15 → bad = (dn ++ 15#4) :: more → ends 0x02) ∧
    (∀ (ln : BitVec 4) (x : Byte), ln ≠ 15 →
      bad = [13#4 ++ ln] ∨ bad = [14#4 ++ ln] ∨ bad = [14#4 ++ ln, x] → ends 0x03) ∧
    (∀ (delta : Nat) (dn : BitVec 4) (de : List Byte) (x : Byte),
      nibbleEncode delta = some (dn, de) →
      bad = (dn ++ 13#4) :: de ∨ bad = (dn ++ 14#4) :: de ∨ bad = (dn ++ 14#4) :: (de ++ [x]) →
      ends 0x04) ∧
    (∀ (delta len : Nat) (dn ln : BitVec 4) (de le v : List Byte),
      nibbleEncode delta = some (dn, de) → nibbleEncode len = some (ln, le) → v.length < len →
      bad = (dn ++ ln) :: (de ++ (le ++ v)) → ends 0x05) ∧
    (bad = [0xFF] → ends 0x06) ∧
    (∀ (delta : Nat) (v more : List Byte), delta ≤ 65804 → v.length ≤ 65804 →
      bad = wireOption delta v ++ more → m.lastNumber + delta = 11 →
      s.params.pathCap.toNat <
        m.path.length + (if m.valuesOf 11 = [] then 0 else 1) + v.length → ends 0x07) ∧
    (∀ (delta : Nat) (v more : List Byte), delta ≤ 65804 → v.length ≤ 65804 →
      bad = wireOption delta v ++ more → m.lastNumber + delta = 12 → 4 < v.length → ends 0x08)

/-- 10_state.md R134 and 20_memory.md R206: a byte becomes written only by a host write to its word, by
the frame of an untainted BUILD, or by the path of an untainted PARSE that ends without an error; and
only a hardware reset makes a written byte never written. That a tainted or failed command, and an
abandoned one, writes no new byte is the model's reading (log 10). -/
def Obligations.WrittenBitsChangeOnlyByWritersOrReset : Prop :=
  ∀ (s t : State) (a : Nat), Inv s → step s = .next t →
    (Memory.get? s.mem a = none → Memory.get? t.mem a ≠ none →
      (∃ addr v rest, s.inputs = .write addr v :: rest ∧ addr.toNat / 4 = a / 4 ∧
        (a / 0x10000 = 1 ∨ a / 0x10000 = 3)) ∨
      (s.running = some .build ∧ s.taint = false ∧ t.done = true ∧ t.err = false ∧
        0x20000 ≤ a ∧ a < 0x20000 + t.txLen.toNat) ∨
      (s.running = some .parse ∧ s.taint = false ∧ t.done = true ∧ t.pFlags.valid = true ∧
        0x40000 ≤ a ∧ a < 0x40000 + t.pPathLen.toNat)) ∧
    (Memory.get? s.mem a ≠ none → Memory.get? t.mem a = none →
      ∃ rest, s.inputs = .hardReset :: rest)
end

