-- ==== Sys2Proof/Laws/Decode.lean ====
section
/-! SUPPORT. Bit fields and byte orders: taking a value apart and putting it together again. -/

namespace Sys2Proof

@[simp] theorem hiNibble_nibbleByte (dn ln : BitVec 4) : hiNibble (nibbleByte dn ln) = dn := by
  unfold hiNibble nibbleByte
  apply BitVec.eq_of_getLsbD_eq
  intro i hi
  rw [BitVec.getLsbD_extractLsb', BitVec.getLsbD_append]
  simp [hi]

@[simp] theorem loNibble_nibbleByte (dn ln : BitVec 4) : loNibble (nibbleByte dn ln) = ln := by
  unfold loNibble nibbleByte
  apply BitVec.eq_of_getLsbD_eq
  intro i hi
  rw [BitVec.getLsbD_extractLsb', BitVec.getLsbD_append]
  simp [hi]

theorem nibbleByte_nibbles (b : Byte) : nibbleByte (hiNibble b) (loNibble b) = b := by
  unfold hiNibble loNibble nibbleByte
  apply BitVec.eq_of_getLsbD_eq
  intro i hi
  rw [BitVec.getLsbD_append]
  simp only [BitVec.getLsbD_extractLsb']
  by_cases h : i < 4
  · simp [h]
  · simp [h, show i - 4 < 4 by omega, show 4 + (i - 4) = i by omega]

/-- Both nibbles are 15 in the marker byte only. -/
theorem nibbleByte_eq_marker (dn ln : BitVec 4) :
    nibbleByte dn ln = 0xFF ↔ dn = 15 ∧ ln = 15 := by
  constructor
  · intro h
    have h1 := congrArg hiNibble h
    have h2 := congrArg loNibble h
    simp only [hiNibble_nibbleByte, loNibble_nibbleByte] at h1 h2
    exact ⟨h1, h2⟩
  · rintro ⟨rfl, rfl⟩
    rfl

/-- The same, in the form to which `simp` brings the literal. -/
theorem nibbleByte_eq_255 (dn ln : BitVec 4) : nibbleByte dn ln = 255#8 ↔ dn = 15 ∧ ln = 15 :=
  nibbleByte_eq_marker dn ln

theorem ofLanes_lanes (w : Word) : ofLanes (lane w 0) (lane w 1) (lane w 2) (lane w 3) = w := by
  unfold ofLanes lane
  apply BitVec.eq_of_getLsbD_eq
  intro i hi
  simp only [BitVec.getLsbD_append, BitVec.getLsbD_extractLsb']
  interval_cases i <;> simp

theorem lane_ofLanes (b0 b1 b2 b3 : Byte) :
    lane (ofLanes b0 b1 b2 b3) 0 = b0 ∧ lane (ofLanes b0 b1 b2 b3) 1 = b1 ∧
      lane (ofLanes b0 b1 b2 b3) 2 = b2 ∧ lane (ofLanes b0 b1 b2 b3) 3 = b3 := by
  refine ⟨?_, ?_, ?_, ?_⟩ <;>
  · unfold ofLanes lane
    apply BitVec.eq_of_getLsbD_eq
    intro i hi
    rw [BitVec.getLsbD_extractLsb', BitVec.getLsbD_append, BitVec.getLsbD_append,
      BitVec.getLsbD_append]
    interval_cases i <;> simp

theorem wordBytes_ofLanes (b0 b1 b2 b3 : Byte) :
    wordBytes (ofLanes b0 b1 b2 b3) = [b0, b1, b2, b3] := by
  obtain ⟨h0, h1, h2, h3⟩ := lane_ofLanes b0 b1 b2 b3
  simp [wordBytes, h0, h1, h2, h3]

@[simp] theorem op_commandWord (op : BitVec 4) (mbz : BitVec 28) :
    (commandWord op mbz).extractLsb' 0 4 = op := by
  unfold commandWord
  apply BitVec.eq_of_getLsbD_eq
  intro i hi
  rw [BitVec.getLsbD_extractLsb', BitVec.getLsbD_append]
  simp [hi]

@[simp] theorem mbz_commandWord (op : BitVec 4) (mbz : BitVec 28) :
    (commandWord op mbz).extractLsb' 4 28 = mbz := by
  unfold commandWord
  apply BitVec.eq_of_getLsbD_eq
  intro i hi
  rw [BitVec.getLsbD_extractLsb', BitVec.getLsbD_append]
  simp [hi]

theorem commandWord_fields (w : Word) :
    commandWord (w.extractLsb' 0 4) (w.extractLsb' 4 28) = w := by
  unfold commandWord
  apply BitVec.eq_of_getLsbD_eq
  intro i hi
  rw [BitVec.getLsbD_append]
  simp only [BitVec.getLsbD_extractLsb']
  by_cases h : i < 4
  · simp [h]
  · simp [h, show i - 4 < 28 by omega, show 4 + (i - 4) = i by omega]

/-- `OP` is the word modulo 16. -/
theorem op_toNat (w : Word) : (w.extractLsb' 0 4).toNat = w.toNat % 16 := by
  simp [BitVec.extractLsb'_toNat]

/-- `MBZ` is the word divided by 16. -/
theorem mbz_toNat (w : Word) : (w.extractLsb' 4 28).toNat = w.toNat / 16 := by
  have := w.isLt
  simp only [BitVec.extractLsb'_toNat, Nat.shiftRight_eq_div_pow]
  omega

@[simp] theorem version_headerByte (t : BitVec 2) (tkl : BitVec 4) :
    (headerByte t tkl).extractLsb' 6 2 = 1#2 := by
  unfold headerByte
  apply BitVec.eq_of_getLsbD_eq
  intro i hi
  rw [BitVec.getLsbD_extractLsb', BitVec.getLsbD_append, BitVec.getLsbD_append]
  interval_cases i <;> simp

@[simp] theorem type_headerByte (t : BitVec 2) (tkl : BitVec 4) :
    (headerByte t tkl).extractLsb' 4 2 = t := by
  unfold headerByte
  apply BitVec.eq_of_getLsbD_eq
  intro i hi
  rw [BitVec.getLsbD_extractLsb', BitVec.getLsbD_append, BitVec.getLsbD_append]
  interval_cases i <;> simp

@[simp] theorem tkl_headerByte (t : BitVec 2) (tkl : BitVec 4) :
    loNibble (headerByte t tkl) = tkl := by
  unfold headerByte loNibble
  apply BitVec.eq_of_getLsbD_eq
  intro i hi
  rw [BitVec.getLsbD_extractLsb', BitVec.getLsbD_append]
  simp [hi]

theorem headerByte_fields (b : Byte) (h : b.extractLsb' 6 2 = 1#2) :
    headerByte (b.extractLsb' 4 2) (loNibble b) = b := by
  unfold headerByte loNibble
  rw [← h]
  apply BitVec.eq_of_getLsbD_eq
  intro i hi
  rw [BitVec.getLsbD_append, BitVec.getLsbD_append]
  simp only [BitVec.getLsbD_extractLsb']
  interval_cases i <;> simp

@[simp] theorem highByte_append (a b : Byte) : highByte (a ++ b) = a := by
  unfold highByte
  apply BitVec.eq_of_getLsbD_eq
  intro i hi
  rw [BitVec.getLsbD_extractLsb', BitVec.getLsbD_append]
  simp [hi]

@[simp] theorem lowByte_append (a b : Byte) : lowByte (a ++ b) = b := by
  unfold lowByte
  apply BitVec.eq_of_getLsbD_eq
  intro i hi
  rw [BitVec.getLsbD_extractLsb', BitVec.getLsbD_append]
  simp [hi]

theorem highByte_append_lowByte (v : BitVec 16) : (highByte v ++ lowByte v : BitVec 16) = v := by
  unfold highByte lowByte
  apply BitVec.eq_of_getLsbD_eq
  intro i hi
  rw [BitVec.getLsbD_append]
  simp only [BitVec.getLsbD_extractLsb']
  by_cases h : i < 8
  · simp [h]
  · simp [h, show i - 8 < 8 by omega, show 8 + (i - 8) = i by omega]

theorem be16_bytes (v : BitVec 16) : be16 (highByte v) (lowByte v) = v.toNat := by
  have := v.isLt
  simp only [be16, highByte, lowByte, BitVec.extractLsb'_toNat, Nat.shiftRight_eq_div_pow]
  omega

theorem be16_lt (a b : Byte) : be16 a b < 65536 := by
  have := a.isLt
  have := b.isLt
  unfold be16
  omega

theorem bytes_be16 (a b : Byte) : highByte (BitVec.ofNat 16 (be16 a b)) = a ∧
    lowByte (BitVec.ofNat 16 (be16 a b)) = b := by
  have := a.isLt
  have := b.isLt
  constructor <;> apply BitVec.eq_of_toNat_eq <;>
    simp only [be16, highByte, lowByte, BitVec.extractLsb'_toNat, BitVec.toNat_ofNat,
      Nat.shiftRight_eq_div_pow] <;> omega

/-- The four bytes that a command word is encoded in decode as that word. -/
theorem decode_wordBytes (w : Word) (rest : List Byte) :
    decode .command (wordBytes w ++ rest) = .ok (decodeCommand w, rest) := by
  simp [wordBytes, decode, ofLanes_lanes]

end Sys2Proof
end

