-- ==== Sys2Proof/Laws/Memory.lean ====
section
/-! SUPPORT. Memory: reading after a store, and the canonical form. -/

namespace Sys2Proof.Machine

@[simp] theorem slice_length (src : Nat → Byte) (p len : Nat) : (slice src p len).length = len := by
  induction len generalizing p with
  | zero => rfl
  | succ len ih => simp [slice, ih]

theorem slice_getElem? (src : Nat → Byte) (p len i : Nat) (h : i < len) :
    (slice src p len)[i]? = some (src (p + i)) := by
  induction len generalizing p i with
  | zero => omega
  | succ len ih =>
    cases i with
    | zero => simp [slice]
    | succ i =>
      have := ih (p + 1) i (by omega)
      simpa [slice, Nat.add_assoc, Nat.add_comm 1 i] using this

theorem slice_eq_map (src : Nat → Byte) (p len : Nat) :
    slice src p len = (List.range len).map (fun i => src (p + i)) := by
  apply List.ext_getElem?
  intro i
  by_cases h : i < len
  · rw [slice_getElem? src p len i h]; simp [h]
  · rw [List.getElem?_eq_none (by simpa using Nat.le_of_not_lt h),
      List.getElem?_eq_none (by simpa using Nat.le_of_not_lt h)]

/-- A slice depends on the bytes it covers only. -/
theorem slice_congr (src src' : Nat → Byte) (p len : Nat)
    (h : ∀ i, p ≤ i → i < p + len → src i = src' i) : slice src p len = slice src' p len := by
  induction len generalizing p with
  | zero => rfl
  | succ len ih =>
    simp only [slice]
    rw [h p (Nat.le_refl _) (by omega), ih (p + 1) (fun i h1 h2 => h i (by omega) (by omega))]

/-! ## Reading -/

@[simp] theorem get?_nil (a : Nat) : Memory.get? [] a = none := rfl

theorem get?_append (m m' : Memory) (a : Nat) :
    Memory.get? (m ++ m') a = (Memory.get? m a).or (Memory.get? m' a) := by
  induction m with
  | nil => simp
  | cons c m ih =>
    obtain ⟨k, b⟩ := c
    by_cases h : k = a <;> simp [Memory.get?, h, ih]

theorem get?_cells (a : Nat) (bs : List Byte) (x : Nat) :
    Memory.get? (cells a bs) x = if a ≤ x then bs[x - a]? else none := by
  induction bs generalizing a with
  | nil => simp [cells]
  | cons b bs ih =>
    simp only [cells, Memory.get?, ih]
    by_cases h : a = x
    · subst h; simp
    · by_cases h1 : a + 1 ≤ x
      · have h2 : x - a = (x - (a + 1)) + 1 := by omega
        simp [h, h1, h2, show a ≤ x by omega]
      · simp [h, h1, show ¬ a ≤ x by omega]

theorem get?_filter (f : Nat → Bool) (m : Memory) (a : Nat) :
    Memory.get? (m.filter (fun c => f c.1)) a = if f a then Memory.get? m a else none := by
  induction m with
  | nil => simp
  | cons c m ih =>
    obtain ⟨k, b⟩ := c
    by_cases hk : f k <;> by_cases h : k = a <;> simp_all [Memory.get?]

/-- Reading after a store: the stored bytes inside, the old ones outside. -/
theorem get?_store (m : Memory) (a : Nat) (bs : List Byte) (x : Nat) :
    Memory.get? (Memory.store m a bs) x =
      if a ≤ x ∧ x < a + bs.length then bs[x - a]? else Memory.get? m x := by
  have h1 := get?_filter (fun k => decide (k < a)) m x
  have h2 := get?_filter (fun k => decide (a + bs.length ≤ k)) m x
  simp only [Memory.store, get?_append, get?_cells, h1, h2]
  by_cases hlo : x < a
  · rw [if_neg (show ¬ (a ≤ x ∧ x < a + bs.length) by omega)]
    simp [hlo, show ¬ a ≤ x by omega, show ¬ a + bs.length ≤ x by omega]
  · by_cases hhi : x < a + bs.length
    · rw [if_pos (show a ≤ x ∧ x < a + bs.length by omega)]
      simp [hlo, show a ≤ x by omega, show ¬ a + bs.length ≤ x by omega]
    · rw [if_neg (show ¬ (a ≤ x ∧ x < a + bs.length) by omega)]
      rw [List.getElem?_eq_none (show bs.length ≤ x - a by omega)]
      simp [hlo, show a + bs.length ≤ x by omega]

theorem get?_store_inside (m : Memory) (a : Nat) (bs : List Byte) (i : Nat) (h : i < bs.length) :
    Memory.get? (Memory.store m a bs) (a + i) = bs[i]? := by
  rw [get?_store, if_pos (by omega)]; simp

theorem get?_store_outside (m : Memory) (a : Nat) (bs : List Byte) (x : Nat)
    (h : ¬ (a ≤ x ∧ x < a + bs.length)) :
    Memory.get? (Memory.store m a bs) x = Memory.get? m x := by
  rw [get?_store, if_neg h]

/-! ## The canonical form -/

theorem mem_cells {a : Nat} {bs : List Byte} {c : Host.Cell} (h : c ∈ cells a bs) :
    a ≤ c.1 ∧ c.1 < a + bs.length := by
  induction bs generalizing a with
  | nil => simp [cells] at h
  | cons b bs ih =>
    simp only [cells, List.mem_cons] at h
    rcases h with rfl | h
    · simp
    · have := ih h; simp only [List.length_cons]; omega

theorem cells_wf (a : Nat) (bs : List Byte) : Memory.wf (cells a bs) := by
  induction bs generalizing a with
  | nil => exact List.Pairwise.nil
  | cons b bs ih =>
    refine List.Pairwise.cons (fun c hc => ?_) (ih (a + 1))
    have := (mem_cells hc).1
    simp only; omega

/-- A store keeps the canonical form. -/
theorem store_wf (m : Memory) (a : Nat) (bs : List Byte) (h : Memory.wf m) :
    Memory.wf (Memory.store m a bs) := by
  unfold Memory.store Memory.wf
  rw [List.pairwise_append, List.pairwise_append]
  refine ⟨h.filter _, ⟨cells_wf a bs, h.filter _, ?_⟩, ?_⟩
  · intro x hx y hy
    have h1 := mem_cells hx
    have h2 := (List.mem_filter.mp hy).2
    simp only [decide_eq_true_eq] at h2
    omega
  · intro x hx y hy
    have h1 := (List.mem_filter.mp hx).2
    simp only [decide_eq_true_eq] at h1
    rcases List.mem_append.mp hy with hy | hy
    · have h2 := mem_cells hy; omega
    · have h2 := (List.mem_filter.mp hy).2
      simp only [decide_eq_true_eq] at h2
      omega

theorem map_key {f : Host.Cell → Host.Cell} (hf : ∀ c, (f c).1 = c.1) (m : Memory)
    (h : Memory.wf m) : Memory.wf (m.map f) :=
  List.Pairwise.map f (fun x y hxy => by rw [hf, hf]; exact hxy) h

theorem revalue_key (lo hi : Nat) (value : Nat → Byte) (c : Host.Cell) :
    (if lo ≤ c.1 ∧ c.1 < hi then (c.1, value c.1) else c).1 = c.1 := by split <;> rfl

/-- New values keep the canonical form. -/
theorem revalue_wf (m : Memory) (lo hi : Nat) (value : Nat → Byte) (h : Memory.wf m) :
    Memory.wf (m.revalue lo hi value) := map_key (revalue_key lo hi value) m h

/-- Reading after new values: only a written byte has one. -/
theorem get?_revalue (m : Memory) (lo hi : Nat) (value : Nat → Byte) (x : Nat) :
    Memory.get? (m.revalue lo hi value) x =
      if lo ≤ x ∧ x < hi then (Memory.get? m x).map (fun _ => value x) else Memory.get? m x := by
  induction m with
  | nil => simp [Memory.revalue]
  | cons c m ih =>
    obtain ⟨k, b⟩ := c
    have hc : Memory.revalue ((k, b) :: m) lo hi value =
        (if lo ≤ k ∧ k < hi then (k, value k) else (k, b)) :: Memory.revalue m lo hi value := rfl
    rw [hc]
    by_cases hk : k = x
    · subst hk
      by_cases hr : lo ≤ k ∧ k < hi <;> simp [Memory.get?, hr]
    · by_cases hr : lo ≤ k ∧ k < hi <;> simp [Memory.get?, hr, hk, ih]

/-- What a store can list: old cells, and cells of its own range. -/
theorem mem_store {m : Memory} {a : Nat} {bs : List Byte} {c : Host.Cell}
    (h : c ∈ Memory.store m a bs) : c ∈ m ∨ (a ≤ c.1 ∧ c.1 < a + bs.length) := by
  simp only [Memory.store, List.mem_append, List.mem_filter] at h
  rcases h with h | h | h
  · exact .inl h.1
  · exact .inr (mem_cells h)
  · exact .inl h.1

/-! ## Buffers -/

theorem get?_storeBytes (s : State) (b : Buffer) (i : Nat) (bs : List Byte) (x : Nat) :
    Memory.get? (s.storeBytes b i bs).mem x =
      if b.base + i ≤ x ∧ x < b.base + i + bs.length then bs[x - (b.base + i)]?
      else Memory.get? s.mem x := get?_store _ _ _ _

/-- A drawn buffer: every written byte below the capacity is a draw of the step, and nothing else
changes. -/
theorem get?_drawBuffer (s : State) (b : Buffer) (x : Nat) :
    Memory.get? (s.drawBuffer b).mem x =
      if b.base ≤ x ∧ x < b.base + b.cap s.params then
        (Memory.get? s.mem x).map (fun _ => Config.drawByte s.draws x)
      else Memory.get? s.mem x := get?_revalue _ _ _ _ _

theorem cap_lt (c : Params) (b : Buffer) : b.cap c < 0x10000 := by
  cases b <;> exact BitVec.isLt _

theorem base_eq (b : Buffer) : ∃ k, 1 ≤ k ∧ k ≤ 4 ∧ b.base = 0x10000 * k := by
  cases b
  · exact ⟨1, by omega, by omega, rfl⟩
  · exact ⟨2, by omega, by omega, rfl⟩
  · exact ⟨3, by omega, by omega, rfl⟩
  · exact ⟨4, by omega, by omega, rfl⟩

theorem readByte_of_get? {s : State} {b : Buffer} {i : Nat} {v : Byte}
    (h : Memory.get? s.mem (b.base + i) = some v) : s.readByte b i = v := by
  simp [State.readByte, h]

theorem readByte_eq_getD (s : State) (b : Buffer) (i : Nat) :
    s.readByte b i =
      (Memory.get? s.mem (b.base + i)).getD (Config.drawByte s.draws (b.base + i)) := by
  unfold State.readByte; cases Memory.get? s.mem (b.base + i) <;> rfl

end Sys2Proof.Machine
end

