-- ==== Sys2Proof/Laws/Ops.lean ====
section
/-! SUPPORT. What the shared operations do, said once: register writes, draws, completion, resets, and
that every memory operation keeps the canonical form. -/

namespace Sys2Proof.Machine


/-! ## Layouts -/

theorem ErrInfo.toWord_ofWord (v : Word) : (ErrInfo.ofWord v).toWord = v &&& 0xFFFFFF0F := by
  unfold ErrInfo.ofWord ErrInfo.toWord
  apply BitVec.eq_of_getLsbD_eq
  intro i hi
  simp only [BitVec.getLsbD_append, BitVec.getLsbD_extractLsb', BitVec.getLsbD_and]
  interval_cases i <;> simp

theorem CodecWord.toWord_ofWord (v : Word) : (CodecWord.ofWord v).toWord = v &&& 0x00FFFF3F := by
  unfold CodecWord.ofWord CodecWord.toWord
  apply BitVec.eq_of_getLsbD_eq
  intro i hi
  simp only [BitVec.getLsbD_append, BitVec.getLsbD_extractLsb', BitVec.getLsbD_and]
  interval_cases i <;> simp

theorem CodecOut.toWord_ofWord (v : Word) : (CodecOut.ofWord v).toWord = v &&& 0x0301FFFF := by
  unfold CodecOut.ofWord CodecOut.toWord
  apply BitVec.eq_of_getLsbD_eq
  intro i hi
  simp only [BitVec.getLsbD_append, BitVec.getLsbD_extractLsb', BitVec.getLsbD_and]
  interval_cases i <;> simp

theorem ParseFlags.toWord_ofWord (v : Word) :
    (ParseFlags.ofWord v).toWord = v &&& 0x0000000F := by
  unfold ParseFlags.ofWord ParseFlags.toWord bit bitOf
  apply BitVec.eq_of_getLsbD_eq
  intro i hi
  simp only [BitVec.getLsbD_append, BitVec.getLsbD_ofBool, BitVec.getLsbD_and]
  interval_cases i <;> simp

theorem setWidth_mask2 (v : Word) : (v.setWidth 2).setWidth 32 = v &&& 0x00000003 := by
  apply BitVec.eq_of_getLsbD_eq
  intro i hi
  simp only [BitVec.getLsbD_setWidth, BitVec.getLsbD_and]
  interval_cases i <;> simp

theorem setWidth_mask4 (v : Word) : (v.setWidth 4).setWidth 32 = v &&& 0x0000000F := by
  apply BitVec.eq_of_getLsbD_eq
  intro i hi
  simp only [BitVec.getLsbD_setWidth, BitVec.getLsbD_and]
  interval_cases i <;> simp

theorem setWidth_mask8 (v : Word) : (v.setWidth 8).setWidth 32 = v &&& 0x000000FF := by
  apply BitVec.eq_of_getLsbD_eq
  intro i hi
  simp only [BitVec.getLsbD_setWidth, BitVec.getLsbD_and]
  interval_cases i <;> simp

theorem setWidth_mask16 (v : Word) : (v.setWidth 16).setWidth 32 = v &&& 0x0000FFFF := by
  apply BitVec.eq_of_getLsbD_eq
  intro i hi
  simp only [BitVec.getLsbD_setWidth, BitVec.getLsbD_and]
  interval_cases i <;> simp

theorem and_ones (v : Word) : v = v &&& 0xFFFFFFFF := (BitVec.and_allOnes (x := v)).symm

/-! ## Reg.set and Reg.get -/

section
variable (r : Reg) (v : Word) (s : State)
@[simp] theorem set_params : (r.set v s).params = s.params := by cases r <;> rfl
@[simp] theorem set_irqEn : (r.set v s).irqEn = s.irqEn := by cases r <;> rfl
@[simp] theorem set_done : (r.set v s).done = s.done := by cases r <;> rfl
@[simp] theorem set_overrun : (r.set v s).overrun = s.overrun := by cases r <;> rfl
@[simp] theorem set_mem : (r.set v s).mem = s.mem := by cases r <;> rfl
@[simp] theorem set_inflight : (r.set v s).inflight = s.inflight := by cases r <;> rfl
@[simp] theorem set_taint : (r.set v s).taint = s.taint := by cases r <;> rfl
@[simp] theorem set_scan : (r.set v s).scan = s.scan := by cases r <;> rfl
@[simp] theorem set_draws : (r.set v s).draws = s.draws := by cases r <;> rfl
@[simp] theorem set_inputs : (r.set v s).inputs = s.inputs := by cases r <;> rfl
@[simp] theorem set_busData : (r.set v s).busData = s.busData := by cases r <;> rfl
end

/-- The registers that `Reg.set` writes. -/
def Reg.data (r : Reg) : Bool :=
  !decide (r ∈ [Reg.id, .hwrev, .cap0, .cap1, .ctrl, .cmd, .status])

/-- Reading a register back gives its field bits (10_state.md R101). -/
theorem get_set_self (r : Reg) (v : Word) (s : State) (h : r.data = true) :
    r.get (r.set v s) = v &&& r.fieldMask := by
  cases r with
  | id | hwrev | cap0 | cap1 | ctrl | cmd | status => exact absurd h (by decide)
  | errInfo => exact ErrInfo.toWord_ofWord v
  | codecIn | codecEnc => exact CodecWord.toWord_ofWord v
  | codecOut => exact CodecOut.toWord_ofWord v
  | pFlags => exact ParseFlags.toWord_ofWord v
  | reqType => exact setWidth_mask2 v
  | reqTkl => exact setWidth_mask4 v
  | reqCode | respCode => exact setWidth_mask8 v
  | rxLen | reqMid | pPathLen | pPayloadOff | pPayloadLen | pOptCount | bodyLen | txLen =>
    exact setWidth_mask16 v
  | codecValIn | reqToken0 | reqToken1 | pCfValue | pLastOptnum => exact and_ones v

/-- Writing a register leaves the others; only `ERR_INFO` shows in `STATUS` (10_state.md R109). -/
theorem get_set_ne (r q : Reg) (v : Word) (s : State) (h : q ≠ r) (h' : q = .status → r ≠ .errInfo) :
    q.get (r.set v s) = q.get s := by
  cases r <;> cases q <;> first
    | exact absurd rfl h
    | exact absurd rfl (h' rfl)
    | rfl

/-! ## Draws -/

/-- A view that no listed register's write changes is the same after the registers are drawn. -/
theorem foldl_drawReg_keeps {α : Type} (f : State → α) (rs : List Reg)
    (hf : ∀ r ∈ rs, ∀ v s, f (r.set v s) = f s) (s : State) :
    f (rs.foldl State.drawReg s) = f s := by
  induction rs generalizing s with
  | nil => rfl
  | cons r rs ih =>
    rw [List.foldl_cons, ih (fun q hq => hf q (List.mem_cons_of_mem _ hq)), State.drawReg,
      hf r List.mem_cons_self]

theorem foldl_drawReg_get_other (rs : List Reg) (q : Reg) (s : State) (h : q ∉ rs)
    (h' : q = .status → Reg.errInfo ∉ rs) : q.get (rs.foldl State.drawReg s) = q.get s :=
  foldl_drawReg_keeps q.get rs (fun r hr v t => get_set_ne r q v t (fun e => h (e ▸ hr))
    (fun e e' => h' e (e' ▸ hr))) s

/-- Every drawn register reads as its draw. -/
theorem foldl_drawReg_get (rs : List Reg) (q : Reg) (s : State) (h : q ∈ rs)
    (hd : ∀ r ∈ rs, r.data = true) :
    q.get (rs.foldl State.drawReg s) = Config.drawWord s.draws q.offset &&& q.fieldMask := by
  induction rs generalizing s with
  | nil => simp at h
  | cons r rs ih =>
    have hq : q.data = true := hd q h
    by_cases hm : q ∈ rs
    · rw [List.foldl_cons, ih _ hm (fun r hr => hd r (List.mem_cons_of_mem _ hr))]
      simp [State.drawReg]
    · have : q = r := by simpa [hm] using h
      subst this
      rw [List.foldl_cons, foldl_drawReg_get_other rs q _ hm
        (by rintro rfl; exact absurd hq (by decide)), State.drawReg, get_set_self _ _ _ hq]

theorem foldl_drawBuffer_keeps {α : Type} (f : State → α)
    (hf : ∀ (s : State) m, f { s with mem := m } = f s) (bs : List Buffer) (s : State) :
    f (bs.foldl State.drawBuffer s) = f s := by
  induction bs generalizing s with
  | nil => rfl
  | cons b bs ih => rw [List.foldl_cons, ih]; exact hf s _

/-- Every written byte of a drawn buffer is a draw, and no other byte changes. -/
theorem get?_foldl_drawBuffer (bs : List Buffer) (s : State) (x : Nat) :
    Memory.get? (bs.foldl State.drawBuffer s).mem x =
      if ∃ b ∈ bs, b.base ≤ x ∧ x < b.base + b.cap s.params then
        (Memory.get? s.mem x).map (fun _ => Config.drawByte s.draws x)
      else Memory.get? s.mem x := by
  induction bs generalizing s with
  | nil => simp
  | cons b bs ih =>
    rw [List.foldl_cons, ih, get?_drawBuffer]
    simp only [drawBuffer_params, drawBuffer_draws, List.mem_cons, exists_eq_or_imp]
    by_cases h1 : b.base ≤ x ∧ x < b.base + b.cap s.params <;>
      by_cases h2 : ∃ b ∈ bs, b.base ≤ x ∧ x < b.base + b.cap s.params <;>
      simp only [h1, h2, and_self, or_self, or_true, or_false, if_true, if_false,
        Option.map_map, Function.comp_def]

theorem reg_view_mem (r : Reg) (s : State) (m : Memory) : r.get { s with mem := m } = r.get s := by
  cases r <;> rfl

theorem outputRegs_data (i : Instr) : ∀ r ∈ outputRegs i, r.data = true := by
  cases i <;> simp only [outputRegs] <;> decide

theorem drawOutputs_keeps {α : Type} (f : State → α) (i : Instr)
    (hf : ∀ r ∈ outputRegs i, ∀ v s, f (r.set v s) = f s)
    (hm : ∀ (s : State) m, f { s with mem := m } = f s) (s : State) :
    f (s.drawOutputs i) = f s := by
  rw [State.drawOutputs, foldl_drawBuffer_keeps f hm, foldl_drawReg_keeps f _ hf]

/-- Everything the draws of a command's outputs do to the register bank (70_reset_and_hazards.md
R911). -/
theorem drawOutputs_get (i : Instr) (s : State) (r : Reg) (h : r ∈ outputRegs i) :
    (Reg.get r (s.drawOutputs i)) = Config.drawWord s.draws r.offset &&& r.fieldMask := by
  rw [State.drawOutputs, foldl_drawBuffer_keeps r.get (fun s m => reg_view_mem r s m)]
  exact foldl_drawReg_get _ r s h (outputRegs_data i)

theorem drawOutputs_get_other (i : Instr) (s : State) (r : Reg) (h : r ∉ outputRegs i)
    (h' : r ≠ .status) : (Reg.get r (s.drawOutputs i)) = r.get s := by
  rw [State.drawOutputs, foldl_drawBuffer_keeps r.get (fun s m => reg_view_mem r s m)]
  exact foldl_drawReg_get_other _ r s h (fun e => absurd e h')

section
variable (i : Instr) (s : State)
@[simp] theorem drawOutputs_params : (s.drawOutputs i).params = s.params :=
  drawOutputs_keeps State.params i (fun r _ v s => set_params r v s) (fun _ _ => rfl) s
@[simp] theorem drawOutputs_irqEn : (s.drawOutputs i).irqEn = s.irqEn :=
  drawOutputs_keeps State.irqEn i (fun r _ v s => set_irqEn r v s) (fun _ _ => rfl) s
@[simp] theorem drawOutputs_done : (s.drawOutputs i).done = s.done :=
  drawOutputs_keeps State.done i (fun r _ v s => set_done r v s) (fun _ _ => rfl) s
@[simp] theorem drawOutputs_overrun : (s.drawOutputs i).overrun = s.overrun :=
  drawOutputs_keeps State.overrun i (fun r _ v s => set_overrun r v s) (fun _ _ => rfl) s
@[simp] theorem drawOutputs_inflight : (s.drawOutputs i).inflight = s.inflight :=
  drawOutputs_keeps State.inflight i (fun r _ v s => set_inflight r v s) (fun _ _ => rfl) s
@[simp] theorem drawOutputs_taint : (s.drawOutputs i).taint = s.taint :=
  drawOutputs_keeps State.taint i (fun r _ v s => set_taint r v s) (fun _ _ => rfl) s
@[simp] theorem drawOutputs_scan : (s.drawOutputs i).scan = s.scan :=
  drawOutputs_keeps State.scan i (fun r _ v s => set_scan r v s) (fun _ _ => rfl) s
@[simp] theorem drawOutputs_draws : (s.drawOutputs i).draws = s.draws :=
  drawOutputs_keeps State.draws i (fun r _ v s => set_draws r v s) (fun _ _ => rfl) s
@[simp] theorem drawOutputs_inputs : (s.drawOutputs i).inputs = s.inputs :=
  drawOutputs_keeps State.inputs i (fun r _ v s => set_inputs r v s) (fun _ _ => rfl) s
@[simp] theorem drawOutputs_busData : (s.drawOutputs i).busData = s.busData :=
  drawOutputs_keeps State.busData i (fun r _ v s => set_busData r v s) (fun _ _ => rfl) s
end

/-- Everything the draws of a command's outputs do to memory (70_reset_and_hazards.md R911). -/
theorem get?_drawOutputs (i : Instr) (s : State) (x : Nat) :
    Memory.get? (s.drawOutputs i).mem x =
      if ∃ b ∈ outputBuffers i, b.base ≤ x ∧ x < b.base + b.cap s.params then
        (Memory.get? s.mem x).map (fun _ => Config.drawByte s.draws x)
      else Memory.get? s.mem x := by
  have hm := foldl_drawReg_keeps State.mem (outputRegs i) (fun r _ v s => set_mem r v s) s
  have hp := foldl_drawReg_keeps State.params (outputRegs i) (fun r _ v s => set_params r v s) s
  have hd := foldl_drawReg_keeps State.draws (outputRegs i) (fun r _ v s => set_draws r v s) s
  rw [State.drawOutputs, get?_foldl_drawBuffer, hm, hp, hd]

/-! ## STATUS and CTRL, bit by bit (10_state.md R107, R109) -/

theorem status_bits (o e d b : Bool) :
    ((((0#28 ++ bit o) ++ bit e) ++ bit d) ++ bit b : BitVec 32).getLsbD 0 = b ∧
    ((((0#28 ++ bit o) ++ bit e) ++ bit d) ++ bit b : BitVec 32).getLsbD 1 = d ∧
    ((((0#28 ++ bit o) ++ bit e) ++ bit d) ++ bit b : BitVec 32).getLsbD 2 = e ∧
    ((((0#28 ++ bit o) ++ bit e) ++ bit d) ++ bit b : BitVec 32).getLsbD 3 = o ∧
    ((((0#28 ++ bit o) ++ bit e) ++ bit d) ++ bit b : BitVec 32).extractLsb' 4 28 = 0#28 := by
  cases o <;> cases e <;> cases d <;> cases b <;> decide

theorem ctrl_bit (b : Bool) : ((0#30 ++ bit b) ++ 0#1 : BitVec 32).getLsbD 1 = b := by
  cases b <;> decide

theorem code_bits (e : ErrInfo) : e.toWord.extractLsb' 0 4 = e.code := by
  apply BitVec.eq_of_getLsbD_eq
  intro i hi
  simp only [ErrInfo.toWord, BitVec.getLsbD_extractLsb', BitVec.getLsbD_append]
  simp [hi]

theorem err_true (s : State) : s.err = true ↔ s.errInfo.code ≠ 0 := decide_eq_true_iff

theorem err_false (s : State) : s.err = false ↔ s.errInfo.code = 0 := by
  rw [← Bool.not_eq_true, err_true, not_not]

/-- Only OK has code 0 (60_exceptions.md R800). -/
theorem code_ne_zero (e : Error) (h : e ≠ .ok) : e.code ≠ 0 := by
  cases e <;> first | exact absurd rfl h | decide

/-! ## Resets (70_reset_and_hazards.md R900, R902) -/

/-- At reset every register but the constants reads 0. -/
theorem powerUp_zero (c : Params) (r : Reg) (hr : r ∉ [Reg.id, .hwrev, .cap0, .cap1]) :
    r.get (State.powerUp c) = 0 := by
  cases r with
  | id | hwrev | cap0 | cap1 => exact absurd (by decide) hr
  | ctrl => exact (by decide : (0#30 ++ bit false) ++ 0#1 = 0#32)
  | status =>
    exact (by decide : (((0#28 ++ bit false) ++ bit false) ++ bit false) ++ bit false = 0#32)
  | errInfo => exact (by decide : ErrInfo.toWord ⟨0, 0, 0⟩ = 0#32)
  | codecIn => exact (by decide : CodecWord.toWord ⟨0, 0, 0, 0⟩ = 0#32)
  | codecEnc => exact (by decide : CodecWord.toWord ⟨0, 0, 0, 0⟩ = 0#32)
  | codecOut => exact (by decide : CodecOut.toWord ⟨0, 0⟩ = 0#32)
  | pFlags => exact (by decide : ParseFlags.toWord ⟨false, false, false, false⟩ = 0#32)
  | cmd | codecValIn | rxLen | reqType | reqTkl | reqCode | reqMid | reqToken0 | reqToken1
  | pPathLen | pCfValue | pPayloadOff | pPayloadLen | pOptCount | pLastOptnum | respCode
  | bodyLen | txLen => rfl

theorem hardReset_get (s : State) (r : Reg) : r.get s.hardReset = r.get (State.powerUp s.params) := by
  cases r <;> rfl


theorem softReset_get (s : State) (r : Reg) : r.get s.softReset = r.get s.hardReset :=
  reg_view_mem r _ _

/-! ## Completion -/

/-- An untainted completion step records the outcome and nothing else (45_command_control.md R700). -/
theorem completion_untainted (i : Instr) (r : Result) (s : State) (h : s.taint = false) :
    State.completion i r s =
      { r.st with errInfo := r.err, inflight := none, done := true, scan := none } := by
  simp [State.completion, h]

/-- A tainted completion step leaves draws (70_reset_and_hazards.md R911). -/
theorem completion_tainted (i : Instr) (r : Result) (s : State) (h : s.taint = true) :
    State.completion i r s =
      { s.drawOutputs i with inflight := none, done := true, scan := none } := by
  simp [State.completion, h]

section
variable (i : Instr) (r : Result) (s : State)
@[simp] theorem completion_inflight : (State.completion i r s).inflight = none := rfl
@[simp] theorem completion_done : (State.completion i r s).done = true := rfl
@[simp] theorem completion_scan : (State.completion i r s).scan = none := rfl
@[simp] theorem complete_st : (complete s).st = s := rfl
@[simp] theorem raiseError_st (e : Error) (pos : Nat) : (raiseError e pos s).st = s := rfl
@[simp] theorem complete_err : (complete s).err = { code := 0, detail := 0, pos := 0 } := rfl
end

/-! ## Memory: canonical form and bounds -/

theorem drawBuffer_wf (s : State) (b : Buffer) (h : Memory.wf s.mem) :
    Memory.wf (s.drawBuffer b).mem := revalue_wf _ _ _ _ h

theorem foldl_drawBuffer_wf (bs : List Buffer) (s : State) (h : Memory.wf s.mem) :
    Memory.wf (bs.foldl State.drawBuffer s).mem := by
  induction bs generalizing s with
  | nil => exact h
  | cons b bs ih => exact ih _ (drawBuffer_wf s b h)

theorem drawOutputs_wf (i : Instr) (s : State) (h : Memory.wf s.mem) :
    Memory.wf (s.drawOutputs i).mem := by
  apply foldl_drawBuffer_wf
  rw [foldl_drawReg_keeps State.mem (outputRegs i) (fun r _ v s => set_mem r v s) s]
  exact h

theorem completion_wf (i : Instr) (r : Result) (s : State) (hs : Memory.wf s.mem)
    (hr : Memory.wf r.st.mem) : Memory.wf (State.completion i r s).mem := by
  unfold State.completion
  split
  · exact drawOutputs_wf i _ hs
  · exact hr

theorem hardReset_wf (s : State) : Memory.wf s.hardReset.mem := List.Pairwise.nil

theorem abandonBuffers_wf (s : State) (h : Memory.wf s.mem) :
    Memory.wf s.abandonBuffers.mem := by
  unfold State.abandonBuffers
  split
  · exact foldl_drawBuffer_wf _ _ h
  · exact h

theorem softReset_wf (s : State) (h : Memory.wf s.mem) : Memory.wf s.softReset.mem :=
  abandonBuffers_wf s h

theorem reset_memory_wf : Memory.wf State.reset.mem := List.Pairwise.nil

end Sys2Proof.Machine
end

