-- ==== Sys2Proof/Laws/Bus.lean ====
section
/-! SUPPORT. Where a bus address goes, and what a register write does (20_memory.md R201 to R205,
10_state.md R101). -/

namespace Sys2Proof.Machine

/-! ## The address decoder -/

theorem at?_offset (r : Reg) : Reg.at? r.offset = some r := by cases r <;> decide

theorem at?_some {a : Nat} {r : Reg} (h : Reg.at? a = some r) : r.offset = a := by
  have := List.find?_some h
  simpa using this

theorem at?_none {a : Nat} (h : Reg.at? a = none) (r : Reg) : r.offset ≠ a := by
  intro e; rw [← e, at?_offset] at h; cases h

theorem offset_bounds (r : Reg) : r.offset < 0x100 ∧ r.offset % 4 = 0 := by
  cases r <;> decide

theorem addr_toNat (r : Reg) : r.addr.toNat = r.offset := by
  have := (offset_bounds r).1
  simp only [Reg.addr, BitVec.toNat_ofNat]; omega

theorem resolve_reg (c : Params) (r : Reg) : resolve c r.addr = .ok (.reg r) := by
  have h := offset_bounds r
  simp only [resolve, addr_toNat, at?_offset]
  rw [if_neg (by omega), if_pos h.1]

theorem windowBuffer_base (b : Buffer) : windowBuffer (b.base / 0x10000) = some b := by
  cases b <;> rfl

theorem windowBuffer_some {k : Nat} {b : Buffer} (h : windowBuffer k = some b) :
    b.base = 0x10000 * k := by
  unfold windowBuffer at h
  split_ifs at h <;> cases h <;> simp_all [Buffer.base]

theorem windowBuffer_none {k : Nat} (h : windowBuffer k = none) : k = 0 ∨ 5 ≤ k := by
  unfold windowBuffer at h
  split_ifs at h
  omega

/-- A word of a buffer that begins below the capacity. -/
theorem resolve_word (c : Params) (b : Buffer) (w : Nat) (addr : BitVec 20)
    (ha : addr.toNat = b.base + 4 * w) (hw : 4 * w < b.cap c) :
    resolve c addr = .ok (.word b (4 * w)) := by
  have hc := cap_lt c b
  have hb := windowBuffer_base b
  obtain ⟨k, h1, h2, hk⟩ := base_eq b
  simp only [resolve, ha]
  rw [if_neg (by omega), if_neg (by omega)]
  rw [show (b.base + 4 * w) / 0x10000 = b.base / 0x10000 by omega, hb]
  simp only
  rw [show (b.base + 4 * w) % 0x10000 = 4 * w by omega, if_pos hw]

/-- Everything the address decoder can answer (20_memory.md R201, R203, R205). -/
theorem resolve_cases (c : Params) (addr : BitVec 20) :
    (addr.toNat % 4 ≠ 0 ∧ resolve c addr = .error .busMisaligned) ∨
    (addr.toNat % 4 = 0 ∧
      ((∃ r : Reg, addr = r.addr ∧ resolve c addr = .ok (.reg r)) ∨
       (addr.toNat < 0x100 ∧ (∀ r : Reg, r.offset ≠ addr.toNat) ∧ resolve c addr = .ok .hole) ∨
       (∃ b i, addr.toNat = b.base + i ∧ i % 4 = 0 ∧ i < b.cap c ∧
         resolve c addr = .ok (.word b i)) ∨
       (∃ b : Buffer, b.base + b.cap c ≤ addr.toNat ∧ addr.toNat < b.base + 0x10000 ∧
         resolve c addr = .error .busPastCapacity) ∨
       (((0x100 ≤ addr.toNat ∧ addr.toNat < 0x10000) ∨ 0x50000 ≤ addr.toNat) ∧
         resolve c addr = .error .busUnmapped))) := by
  by_cases h0 : addr.toNat % 4 = 0
  · refine .inr ⟨h0, ?_⟩
    by_cases h1 : addr.toNat < 0x100
    · match ha : Reg.at? addr.toNat with
      | some r =>
        refine .inl ⟨r, ?_, by simp [resolve, h0, h1, ha]⟩
        apply BitVec.eq_of_toNat_eq
        rw [addr_toNat, at?_some ha]
      | none => exact .inr (.inl ⟨h1, at?_none ha, by simp [resolve, h0, h1, ha]⟩)
    · match hb : windowBuffer (addr.toNat / 0x10000) with
      | some b =>
        have hbase := windowBuffer_some hb
        have hc := cap_lt c b
        by_cases h2 : addr.toNat % 0x10000 < b.cap c
        · exact .inr (.inr (.inl ⟨b, addr.toNat % 0x10000, by omega, by omega, h2,
            by simp [resolve, h0, h1, hb, h2]⟩))
        · exact .inr (.inr (.inr (.inl ⟨b, by omega, by omega, by simp [resolve, h0, h1, hb, h2]⟩)))
      | none =>
        have := windowBuffer_none hb
        exact .inr (.inr (.inr (.inr ⟨by omega, by simp [resolve, h0, h1, hb]⟩)))
  · exact .inl ⟨h0, by simp [resolve, h0]⟩

theorem resolve_ok_reg {c : Params} {addr : BitVec 20} {r : Reg}
    (h : resolve c addr = .ok (.reg r)) : addr = r.addr := by
  rcases resolve_cases c addr with ⟨_, e⟩ | ⟨_, ⟨q, hq, e⟩ | ⟨_, _, e⟩ | ⟨_, _, _, _, _, e⟩ | ⟨_, _, _, e⟩ |
    ⟨_, e⟩⟩ <;> rw [e] at h <;> cases h
  exact hq

theorem resolve_ok_word {c : Params} {addr : BitVec 20} {b : Buffer} {i : Nat}
    (h : resolve c addr = .ok (.word b i)) :
    addr.toNat = b.base + i ∧ i % 4 = 0 ∧ i < b.cap c := by
  rcases resolve_cases c addr with ⟨_, e⟩ | ⟨_, ⟨_, _, e⟩ | ⟨_, _, e⟩ | ⟨_, _, h1, h2, h3, e⟩ | ⟨_, _, _, e⟩ |
    ⟨_, e⟩⟩ <;> rw [e] at h <;> cases h
  exact ⟨h1, h2, h3⟩

theorem resolve_hole (c : Params) (addr : BitVec 20) (h : addr.toNat < 0x100)
    (h4 : addr.toNat % 4 = 0) (hn : ∀ r : Reg, r.offset ≠ addr.toNat) :
    resolve c addr = .ok .hole := by
  rcases resolve_cases c addr with ⟨h0, _⟩ | ⟨_, ⟨r, hr, _⟩ | ⟨_, _, e⟩ | ⟨b, _, _, _, _, _⟩ |
    ⟨b, _, _, _⟩ | ⟨_, _⟩⟩
  · omega
  · exact absurd (by rw [hr, addr_toNat]) (hn r)
  · exact e
  · obtain ⟨k, _, _, _⟩ := base_eq b; omega
  · obtain ⟨k, _, _, _⟩ := base_eq b; omega
  · omega

/-! ## Register writes -/

@[simp] theorem get_taintIf (r : Reg) (s : State) (b : Bool) : r.get (s.taintIf b) = r.get s := by
  cases r <;> rfl


theorem hostWritable_data (r : Reg) (h : r.hostWritable = true) :
    r.data = true ∧ r ≠ .ctrl ∧ r ≠ .cmd ∧ r ≠ .status ∧ r ≠ .errInfo := by
  revert h; cases r <;> decide

/-- A write to a read-write register (10_state.md R101). -/
theorem writeReg_rw (r : Reg) (v : Word) (s : State) (h : r.hostWritable = true) :
    s.writeReg r v = r.set v (s.taintIf (s.readsNow r)) := by
  obtain ⟨_, h1, h2, h3, _⟩ := hostWritable_data r h
  simp [State.writeReg, h1, h2, h3, h]

/-- A write to a read-only register (10_state.md R101). -/
theorem writeReg_ro (r : Reg) (v : Word) (s : State) (h : r.hostWritable = false)
    (h1 : r ≠ .ctrl) (h2 : r ≠ .cmd) (h3 : r ≠ .status) : s.writeReg r v = s := by
  simp [State.writeReg, h, h1, h2, h3]

/-- Everything a register write can be (10_state.md R101). -/
theorem writeReg_cases (r : Reg) (v : Word) (s : State) :
    (r = .ctrl ∧ bitOf v 0 = true ∧ s.writeReg r v = s.softReset) ∨
    (r = .ctrl ∧ bitOf v 0 = false ∧ s.writeReg r v = { s with irqEn := bitOf v 1 }) ∨
    (r = .cmd ∧ s.busy = true ∧ s.writeReg r v = { s with overrun := true }) ∨
    (r = .cmd ∧ s.busy = false ∧ s.writeReg r v = s.startCommand v) ∨
    (r = .status ∧ s.writeReg r v = s.acknowledge v) ∨
    (r.hostWritable = true ∧ s.writeReg r v = r.set v (s.taintIf (s.readsNow r))) ∨
    (r.hostWritable = false ∧ r ≠ .ctrl ∧ r ≠ .cmd ∧ r ≠ .status ∧ s.writeReg r v = s) := by
  by_cases h1 : r = .ctrl
  · subst h1
    cases hb : bitOf v 0 <;> simp [State.writeReg, State.writeCtrl, hb]
  · by_cases h2 : r = .cmd
    · subst h2
      cases hb : s.busy <;> simp [State.writeReg, State.writeCmd, hb]
    · by_cases h3 : r = .status
      · subst h3; simp [State.writeReg]
      · cases h : r.hostWritable
        · simp [h1, h2, h3, writeReg_ro r v s h h1 h2 h3]
        · simp [h1, h2, h3, writeReg_rw r v s h]

/-! ## Lanes -/

theorem writtenLanes_length (v : Word) (cap i : Nat) :
    (writtenLanes v cap i).length = min (cap - i) 4 := by
  simp [writtenLanes, wordBytes]

theorem writtenLanes_getElem? (v : Word) (cap i k : Nat) (hk : k < 4) (h : i + k < cap) :
    (writtenLanes v cap i)[k]? = some (lane v k) := by
  rw [writtenLanes, List.getElem?_take_of_lt (by omega)]
  interval_cases k <;> rfl

theorem lane_readTarget (s : State) (b : Buffer) (i k : Nat) (hk : k < 4) :
    lane (s.readTarget (.word b i)) k = s.readLane b (i + k) := by
  have h := lane_ofLanes (s.readLane b i) (s.readLane b (i + 1)) (s.readLane b (i + 2))
    (s.readLane b (i + 3))
  simp only [State.readTarget]
  interval_cases k
  · exact h.1
  · exact h.2.1
  · exact h.2.2.1
  · exact h.2.2.2

end Sys2Proof.Machine
end

