-- ==== Sys2Proof/Laws/Codec.lean ====
section
/-! SUPPORT. What the two codec functions can answer, case by case (40_option_codec.md R400, R401). -/

namespace Sys2Proof.Machine

theorem nibble_cases (n : BitVec 4) : n.toNat ≤ 12 ∨ n = 13 ∨ n = 14 ∨ n = 15 := by
  revert n; decide

theorem nibble_lit (n : BitVec 4) (h : n.toNat ≤ 12) : n ≠ 13 ∧ n ≠ 14 ∧ n ≠ 15 := by
  refine ⟨?_, ?_, ?_⟩ <;> (rintro rfl; revert h; decide)

/-! ## NibbleDecode -/

theorem nibbleDecode_lit (n : BitVec 4) (src : Nat → Byte) (p stop : Nat) (h : n.toNat ≤ 12) :
    nibbleDecode n src p stop = .ok n.toNat p := by
  simp [nibbleDecode, h]

@[simp] theorem nibbleDecode_13 (src : Nat → Byte) (p stop : Nat) :
    nibbleDecode 13#4 src p stop =
      if stop < p + 1 then .trunc else .ok (13 + (src p).toNat) (p + 1) := by
  simp [nibbleDecode]

@[simp] theorem nibbleDecode_14 (src : Nat → Byte) (p stop : Nat) :
    nibbleDecode 14#4 src p stop =
      if stop < p + 2 then .trunc else .ok (269 + be16 (src p) (src (p + 1))) (p + 2) := by
  simp [nibbleDecode]

@[simp] theorem nibbleDecode_15 (src : Nat → Byte) (p stop : Nat) :
    nibbleDecode 15#4 src p stop = .reserved := by
  simp [nibbleDecode]

/-- Everything a successful decode says: which form it was, what it consumed, and within which bounds. -/
theorem nibbleDecode_ok {n : BitVec 4} {src : Nat → Byte} {p stop v next : Nat}
    (h : nibbleDecode n src p stop = .ok v next) :
    (n.toNat ≤ 12 ∧ v = n.toNat ∧ next = p) ∨
    (n = 13#4 ∧ v = 13 + (src p).toNat ∧ next = p + 1 ∧ next ≤ stop) ∨
    (n = 14#4 ∧ v = 269 + be16 (src p) (src (p + 1)) ∧ next = p + 2 ∧ next ≤ stop) := by
  rcases nibble_cases n with hn | rfl | rfl | rfl
  · rw [nibbleDecode_lit n src p stop hn] at h
    simp only [NibbleResult.ok.injEq] at h
    exact .inl ⟨hn, h.1.symm, h.2.symm⟩
  · simp only [BitVec.ofNat_eq_ofNat, nibbleDecode_13] at h
    split at h <;> simp only [reduceCtorEq, NibbleResult.ok.injEq] at h
    exact .inr (.inl ⟨rfl, h.1.symm, h.2.symm, by omega⟩)
  · simp only [BitVec.ofNat_eq_ofNat, nibbleDecode_14] at h
    split at h <;> simp only [reduceCtorEq, NibbleResult.ok.injEq] at h
    exact .inr (.inr ⟨rfl, h.1.symm, h.2.symm, by omega⟩)
  · simp at h

/-- A decode reads only bytes between the cursor and the end (40_option_codec.md R400). -/
theorem nibbleDecode_congr (n : BitVec 4) (src src' : Nat → Byte) (p stop : Nat)
    (h : ∀ i, p ≤ i → i < stop → src i = src' i) :
    nibbleDecode n src p stop = nibbleDecode n src' p stop := by
  rcases nibble_cases n with hn | rfl | rfl | rfl
  · rw [nibbleDecode_lit _ _ _ _ hn, nibbleDecode_lit _ _ _ _ hn]
  · simp only [BitVec.ofNat_eq_ofNat, nibbleDecode_13]
    split
    · rfl
    · rw [h p (by omega) (by omega)]
  · simp only [BitVec.ofNat_eq_ofNat, nibbleDecode_14]
    split
    · rfl
    · rw [h p (by omega) (by omega), h (p + 1) (by omega) (by omega)]
  · simp

/-! ## NibbleEncode -/

theorem nibbleEncode_lit (v : Nat) (h : v ≤ 12) :
    nibbleEncode v = some (BitVec.ofNat 4 v, []) := by
  simp [nibbleEncode, h]

theorem nibbleEncode_ext8 (v : Nat) (h : 13 ≤ v) (h' : v ≤ 268) :
    nibbleEncode v = some (13#4, [BitVec.ofNat 8 (v - 13)]) := by
  simp [nibbleEncode, show ¬ v ≤ 12 by omega, h']

theorem nibbleEncode_ext16 (v : Nat) (h : 269 ≤ v) (h' : v ≤ 65804) :
    nibbleEncode v = some (14#4,
      [highByte (BitVec.ofNat 16 (v - 269)), lowByte (BitVec.ofNat 16 (v - 269))]) := by
  simp [nibbleEncode, maxExtValue, show ¬ v ≤ 12 by omega, show ¬ v ≤ 268 by omega, h']

theorem nibbleEncode_range (v : Nat) (h : 65804 < v) : nibbleEncode v = none := by
  simp [nibbleEncode, maxExtValue, show ¬ v ≤ 12 by omega, show ¬ v ≤ 268 by omega,
    show ¬ v ≤ 65804 by omega]

/-- Everything a successful encode says. -/
theorem nibbleEncode_some {v : Nat} {n : BitVec 4} {e : List Byte}
    (h : nibbleEncode v = some (n, e)) :
    (v ≤ 12 ∧ n = BitVec.ofNat 4 v ∧ e = []) ∨
    (13 ≤ v ∧ v ≤ 268 ∧ n = 13#4 ∧ e = [BitVec.ofNat 8 (v - 13)]) ∨
    (269 ≤ v ∧ v ≤ 65804 ∧ n = 14#4 ∧
      e = [highByte (BitVec.ofNat 16 (v - 269)), lowByte (BitVec.ofNat 16 (v - 269))]) := by
  by_cases h1 : v ≤ 12
  · rw [nibbleEncode_lit v h1] at h
    simp only [Option.some.injEq, Prod.mk.injEq] at h
    exact .inl ⟨h1, h.1.symm, h.2.symm⟩
  · by_cases h2 : v ≤ 268
    · rw [nibbleEncode_ext8 v (by omega) h2] at h
      simp only [Option.some.injEq, Prod.mk.injEq] at h
      exact .inr (.inl ⟨by omega, h2, h.1.symm, h.2.symm⟩)
    · by_cases h3 : v ≤ 65804
      · rw [nibbleEncode_ext16 v (by omega) h3] at h
        simp only [Option.some.injEq, Prod.mk.injEq] at h
        exact .inr (.inr ⟨by omega, h3, h.1.symm, h.2.symm⟩)
      · rw [nibbleEncode_range v (by omega)] at h
        simp at h

end Sys2Proof.Machine
end

