-- ==== Sys2Proof/Laws/Parser.lean ====
section
/-! SUPPORT. What one pass of PARSE does in each phase, that a pass lowers a rank, and that a pass reads
datagram bytes only (41_message_parser.md R504, R505, R511). -/

namespace Sys2Proof.Machine

section
variable (src : Nat → Byte) (rxCap pathCap : Nat)

/-! ## Option values -/

theorem joinPath_length (present : Bool) (path v : List Byte) :
    (joinPath present path v).length = path.length + (v.length + if present then 1 else 0) := by
  cases present <;> simp [joinPath]

/-- Everything an option value can do to the scan. -/
theorem scanValue_cases (hp delta len : Nat) (sc : Scan) :
    (sc.n < sc.p + len ∧ scanValue src pathCap hp delta len sc = sc.fail .valueOverrun hp) ∨
    (sc.p + len ≤ sc.n ∧
      ((∃ e, (e = .pathOverflow ∨ e = .cfTooLong) ∧
          scanValue src pathCap hp delta len sc =
            ({ sc with num := sc.num + delta, count := sc.count + 1 } : Scan).fail e hp) ∨
        ∃ path present cf cfp, path.length ≤ max sc.path.length pathCap ∧
          scanValue src pathCap hp delta len sc =
            { sc with num := sc.num + delta, count := sc.count + 1, p := sc.p + len, phase := .option
                      path := path, pathPresent := present, cf := cf, cfPresent := cfp })) := by
  unfold scanValue
  by_cases h : sc.n < sc.p + len
  · exact .inl ⟨h, by rw [if_pos h]⟩
  · refine .inr ⟨by omega, ?_⟩
    rw [if_neg h]
    simp only
    split_ifs with h1 h2 h3 h4
    · exact .inl ⟨_, .inl rfl, rfl⟩
    · exact .inr ⟨_, _, sc.cf, sc.cfPresent, by omega, rfl⟩
    · exact .inl ⟨_, .inr rfl, rfl⟩
    · exact .inr ⟨sc.path, sc.pathPresent, _, _, by omega, rfl⟩
    · exact .inr ⟨sc.path, sc.pathPresent, sc.cf, sc.cfPresent, by omega, rfl⟩

/-! ## One pass, phase by phase -/

theorem scanAdvance_option_end (sc : Scan) (h : sc.phase = .option) (hp : sc.n ≤ sc.p) :
    scanAdvance src rxCap pathCap sc = { sc with phase := .done } := by
  simp [scanAdvance, fetchWire, h, show ¬ sc.p < sc.n by omega]

theorem scanAdvance_option_marker (sc : Scan) (h : sc.phase = .option) (hp : sc.p < sc.n)
    (hb : src sc.p = 0xFF) :
    scanAdvance src rxCap pathCap sc =
      if sc.p + 1 = sc.n then sc.fail .emptyPayload sc.p
      else { sc with
        payPresent := true, payOff := sc.p + 1, payLen := sc.n - (sc.p + 1), phase := .done } := by
  simp only [scanAdvance, fetchWire, h, if_pos hp, decode, decodeOption, if_pos hb, fetchOf,
    wireEffect, scanPayloadMarker]

theorem scanAdvance_option_header (sc : Scan) (h : sc.phase = .option) (hp : sc.p < sc.n)
    (hb : src sc.p ≠ 0xFF) :
    scanAdvance src rxCap pathCap sc =
      { sc with p := sc.p + 1, phase := .delta sc.p (src sc.p) } := by
  simp only [scanAdvance, fetchWire, h, if_pos hp, decode, decodeOption, if_neg hb, fetchOf,
    wireEffect, scanOptHdr, nibbleByte_nibbles]

theorem scanAdvance_delta (sc : Scan) (hp : Nat) (b : Byte) (h : sc.phase = .delta hp b) :
    scanAdvance src rxCap pathCap sc =
      if b = 0xFF then sc.fail .deltaReserved 0
      else if hiNibble b = 15 then sc.fail .deltaReserved hp
      else if loNibble b = 15 then sc.fail .lengthReserved hp
      else match nibbleDecode (hiNibble b) src sc.p sc.n with
        | .ok delta next => { sc with p := next, phase := .length hp b delta }
        | .trunc => sc.fail .deltaExtTrunc hp
        | .reserved => sc.fail .deltaReserved hp := by
  have hb := nibbleByte_nibbles b
  simp only [scanAdvance, fetchWire, h, decode, decodeDelta]
  split_ifs with h0 h1 h2 h3 h4
  · simp [Except.map, fetchOf]
  · simp [Except.map, fetchOf, wireEffect, scanDeltaReserved, h]
  · simp [Except.map, fetchOf, wireEffect, scanLenReserved, h]
  · simp only [Except.map, fetchOf, wireEffect, scanDelta, h]
    rw [h3] at hb
    rw [h3, hb]
    try rfl
  · simp only [Except.map, fetchOf, wireEffect, scanDelta, h]
    rw [h4] at hb
    rw [h4, hb]
    try rfl
  · simp only [Except.map, fetchOf, wireEffect, scanDelta, h]
    rw [hb]
    try rfl

theorem scanAdvance_length (sc : Scan) (hp delta : Nat) (b : Byte)
    (h : sc.phase = .length hp b delta) :
    scanAdvance src rxCap pathCap sc =
      if b = 0xFF then sc.fail .deltaReserved 0
      else if hiNibble b = 15 then sc.fail .deltaReserved hp
      else if loNibble b = 15 then sc.fail .lengthReserved hp
      else match nibbleDecode (loNibble b) src sc.p sc.n with
        | .ok len next => scanValue src pathCap hp delta len { sc with p := next }
        | .trunc => sc.fail .lengthExtTrunc hp
        | .reserved => sc.fail .lengthReserved hp := by
  simp only [scanAdvance, fetchWire, h, decode, decodeLength]
  split_ifs with h0 h1 h2 h3 h4
  · simp [Except.map, fetchOf]
  · simp [Except.map, fetchOf, wireEffect, scanDeltaReserved, h]
  · simp [Except.map, fetchOf, wireEffect, scanLenReserved, h]
  · simp only [Except.map, fetchOf, wireEffect, scanLength, h]
    rw [h3]
    try rfl
  · simp only [Except.map, fetchOf, wireEffect, scanLength, h]
    rw [h4]
    try rfl
  · simp only [Except.map, fetchOf, wireEffect, scanLength, h]
    try rfl

theorem scanAdvance_header (sc : Scan) (h : sc.phase = .header) :
    scanAdvance src rxCap pathCap sc =
      if rxCap < sc.n then sc.fail .rxLenGtCap 0
      else if sc.n < 4 then sc.fail .tooShort 0
      else if (src 0).extractLsb' 6 2 ≠ 1#2 then sc.fail .unsupportedVersion 0
      else scanWireHeader src ((src 0).extractLsb' 4 2) (loNibble (src 0)) (src 1)
        (src 2 ++ src 3) sc := by
  simp only [scanAdvance, fetchWire, h]
  split_ifs with h0 h1 h2
  · rfl
  · have : sc.n = 0 ∨ sc.n = 1 ∨ sc.n = 2 ∨ sc.n = 3 := by omega
    rcases this with h | h | h | h <;> simp [h, slice, decode, fetchOf]
  · rw [show min sc.n 4 = 4 by omega]
    have h2' : ¬ (src 0).extractLsb' 6 2 = 1 := h2
    simp only [slice, decode, decodeHeader, if_neg h2', Except.map, fetchOf, Nat.zero_add,
      Nat.reduceAdd]
  · rw [show min sc.n 4 = 4 by omega]
    simp only [ne_eq, not_not] at h2
    have h2' : (src 0).extractLsb' 6 2 = 1 := h2
    simp only [slice, decode, decodeHeader, if_pos h2', Except.map, fetchOf, wireEffect,
      Nat.zero_add, Nat.reduceAdd]

/-- PARSE has ended. -/
def Phase.ended : Phase → Bool
  | .done | .failed _ _ => true
  | .header | .option | .delta _ _ | .length _ _ _ => false

theorem scanAdvance_ended (sc : Scan) (h : sc.phase.ended = true) :
    scanAdvance src rxCap pathCap sc = sc := by
  cases hph : sc.phase <;> simp_all [Phase.ended, scanAdvance, fetchWire]

/-! ## Termination -/

/-- What is left to do, in passes. -/
def Scan.rank (sc : Scan) : Nat :=
  match sc.phase with
  | .header => 3 * sc.n + 2
  | .option => 3 * (sc.n - sc.p) + 1
  | .delta _ _ => 3 * (sc.n - sc.p) + 3
  | .length _ _ _ => 3 * (sc.n - sc.p) + 2
  | .done => 0
  | .failed _ _ => 0

theorem rank_fail (sc : Scan) (e : Error) (pos : Nat) : (sc.fail e pos).rank = 0 := rfl

theorem nibbleDecode_le {n : BitVec 4} {p stop v next : Nat}
    (h : nibbleDecode n src p stop = .ok v next) : p ≤ next := by
  rcases nibbleDecode_ok h with h | h | h <;> omega

theorem scanWireHeader_cases (t : BitVec 2) (tkl : BitVec 4) (code : BitVec 8) (mid : BitVec 16)
    (sc : Scan) (h : sc.phase = .header) :
    (8 < tkl.toNat ∧ scanWireHeader src t tkl code mid sc = sc.fail .tklGt8 0) ∨
    (tkl.toNat ≤ 8 ∧ sc.n < 4 + tkl.toNat ∧
      scanWireHeader src t tkl code mid sc = sc.fail .tokenTrunc 0) ∨
    (tkl.toNat ≤ 8 ∧ 4 + tkl.toNat ≤ sc.n ∧ scanWireHeader src t tkl code mid sc =
      { sc with t := t, tkl := tkl, code := code, mid := mid, token := slice src 4 tkl.toNat
                p := 4 + tkl.toNat, phase := .option }) := by
  simp only [scanWireHeader, h]
  by_cases h1 : 8 < tkl.toNat
  · exact .inl ⟨h1, by rw [if_pos h1]⟩
  · by_cases h2 : sc.n < 4 + tkl.toNat
    · exact .inr (.inl ⟨by omega, h2, by rw [if_neg h1, if_pos h2]⟩)
    · exact .inr (.inr ⟨by omega, by omega, by rw [if_neg h1, if_neg h2]⟩)

/-- A pass that does not find PARSE ended lowers the rank (41_message_parser.md R511). -/
theorem rank_scanAdvance (sc : Scan) (h : sc.phase.ended = false) :
    (scanAdvance src rxCap pathCap sc).rank < sc.rank := by
  match hph : sc.phase with
  | .header =>
    rw [scanAdvance_header src rxCap pathCap sc hph]
    have hr : sc.rank = 3 * sc.n + 2 := by simp [Scan.rank, hph]
    split_ifs
    · rw [rank_fail]; omega
    · rw [rank_fail]; omega
    · rw [rank_fail]; omega
    · rcases scanWireHeader_cases src _ (loNibble (src 0)) _ _ sc hph with ⟨_, h⟩ | ⟨_, _, h⟩ | ⟨_, _, h⟩
      · rw [h, rank_fail]; omega
      · rw [h, rank_fail]; omega
      · rw [h]; simp only [Scan.rank, hph]; omega
  | .option =>
    have hr : sc.rank = 3 * (sc.n - sc.p) + 1 := by simp [Scan.rank, hph]
    by_cases hp : sc.p < sc.n
    · by_cases hb : src sc.p = 0xFF
      · rw [scanAdvance_option_marker src rxCap pathCap sc hph hp hb]
        split
        · rw [rank_fail]; omega
        · rw [hr]; simp [Scan.rank]
      · rw [scanAdvance_option_header src rxCap pathCap sc hph hp hb, hr]
        simp only [Scan.rank]; omega
    · rw [scanAdvance_option_end src rxCap pathCap sc hph (by omega), hr]
      simp [Scan.rank]
  | .delta hp b =>
    rw [scanAdvance_delta src rxCap pathCap sc hp b hph]
    have hr : sc.rank = 3 * (sc.n - sc.p) + 3 := by simp [Scan.rank, hph]
    split_ifs
    · rw [rank_fail]; omega
    · rw [rank_fail]; omega
    · rw [rank_fail]; omega
    · split
      · rename_i delta next hd
        have := nibbleDecode_le src hd
        rw [hr]; simp only [Scan.rank]; omega
      · rw [rank_fail]; omega
      · rw [rank_fail]; omega
  | .length hp b delta =>
    rw [scanAdvance_length src rxCap pathCap sc hp delta b hph]
    have hr : sc.rank = 3 * (sc.n - sc.p) + 2 := by simp [Scan.rank, hph]
    split_ifs
    · rw [rank_fail]; omega
    · rw [rank_fail]; omega
    · rw [rank_fail]; omega
    · split
      · rename_i len next hd
        have := nibbleDecode_le src hd
        rcases scanValue_cases src pathCap hp delta len { sc with p := next } with
          ⟨_, h⟩ | ⟨_, ⟨e, _, h⟩ | ⟨_, _, _, _, _, h⟩⟩
        · rw [h, rank_fail]; omega
        · rw [h, rank_fail]; omega
        · rw [h, hr]; simp only [Scan.rank]; omega
      · rw [rank_fail]; omega
      · rw [rank_fail]; omega
  | .done => simp [hph, Phase.ended] at h
  | .failed e pos => simp [hph, Phase.ended] at h

theorem rank_zero (sc : Scan) (h : sc.rank = 0) : sc.phase.ended = true := by
  cases hph : sc.phase <;> simp_all [Scan.rank, Phase.ended]

theorem scanRun_ended (k : Nat) (sc : Scan) (h : sc.phase.ended = true) :
    scanRun src rxCap pathCap k sc = sc := by
  induction k generalizing sc with
  | zero => rfl
  | succ k ih => rw [scanRun, scanAdvance_ended src rxCap pathCap sc h, ih sc h]

/-- As many passes as the rank end PARSE. -/
theorem scanRun_rank (k : Nat) (sc : Scan) (h : sc.rank ≤ k) :
    (scanRun src rxCap pathCap k sc).phase.ended = true := by
  induction k generalizing sc with
  | zero => exact rank_zero sc (by omega)
  | succ k ih =>
    rw [scanRun]
    by_cases he : sc.phase.ended = true
    · rw [scanAdvance_ended src rxCap pathCap sc he]
      rw [scanRun_ended src rxCap pathCap k sc he]; exact he
    · have := rank_scanAdvance src rxCap pathCap sc (by simpa using he)
      exact ih _ (by omega)

theorem scanRun_add (j k : Nat) (sc : Scan) :
    scanRun src rxCap pathCap (j + k) sc =
      scanRun src rxCap pathCap k (scanRun src rxCap pathCap j sc) := by
  induction j generalizing sc with
  | zero => simp [scanRun]
  | succ j ih => rw [Nat.succ_add]; simp only [scanRun]; exact ih _

/-- More passes than the rank change nothing. -/
theorem scanRun_stable (j k : Nat) (sc : Scan) (hj : sc.rank ≤ j) (hk : sc.rank ≤ k) :
    scanRun src rxCap pathCap j sc = scanRun src rxCap pathCap k sc := by
  have key : ∀ d, scanRun src rxCap pathCap (sc.rank + d) sc =
      scanRun src rxCap pathCap sc.rank sc := fun d => by
    rw [scanRun_add]
    exact scanRun_ended _ _ _ _ _ (scanRun_rank src rxCap pathCap sc.rank sc (Nat.le_refl _))
  rw [show j = sc.rank + (j - sc.rank) by omega, show k = sc.rank + (k - sc.rank) by omega,
    key, key]

theorem rank_le_fuel (sc : Scan) : sc.rank ≤ scanFuel sc.n := by
  unfold Scan.rank scanFuel
  split <;> omega

/-! ## Reading -/

@[simp] theorem scanValue_n (hp delta len : Nat) (sc : Scan) :
    (scanValue src pathCap hp delta len sc).n = sc.n := by
  rcases scanValue_cases src pathCap hp delta len sc with
    ⟨_, h⟩ | ⟨_, ⟨e, _, h⟩ | ⟨_, _, _, _, _, h⟩⟩ <;> rw [h] <;> rfl

theorem scanAdvance_n (sc : Scan) : (scanAdvance src rxCap pathCap sc).n = sc.n := by
  match hph : sc.phase with
  | .header =>
    rw [scanAdvance_header src rxCap pathCap sc hph]
    split_ifs
    · rfl
    · rfl
    · rfl
    · rcases scanWireHeader_cases src _ (loNibble (src 0)) _ _ sc hph with
        ⟨_, h⟩ | ⟨_, _, h⟩ | ⟨_, _, h⟩ <;> rw [h] <;> rfl
  | .option =>
    by_cases hp : sc.p < sc.n
    · by_cases hb : src sc.p = 0xFF
      · rw [scanAdvance_option_marker src rxCap pathCap sc hph hp hb]
        split <;> rfl
      · rw [scanAdvance_option_header src rxCap pathCap sc hph hp hb]
    · rw [scanAdvance_option_end src rxCap pathCap sc hph (by omega)]
  | .delta hp b =>
    rw [scanAdvance_delta src rxCap pathCap sc hp b hph]
    split_ifs
    · rfl
    · rfl
    · rfl
    · split <;> rfl
  | .length hp b delta =>
    rw [scanAdvance_length src rxCap pathCap sc hp delta b hph]
    split_ifs
    · rfl
    · rfl
    · rfl
    · split
      · simp
      · rfl
      · rfl
  | .done => rw [scanAdvance_ended src rxCap pathCap sc (by simp [hph, Phase.ended])]
  | .failed e pos => rw [scanAdvance_ended src rxCap pathCap sc (by simp [hph, Phase.ended])]

theorem scanRun_n (k : Nat) (sc : Scan) : (scanRun src rxCap pathCap k sc).n = sc.n := by
  induction k generalizing sc with
  | zero => rfl
  | succ k ih => rw [scanRun, ih, scanAdvance_n]

/-- The header fields and the token of a scan. -/
def Scan.headerPart (sc : Scan) : BitVec 2 × BitVec 4 × Byte × BitVec 16 × List Byte :=
  (sc.t, sc.tkl, sc.code, sc.mid, sc.token)

/-- Past the header, a pass keeps the header fields and the token, and does not go back. -/
theorem scanAdvance_keepsHeader (sc : Scan) (h : sc.phase ≠ .header) :
    (scanAdvance src rxCap pathCap sc).headerPart = sc.headerPart ∧
      (scanAdvance src rxCap pathCap sc).phase ≠ .header := by
  match hph : sc.phase with
  | .header => exact absurd hph h
  | .option =>
    by_cases hp : sc.p < sc.n
    · by_cases hb : src sc.p = 0xFF
      · rw [scanAdvance_option_marker src rxCap pathCap sc hph hp hb]
        split <;> exact ⟨rfl, nofun⟩
      · rw [scanAdvance_option_header src rxCap pathCap sc hph hp hb]
        exact ⟨rfl, nofun⟩
    · rw [scanAdvance_option_end src rxCap pathCap sc hph (by omega)]
      exact ⟨rfl, nofun⟩
  | .delta hp b =>
    rw [scanAdvance_delta src rxCap pathCap sc hp b hph]
    split_ifs
    · exact ⟨rfl, nofun⟩
    · exact ⟨rfl, nofun⟩
    · exact ⟨rfl, nofun⟩
    · split <;> exact ⟨rfl, nofun⟩
  | .length hp b delta =>
    rw [scanAdvance_length src rxCap pathCap sc hp delta b hph]
    split_ifs
    · exact ⟨rfl, nofun⟩
    · exact ⟨rfl, nofun⟩
    · exact ⟨rfl, nofun⟩
    · split
      · rename_i len next _
        rcases scanValue_cases src pathCap hp delta len { sc with p := next } with
          ⟨_, h⟩ | ⟨_, ⟨e, _, h⟩ | ⟨_, _, _, _, _, h⟩⟩ <;> rw [h] <;> exact ⟨rfl, nofun⟩
      · exact ⟨rfl, nofun⟩
      · exact ⟨rfl, nofun⟩
  | .done =>
    rw [scanAdvance_ended src rxCap pathCap sc (by simp [hph, Phase.ended])]
    exact ⟨rfl, h⟩
  | .failed e pos =>
    rw [scanAdvance_ended src rxCap pathCap sc (by simp [hph, Phase.ended])]
    exact ⟨rfl, h⟩

theorem scanRun_keepsHeader (k : Nat) (sc : Scan) (h : sc.phase ≠ .header) :
    (scanRun src rxCap pathCap k sc).headerPart = sc.headerPart := by
  induction k generalizing sc with
  | zero => rfl
  | succ k ih =>
    have ha := scanAdvance_keepsHeader src rxCap pathCap sc h
    rw [scanRun, ih _ ha.2, ha.1]

end

/-- A pass reads bytes below `n` only (20_memory.md R212). -/
theorem scanAdvance_congr (src src' : Nat → Byte) (rxCap pathCap : Nat) (sc : Scan)
    (h : ∀ i, i < sc.n → src i = src' i) :
    scanAdvance src rxCap pathCap sc = scanAdvance src' rxCap pathCap sc := by
  match hph : sc.phase with
  | .header =>
    rw [scanAdvance_header _ _ _ sc hph, scanAdvance_header _ _ _ sc hph]
    by_cases h4 : sc.n < 4
    · simp [h4]
    · rw [h 0 (by omega), h 1 (by omega), h 2 (by omega), h 3 (by omega)]
      split_ifs
      · rfl
      · rfl
      · simp only [scanWireHeader, hph]
        split_ifs
        · rfl
        · rfl
        · rw [slice_congr src src' 4 _ (fun i _ hi => h i (by omega))]
  | .option =>
    by_cases hp : sc.p < sc.n
    · by_cases hb : src sc.p = 0xFF
      · rw [scanAdvance_option_marker _ _ _ sc hph hp hb,
          scanAdvance_option_marker _ _ _ sc hph hp (by rw [← h _ hp]; exact hb)]
      · rw [scanAdvance_option_header _ _ _ sc hph hp hb,
          scanAdvance_option_header _ _ _ sc hph hp (by rw [← h _ hp]; exact hb), h _ hp]
    · rw [scanAdvance_option_end _ _ _ sc hph (by omega),
        scanAdvance_option_end _ _ _ sc hph (by omega)]
  | .delta hp b =>
    rw [scanAdvance_delta _ _ _ sc hp b hph, scanAdvance_delta _ _ _ sc hp b hph,
      nibbleDecode_congr _ src src' _ _ (fun i _ hi => h i hi)]
  | .length hp b delta =>
    rw [scanAdvance_length _ _ _ sc hp delta b hph, scanAdvance_length _ _ _ sc hp delta b hph,
      nibbleDecode_congr _ src src' _ _ (fun i _ hi => h i hi)]
    split_ifs
    · rfl
    · rfl
    · rfl
    · split
      · rename_i len next _
        unfold scanValue
        by_cases hn : sc.n < next + len
        · simp [hn]
        · have := slice_congr src src' next len (fun i _ hi => h i (by omega))
          simp only [this]
      · rfl
      · rfl
  | .done =>
    rw [scanAdvance_ended _ _ _ sc (by simp [hph, Phase.ended]),
      scanAdvance_ended _ _ _ sc (by simp [hph, Phase.ended])]
  | .failed e pos =>
    rw [scanAdvance_ended _ _ _ sc (by simp [hph, Phase.ended]),
      scanAdvance_ended _ _ _ sc (by simp [hph, Phase.ended])]

theorem scanRun_congr (src src' : Nat → Byte) (rxCap pathCap k : Nat) (sc : Scan)
    (h : ∀ i, i < sc.n → src i = src' i) :
    scanRun src rxCap pathCap k sc = scanRun src' rxCap pathCap k sc := by
  induction k generalizing sc with
  | zero => rfl
  | succ k ih =>
    rw [scanRun, scanRun, scanAdvance_congr src src' rxCap pathCap sc h]
    exact ih _ (by rw [scanAdvance_n]; exact h)

end Sys2Proof.Machine
end

