-- ==== Sys2Proof/Laws/Scan.lean ====
section
/-! SUPPORT. A pass of PARSE keeps the bounds of its scan (41_message_parser.md R511, R512), and a
finished scan is a commit or a listed failure. -/

namespace Sys2Proof.Machine

theorem fail_failedWell (sc : Scan) (e : Error) (pos : Nat) (h : e ≠ .ok)
    (h' : e.code = 4 ∨ pos = 0) : (sc.fail e pos).FailedWell := ⟨e, pos, rfl, h, h'⟩

theorem nibbleDecode_bound {n : BitVec 4} {src : Nat → Byte} {p stop v next : Nat}
    (h : nibbleDecode n src p stop = .ok v next) (hp : p ≤ stop) :
    p ≤ next ∧ next ≤ stop ∧ v ≤ 21935 * (next - p + 1) := by
  rcases nibbleDecode_ok h with ⟨h1, h2, h3⟩ | ⟨_, h2, h3, h4⟩ | ⟨_, h2, h3, h4⟩
  · omega
  · have := (src p).isLt; omega
  · have := be16_lt (src p) (src (p + 1)); omega

theorem start_bounded_after_header (c : Params) (src : Nat → Byte) (t : BitVec 2) (tkl : BitVec 4)
    (code : BitVec 8) (mid : BitVec 16) (n : Nat) (hn : n ≤ c.rxCap.toNat) :
    (scanWireHeader src t tkl code mid (Scan.start n)).Ok c := by
  rcases scanWireHeader_cases src t tkl code mid (Scan.start n) rfl with
    ⟨_, h⟩ | ⟨_, _, h⟩ | ⟨h8, hle, h⟩
  · rw [h]; exact .inr (.inl (fail_failedWell _ _ _ (by decide) (.inr rfl)))
  · rw [h]; exact .inr (.inl (fail_failedWell _ _ _ (by decide) (.inr rfl)))
  · rw [h]
    refine .inr (.inr ?_)
    constructor <;> simp_all [Scan.start]

/-- A pass keeps `Scan.Ok`. -/
theorem scanAdvance_ok (c : Params) (src : Nat → Byte) (sc : Scan) (h : sc.Ok c) :
    (scanAdvance src c.rxCap.toNat c.pathCap.toNat sc).Ok c := by
  have bad : ∀ (sc : Scan) e pos, e ≠ .ok → (e.code = 4 ∨ pos = 0) → (sc.fail e pos).Ok c :=
    fun sc e pos h1 h2 => .inr (.inl (fail_failedWell sc e pos h1 h2))
  rcases h with h | ⟨e, pos, hph, _, _⟩ | h
  · have hph : sc.phase = .header := by rw [h]; rfl
    rw [scanAdvance_header _ _ _ sc hph]
    split_ifs with h1 h2 h3
    · exact bad _ _ _ (by decide) (.inr rfl)
    · exact bad _ _ _ (by decide) (.inr rfl)
    · exact bad _ _ _ (by decide) (.inr rfl)
    · rw [h]; exact start_bounded_after_header c src _ _ _ _ _ (by omega)
  · rw [scanAdvance_ended _ _ _ sc (by simp [hph, Phase.ended])]
    exact .inr (.inl ⟨e, pos, hph, by assumption, by assumption⟩)
  · have hc := h.cursor
    have hcount := h.count
    have hnum := h.num
    match hph : sc.phase with
    | .header => exact absurd hph h.pastHeader
    | .failed e pos => exact absurd hph (h.notFailed e pos)
    | .done =>
      rw [scanAdvance_ended _ _ _ sc (by simp [hph, Phase.ended])]
      exact .inr (.inr h)
    | .option =>
      by_cases hp : sc.p < sc.n
      · by_cases hb : src sc.p = 0xFF
        · rw [scanAdvance_option_marker _ _ _ sc hph hp hb]
          split_ifs
          · exact bad _ _ _ (by decide) (.inl rfl)
          · refine .inr (.inr ?_)
            exact { h with
              pastHeader := by simp, notFailed := by simp
              payload := by simp only; omega
              inOption := by simp, inValue := by simp }
        · rw [scanAdvance_option_header _ _ _ sc hph hp hb]
          refine .inr (.inr ?_)
          exact { h with
            pastHeader := by simp, notFailed := by simp
            cursor := by simp only; omega
            count := by simp only; omega
            num := by simp only; omega
            inOption := by
              simp only [Phase.delta.injEq]
              rintro hp h ⟨rfl, -⟩
              omega
            inValue := by simp }
      · rw [scanAdvance_option_end _ _ _ sc hph (by omega)]
        refine .inr (.inr ?_)
        exact { h with
          pastHeader := by simp, notFailed := by simp, inOption := by simp, inValue := by simp }
    | .delta hp b =>
      rw [scanAdvance_delta _ _ _ sc hp b hph]
      obtain ⟨i1, i2, i3, i4⟩ := h.inOption hp b hph
      split_ifs
      · exact bad _ _ _ (by decide) (.inl rfl)
      · exact bad _ _ _ (by decide) (.inl rfl)
      · exact bad _ _ _ (by decide) (.inl rfl)
      · split
        · rename_i delta next hd
          have hb := nibbleDecode_bound hd hc
          refine .inr (.inr ?_)
          exact { h with
            pastHeader := by simp, notFailed := by simp
            cursor := by simp only; omega
            count := by simp only; omega
            num := by simp only; omega
            inOption := by simp
            inValue := by
              simp only [Phase.length.injEq]
              rintro hp h d ⟨rfl, -, rfl⟩
              omega }
        · exact bad _ _ _ (by decide) (.inl rfl)
        · exact bad _ _ _ (by decide) (.inl rfl)
    | .length hp b delta =>
      rw [scanAdvance_length _ _ _ sc hp delta b hph]
      obtain ⟨i1, i2, i3, i4⟩ := h.inValue hp b delta hph
      split_ifs
      · exact bad _ _ _ (by decide) (.inl rfl)
      · exact bad _ _ _ (by decide) (.inl rfl)
      · exact bad _ _ _ (by decide) (.inl rfl)
      · split
        · rename_i len next hd
          have hb := nibbleDecode_bound hd hc
          rcases scanValue_cases src c.pathCap.toNat hp delta len { sc with p := next } with
            ⟨_, e⟩ | ⟨hle, ⟨_, he | he, e⟩ | ⟨path, _, _, _, hpath, e⟩⟩
          · rw [e]; exact bad _ _ _ (by decide) (.inl rfl)
          · rw [e, he]; exact bad _ _ _ (by decide) (.inl rfl)
          · rw [e, he]; exact bad _ _ _ (by decide) (.inl rfl)
          · rw [e]
            have hpl := h.path
            simp only at hpath hle
            refine .inr (.inr ?_)
            exact { h with
              pastHeader := by simp, notFailed := by simp
              cursor := by simp only; omega
              path := by simp only; omega
              count := by simp only; omega
              num := by simp only; omega
              inOption := by simp, inValue := by simp }
        · exact bad _ _ _ (by decide) (.inl rfl)
        · exact bad _ _ _ (by decide) (.inl rfl)

theorem scanRun_ok (c : Params) (src : Nat → Byte) (k : Nat) (sc : Scan) (h : sc.Ok c) :
    (scanRun src c.rxCap.toNat c.pathCap.toNat k sc).Ok c := by
  induction k generalizing sc with
  | zero => exact h
  | succ k ih => rw [scanRun]; exact ih _ (scanAdvance_ok c src sc h)

theorem scan_rank_le (sc : Scan) : sc.rank ≤ scanFuel sc.n := by
  unfold Scan.rank scanFuel
  split <;> omega

/-- Enough passes end PARSE. -/
theorem scanRun_ends (src : Nat → Byte) (rxCap pathCap k : Nat) (sc : Scan) (h : sc.rank ≤ k) :
    (scanRun src rxCap pathCap k sc).phase.ended = true := by
  induction k generalizing sc with
  | zero => exact rank_zero sc (by omega)
  | succ k ih =>
    rw [scanRun]
    by_cases he : sc.phase.ended = true
    · rw [scanAdvance_ended _ _ _ sc he]
      have := scanRun_ended src rxCap pathCap k sc he
      rw [this]; exact he
    · have := rank_scanAdvance src rxCap pathCap sc (by simpa using he)
      exact ih _ (by omega)

/-- More passes than enough change nothing. -/
theorem scanRun_succ (src : Nat → Byte) (rxCap pathCap k : Nat) (sc : Scan) (h : sc.rank ≤ k) :
    scanRun src rxCap pathCap (k + 1) sc = scanRun src rxCap pathCap k sc := by
  induction k generalizing sc with
  | zero =>
    have := rank_zero sc (by omega)
    rw [scanRun_ended _ _ _ _ _ this, scanRun_ended _ _ _ _ _ this]
  | succ k ih =>
    by_cases he : sc.phase.ended = true
    · rw [scanRun_ended _ _ _ _ _ he, scanRun_ended _ _ _ _ _ he]
    · have := rank_scanAdvance src rxCap pathCap sc (by simpa using he)
      rw [scanRun, ih _ (by omega), scanRun]

end Sys2Proof.Machine
end

