-- ==== Sys2Proof/Laws/Rules.lean ====
section
/-! SUPPORT. What the rule of each command can do to a state, said once: its frame over the register
bank and memory (10_state.md R136), and what `exec` makes of it. -/

namespace Sys2Proof.Machine

/-- The rule that a command's completion step records. A wire element has none. -/
def commandRule : Instr → State → Result
  | .nop => complete
  | .decodeExt => decodeExtRule
  | .encodeExt => encodeExtRule
  | .parse => parseRule
  | .build => buildRule
  | .illegalReservedOpcode _ _ => raiseError .reservedOpcode 0
  | .illegalReservedBits _ _ => raiseError .reservedBits 0
  | .wireHeader _ _ _ _ | .optHdr _ _ | .optDeltaLit _ _ | .optDeltaExt8 _ | .optDeltaExt16 _
  | .optDeltaReserved _ | .optLenLit _ _ | .optLenExt8 _ | .optLenExt16 _ | .optLenReserved _
  | .payloadMarker => complete

/-- A command's meaning is the completion step of its rule (45_command_control.md R700). -/
theorem exec_command (i : Instr) (s : State) (h : i.position = .command) :
    exec i s = .next (State.completion i (commandRule i s) s) := by
  cases i <;> first | rfl | simp [Instr.position] at h

theorem decodeCommand_position (w : Word) : (decodeCommand w).position = .command := by
  simp only [decodeCommand]; split_ifs <;> rfl

/-! ## Four forms of a command's writes -/

theorem decodeExtRule_cases (s : State) :
    ∃ out e, decodeExtRule s = { st := { s with codecOut := out }, err := e } := by
  simp only [decodeExtRule]
  split
  · exact ⟨_, _, rfl⟩
  · split <;> exact ⟨_, _, rfl⟩

theorem encodeExtRule_cases (s : State) :
    ∃ out e, encodeExtRule s = { st := { s with codecEnc := out }, err := e } := by
  simp only [encodeExtRule]
  split <;> exact ⟨_, _, rfl⟩

/-- BUILD either changes `TX_LEN` alone, or stores a frame that fits `TX` (42_message_builder.md R601,
R606). -/
theorem buildRule_cases (s : State) :
    (∃ e, (e = .bodyLenGtCap ∨ e = .buildTklGt8 ∨ e = .bufferTooSmall) ∧
      buildRule s = raiseError e 0 { s with txLen := 0 }) ∨
    (s.frame.length ≤ s.params.txCap.toNat ∧ buildRule s =
      complete { s.storeBytes .tx 0 s.frame with txLen := BitVec.ofNat 16 s.frame.length }) := by
  simp only [buildRule]
  split_ifs with h1 h2 h3
  · exact .inl ⟨_, .inl rfl, rfl⟩
  · exact .inl ⟨_, .inr (.inl rfl), rfl⟩
  · exact .inl ⟨_, .inr (.inr rfl), rfl⟩
  · exact .inr ⟨by omega, rfl⟩

theorem finalScan_ends (s : State) : s.finalScan.phase.ended = true :=
  scanRun_ends _ _ _ _ _ (scan_rank_le _)

/-- PARSE either commits a finished scan or records a failure (41_message_parser.md R509, R511). -/
theorem parseRule_cases (s : State) :
    (s.finalScan.phase = .done ∧ parseRule s = complete (s.parseCommit s.finalScan)) ∨
    (∃ e pos, s.finalScan.phase = .failed e pos ∧ parseRule s = raiseError e pos s.parseFailure) := by
  have h := finalScan_ends s
  match hph : s.finalScan.phase with
  | .done => exact .inl ⟨rfl, by simp only [parseRule, hph]⟩
  | .failed e pos => exact .inr ⟨e, pos, rfl, by simp only [parseRule, hph]⟩
  | .header | .option | .delta _ _ | .length _ _ _ => simp [hph, Phase.ended] at h

/-! ## The failure writes of PARSE -/

theorem parseFailure_keeps {α : Type} (f : State → α)
    (hf : ∀ r ∈ parseResultRegs, ∀ v s, f (r.set v s) = f s)
    (hp : ∀ (s : State) p, f { s with pFlags := p } = f s)
    (hm : ∀ (s : State) m, f { s with mem := m } = f s) (s : State) :
    f s.parseFailure = f s := by
  unfold State.parseFailure
  simp only
  rw [hp]
  refine (hm _ _).trans ?_
  rw [foldl_drawReg_keeps f _ hf]
  exact hp _ _

section
variable (s : State)
@[simp] theorem parseFailure_params : s.parseFailure.params = s.params :=
  parseFailure_keeps State.params (fun r _ v s => set_params r v s) (fun _ _ => rfl) (fun _ _ => rfl) s
@[simp] theorem parseFailure_irqEn : s.parseFailure.irqEn = s.irqEn :=
  parseFailure_keeps State.irqEn (fun r _ v s => set_irqEn r v s) (fun _ _ => rfl) (fun _ _ => rfl) s
@[simp] theorem parseFailure_done : s.parseFailure.done = s.done :=
  parseFailure_keeps State.done (fun r _ v s => set_done r v s) (fun _ _ => rfl) (fun _ _ => rfl) s
@[simp] theorem parseFailure_overrun : s.parseFailure.overrun = s.overrun :=
  parseFailure_keeps State.overrun (fun r _ v s => set_overrun r v s) (fun _ _ => rfl)
    (fun _ _ => rfl) s
@[simp] theorem parseFailure_inflight : s.parseFailure.inflight = s.inflight :=
  parseFailure_keeps State.inflight (fun r _ v s => set_inflight r v s) (fun _ _ => rfl)
    (fun _ _ => rfl) s
@[simp] theorem parseFailure_taint : s.parseFailure.taint = s.taint :=
  parseFailure_keeps State.taint (fun r _ v s => set_taint r v s) (fun _ _ => rfl) (fun _ _ => rfl) s
@[simp] theorem parseFailure_scan : s.parseFailure.scan = s.scan :=
  parseFailure_keeps State.scan (fun r _ v s => set_scan r v s) (fun _ _ => rfl) (fun _ _ => rfl) s
@[simp] theorem parseFailure_draws : s.parseFailure.draws = s.draws :=
  parseFailure_keeps State.draws (fun r _ v s => set_draws r v s) (fun _ _ => rfl) (fun _ _ => rfl) s
@[simp] theorem parseFailure_inputs : s.parseFailure.inputs = s.inputs :=
  parseFailure_keeps State.inputs (fun r _ v s => set_inputs r v s) (fun _ _ => rfl)
    (fun _ _ => rfl) s
@[simp] theorem parseFailure_busData : s.parseFailure.busData = s.busData :=
  parseFailure_keeps State.busData (fun r _ v s => set_busData r v s) (fun _ _ => rfl)
    (fun _ _ => rfl) s
end

@[simp] theorem parseFailure_valid (s : State) : s.parseFailure.pFlags.valid = false := rfl

theorem parseFailure_mem (s : State) : s.parseFailure.mem = (s.drawBuffer .path).mem := by
  unfold State.parseFailure
  simp only [State.drawBuffer]
  rw [foldl_drawReg_keeps State.mem _ (fun r _ v s => set_mem r v s),
    foldl_drawReg_keeps State.params _ (fun r _ v s => set_params r v s),
    foldl_drawReg_keeps State.draws _ (fun r _ v s => set_draws r v s)]
  rfl

/-- Everything a failed PARSE does to the register bank (41_message_parser.md R509). -/
theorem parseFailure_get (s : State) (r : Reg) :
    (r ∈ parseResultRegs → r.get s.parseFailure =
      Config.drawWord s.draws r.offset &&& r.fieldMask) ∧
    (r ∉ parseResultRegs → r ≠ .pFlags → r.get s.parseFailure = r.get s) := by
  have hset : ∀ (t : State) p, r ≠ .pFlags → r.get { t with pFlags := p } = r.get t := by
    intro t p h; cases r <;> first | rfl | exact absurd rfl h
  constructor
  · intro h
    have hne : r ≠ .pFlags := by rintro rfl; exact absurd h (by decide)
    unfold State.parseFailure
    simp only
    rw [hset _ _ hne]
    refine (reg_view_mem r _ _).trans ?_
    rw [foldl_drawReg_get _ r _ h (by decide)]
    rfl
  · intro h hne
    unfold State.parseFailure
    simp only
    rw [hset _ _ hne]
    refine (reg_view_mem r _ _).trans ?_
    rw [foldl_drawReg_get_other _ r _ h (by rintro -; decide)]
    exact get_set_ne _ _ _ _ hne (by rintro - h; cases h)

/-! ## The frame of every rule -/

/-- A rule writes registers of the bank and buffers only. -/
theorem rule_keeps (i : Instr) (s : State) :
    (commandRule i s).st.params = s.params ∧ (commandRule i s).st.irqEn = s.irqEn ∧
    (commandRule i s).st.done = s.done ∧ (commandRule i s).st.overrun = s.overrun ∧
    (commandRule i s).st.inflight = s.inflight ∧ (commandRule i s).st.taint = s.taint ∧
    (commandRule i s).st.scan = s.scan ∧ (commandRule i s).st.draws = s.draws ∧
    (commandRule i s).st.inputs = s.inputs ∧ (commandRule i s).st.busData = s.busData := by
  cases i with
  | decodeExt =>
    obtain ⟨out, e, h⟩ := decodeExtRule_cases s
    rw [commandRule, h]
    exact ⟨rfl, rfl, rfl, rfl, rfl, rfl, rfl, rfl, rfl, rfl⟩
  | encodeExt =>
    obtain ⟨out, e, h⟩ := encodeExtRule_cases s
    rw [commandRule, h]
    exact ⟨rfl, rfl, rfl, rfl, rfl, rfl, rfl, rfl, rfl, rfl⟩
  | parse =>
    rcases parseRule_cases s with ⟨_, h⟩ | ⟨e, pos, _, h⟩ <;> rw [commandRule, h]
    · exact ⟨rfl, rfl, rfl, rfl, rfl, rfl, rfl, rfl, rfl, rfl⟩
    · simp only [raiseError_st, parseFailure_params, parseFailure_irqEn, parseFailure_done,
        parseFailure_overrun, parseFailure_inflight, parseFailure_taint, parseFailure_scan,
        parseFailure_draws, parseFailure_inputs, parseFailure_busData, and_self]
  | build =>
    rcases buildRule_cases s with ⟨e, _, h⟩ | ⟨_, h⟩ <;> rw [commandRule, h] <;>
      exact ⟨rfl, rfl, rfl, rfl, rfl, rfl, rfl, rfl, rfl, rfl⟩
  | nop | illegalReservedOpcode | illegalReservedBits | wireHeader | optHdr | optDeltaLit
  | optDeltaExt8 | optDeltaExt16 | optDeltaReserved | optLenLit | optLenExt8 | optLenExt16
  | optLenReserved | payloadMarker => exact ⟨rfl, rfl, rfl, rfl, rfl, rfl, rfl, rfl, rfl, rfl⟩

@[simp] theorem rule_params (i : Instr) (s : State) : (commandRule i s).st.params = s.params :=
  (rule_keeps i s).1
@[simp] theorem rule_irqEn (i : Instr) (s : State) : (commandRule i s).st.irqEn = s.irqEn :=
  (rule_keeps i s).2.1
@[simp] theorem rule_done (i : Instr) (s : State) : (commandRule i s).st.done = s.done :=
  (rule_keeps i s).2.2.1
@[simp] theorem rule_overrun (i : Instr) (s : State) : (commandRule i s).st.overrun = s.overrun :=
  (rule_keeps i s).2.2.2.1
@[simp] theorem rule_inflight (i : Instr) (s : State) :
    (commandRule i s).st.inflight = s.inflight := (rule_keeps i s).2.2.2.2.1
@[simp] theorem rule_taint (i : Instr) (s : State) : (commandRule i s).st.taint = s.taint :=
  (rule_keeps i s).2.2.2.2.2.1
@[simp] theorem rule_scan (i : Instr) (s : State) : (commandRule i s).st.scan = s.scan :=
  (rule_keeps i s).2.2.2.2.2.2.1
@[simp] theorem rule_draws (i : Instr) (s : State) : (commandRule i s).st.draws = s.draws :=
  (rule_keeps i s).2.2.2.2.2.2.2.1
@[simp] theorem rule_inputs (i : Instr) (s : State) : (commandRule i s).st.inputs = s.inputs :=
  (rule_keeps i s).2.2.2.2.2.2.2.2.1
@[simp] theorem rule_busData (i : Instr) (s : State) : (commandRule i s).st.busData = s.busData :=
  (rule_keeps i s).2.2.2.2.2.2.2.2.2

section
variable (i : Instr) (s : State)
@[simp] theorem completion_params :
    (State.completion i (commandRule i s) s).params = s.params := by
  unfold State.completion; split <;> simp
@[simp] theorem completion_overrun :
    (State.completion i (commandRule i s) s).overrun = s.overrun := by
  unfold State.completion; split <;> simp
@[simp] theorem completion_irqEn :
    (State.completion i (commandRule i s) s).irqEn = s.irqEn := by
  unfold State.completion; split <;> simp
@[simp] theorem completion_taint :
    (State.completion i (commandRule i s) s).taint = s.taint := by
  unfold State.completion; split <;> simp
@[simp] theorem completion_inputs :
    (State.completion i (commandRule i s) s).inputs = s.inputs := by
  unfold State.completion; split <;> simp
@[simp] theorem completion_draws :
    (State.completion i (commandRule i s) s).draws = s.draws := by
  unfold State.completion; split <;> simp
@[simp] theorem completion_busData :
    (State.completion i (commandRule i s) s).busData = s.busData := by
  unfold State.completion; split <;> simp
end

theorem parseCommit_get (s : State) (sc : Scan) (r : Reg) (h : r ∉ parseResultRegs)
    (h' : r ≠ .pFlags) : r.get (s.parseCommit sc) = r.get s := by
  cases r <;> first | exact absurd rfl h' | rfl | exact absurd (by decide) h

theorem get_codecOut (s : State) (o : CodecOut) (r : Reg) (h : r ≠ .codecOut) :
    r.get { s with codecOut := o } = r.get s := by
  cases r <;> first | exact absurd rfl h | rfl

theorem get_codecEnc (s : State) (o : CodecWord) (r : Reg) (h : r ≠ .codecEnc) :
    r.get { s with codecEnc := o } = r.get s := by
  cases r <;> first | exact absurd rfl h | rfl

theorem get_txLen (s : State) (n : BitVec 16) (r : Reg) (h : r ≠ .txLen) :
    r.get { s with txLen := n } = r.get s := by
  cases r <;> first | exact absurd rfl h | rfl

/-- A rule changes no register outside its outputs (10_state.md R136). -/
theorem rule_get (i : Instr) (s : State) (r : Reg) (h : r ∉ outputRegs i) :
    r.get (commandRule i s).st = r.get s := by
  cases i with
  | decodeExt =>
    obtain ⟨out, e, he⟩ := decodeExtRule_cases s
    simp only [commandRule, he]
    exact get_codecOut s out r (by rintro rfl; exact h (by decide))
  | encodeExt =>
    obtain ⟨out, e, he⟩ := encodeExtRule_cases s
    simp only [commandRule, he]
    exact get_codecEnc s out r (by rintro rfl; exact h (by decide))
  | parse =>
    simp only [outputRegs, List.mem_append, not_or, List.mem_cons, List.not_mem_nil, not_false_eq_true,
      and_true] at h
    rcases parseRule_cases s with ⟨_, he⟩ | ⟨e, pos, _, he⟩
    · simp only [commandRule, he, complete_st]; exact parseCommit_get s _ r h.1 h.2.1
    · simp only [commandRule, he, raiseError_st]; exact (parseFailure_get s r).2 h.1 h.2.1
  | build =>
    have hr : r ≠ .txLen := by rintro rfl; exact h (by decide)
    rcases buildRule_cases s with ⟨e, _, he⟩ | ⟨_, he⟩ <;> simp only [commandRule, he]
    · exact get_txLen s 0 r hr
    · exact (get_txLen _ _ r hr).trans (reg_view_mem r s _)
  | nop | illegalReservedOpcode | illegalReservedBits | wireHeader | optHdr | optDeltaLit
  | optDeltaExt8 | optDeltaExt16 | optDeltaReserved | optLenLit | optLenExt8 | optLenExt16
  | optLenReserved | payloadMarker => rfl

/-- The path that PARSE commits fits `PATH` (41_message_parser.md R508, R512). -/
theorem finalScan_ok (s : State) (h : s.theScan.Ok s.params) : s.finalScan.Ok s.params :=
  scanRun_ok s.params _ _ _ h

theorem finalScan_bounded (s : State) (h : s.theScan.Ok s.params) (hd : s.finalScan.phase = .done) :
    s.finalScan.Bounded s.params := by
  rcases finalScan_ok s h with e | ⟨e, pos, hph, _⟩ | b
  · rw [e] at hd; simp [Scan.start] at hd
  · rw [hd] at hph; cases hph
  · exact b

/-- A scan that fails carries an error, and a position other than 0 only with MalformedOption
(60_exceptions.md R802). -/
theorem finalScan_failed (s : State) (h : s.theScan.Ok s.params) {e : Error} {pos : Nat}
    (hf : s.finalScan.phase = .failed e pos) : e ≠ .ok ∧ (e.code = 4 ∨ pos = 0) := by
  rcases finalScan_ok s h with hs | ⟨e', pos', hph, hne, hpos⟩ | b
  · rw [hs] at hf; simp [Scan.start] at hf
  · rw [hf] at hph; cases hph; exact ⟨hne, hpos⟩
  · exact absurd hf (b.notFailed e pos)

/-- Everything a commit does to memory (41_message_parser.md R500, R510). -/
theorem get?_parseCommit (s : State) (sc : Scan) (x : Nat) :
    Memory.get? (s.parseCommit sc).mem x =
      if 0x40000 ≤ x ∧ x < 0x40000 + sc.path.length then sc.path[x - 0x40000]?
      else if 0x40000 ≤ x ∧ x < 0x40000 + s.params.pathCap.toNat then
        (Memory.get? s.mem x).map (fun _ => Config.drawByte s.draws x)
      else Memory.get? s.mem x := by
  have := get?_storeBytes (s.drawBuffer .path) .path 0 sc.path x
  rw [get?_drawBuffer] at this
  exact this

theorem get?_parseFailure (s : State) (x : Nat) :
    Memory.get? s.parseFailure.mem x =
      if 0x40000 ≤ x ∧ x < 0x40000 + s.params.pathCap.toNat then
        (Memory.get? s.mem x).map (fun _ => Config.drawByte s.draws x)
      else Memory.get? s.mem x := by
  rw [parseFailure_mem]; exact get?_drawBuffer s .path x

/-- A rule changes no byte outside its output buffers (20_memory.md R212). -/
theorem rule_mem (i : Instr) (s : State) (x : Nat) (hok : s.theScan.Ok s.params)
    (h : ∀ b ∈ outputBuffers i, ¬ (b.base ≤ x ∧ x < b.base + b.cap s.params)) :
    Memory.get? (commandRule i s).st.mem x = Memory.get? s.mem x := by
  cases i with
  | decodeExt =>
    obtain ⟨out, e, he⟩ := decodeExtRule_cases s
    simp only [commandRule, he]
  | encodeExt =>
    obtain ⟨out, e, he⟩ := encodeExtRule_cases s
    simp only [commandRule, he]
  | parse =>
    have h := h .path (by decide)
    simp only [Buffer.base, Buffer.cap] at h
    rcases parseRule_cases s with ⟨hd, he⟩ | ⟨e, pos, _, he⟩
    · have hp := (finalScan_bounded s hok hd).path
      simp only [commandRule, he, complete_st, get?_parseCommit]
      rw [if_neg (by omega), if_neg h]
    · simp only [commandRule, he, raiseError_st, get?_parseFailure]
      rw [if_neg h]
  | build =>
    have h := h .tx (by decide)
    simp only [Buffer.base, Buffer.cap] at h
    rcases buildRule_cases s with ⟨e, _, he⟩ | ⟨hl, he⟩ <;> simp only [commandRule, he]
    · rfl
    · rw [complete_st]
      refine (get?_storeBytes s .tx 0 s.frame x).trans ?_
      exact if_neg (by simp only [Buffer.base]; omega)
  | nop | illegalReservedOpcode | illegalReservedBits | wireHeader | optHdr | optDeltaLit
  | optDeltaExt8 | optDeltaExt16 | optDeltaReserved | optLenLit | optLenExt8 | optLenExt16
  | optLenReserved | payloadMarker => rfl

/-- A rule keeps the canonical form of memory. -/
theorem rule_wf (i : Instr) (s : State) (h : Memory.wf s.mem) :
    Memory.wf (commandRule i s).st.mem := by
  cases i with
  | decodeExt =>
    obtain ⟨out, e, he⟩ := decodeExtRule_cases s
    simpa only [commandRule, he] using h
  | encodeExt =>
    obtain ⟨out, e, he⟩ := encodeExtRule_cases s
    simpa only [commandRule, he] using h
  | parse =>
    rcases parseRule_cases s with ⟨_, he⟩ | ⟨e, pos, _, he⟩
    · simp only [commandRule, he, complete_st]
      exact store_wf _ _ _ (drawBuffer_wf s .path h)
    · simp only [commandRule, he, raiseError_st, parseFailure_mem]
      exact drawBuffer_wf s .path h
  | build =>
    rcases buildRule_cases s with ⟨e, _, he⟩ | ⟨_, he⟩ <;> simp only [commandRule, he]
    · exact h
    · exact store_wf _ _ _ h
  | nop | illegalReservedOpcode | illegalReservedBits | wireHeader | optHdr | optDeltaLit
  | optDeltaExt8 | optDeltaExt16 | optDeltaReserved | optLenLit | optLenExt8 | optLenExt16
  | optLenReserved | payloadMarker => exact h

/-! ## The wire elements -/

/-- A wire element's meaning is its effect on the scan of a running PARSE (10_state.md R134). -/
theorem exec_wire (i : Instr) (s : State) (h : i.position ≠ .command) :
    exec i s = .next (s.onScan (wireEffect s.rxSource s.params.pathCap.toNat i)) := by
  cases i <;> first | rfl | exact absurd rfl h

theorem onScan_running (f : Scan → Scan) (s : State) (h : s.running = some .parse) :
    s.onScan f = { s with scan := some (f s.theScan) } := by
  simp [State.onScan, h]

theorem onScan_idle (f : Scan → Scan) (s : State) (h : s.running ≠ some .parse) :
    s.onScan f = s := by
  simp [State.onScan, h]

end Sys2Proof.Machine
end

