-- ==== Sys2Proof/Laws/Step.lean ====
section
/-! SUPPORT. Everything a step can do, said once: later proofs split on these cases and never unfold
`step`. -/

namespace Sys2Proof.Machine

theorem running_of_inflight {s : State} {w : Word} (h : s.inflight = some w) :
    s.running = some (decodeCommand w) := by simp [State.running, h]

theorem inflight_of_running {s : State} {i : Instr} (h : s.running = some i) :
    ∃ w, s.inflight = some w ∧ decodeCommand w = i := by
  simpa [State.running] using h

theorem running_position {s : State} {i : Instr} (h : s.running = some i) :
    i.position = .command := by
  obtain ⟨w, _, rfl⟩ := inflight_of_running h
  exact decodeCommand_position w

@[simp] theorem tick_running (s : State) (rest : List Move) : (s.tick rest).running = s.running := rfl
@[simp] theorem tick_theScan (s : State) (rest : List Move) : (s.tick rest).theScan = s.theScan := rfl
@[simp] theorem tick_busy (s : State) (rest : List Move) : (s.tick rest).busy = s.busy := rfl
@[simp] theorem get_tick (r : Reg) (s : State) (rest : List Move) :
    r.get (s.tick rest) = r.get s := by cases r <;> rfl

/-! ## The moves -/

theorem step_move {s : State} {m : Move} {rest : List Move} (h : s.inputs = m :: rest) :
    step s = move m (s.tick rest) := by simp [step, h]

theorem completeMove_running (s : State) (i : Instr) (h : s.running = some i) :
    completeMove s = .next (State.completion i (commandRule i s) s) := by
  obtain ⟨w, hw, rfl⟩ := inflight_of_running h
  simp [completeMove, hw, exec_command _ s (decodeCommand_position w)]

theorem completeMove_idle (s : State) (h : s.running = none) : completeMove s = .next s := by
  have : s.inflight = none := by simpa [State.running] using h
  simp [completeMove, this]

/-- What the fetch of a pass finds is no command word. -/
theorem fetchWire_position {src : Nat → Byte} {rxCap : Nat} {sc : Scan} {i : Instr}
    (h : fetchWire src rxCap sc = .instr i) : i.position ≠ .command := by
  have key : ∀ d, fetchOf d = .instr i → ∃ rest, d = .ok (i, rest) := by
    intro d hd
    match d with
    | .ok (j, rest) => simp only [fetchOf, WireFetch.instr.injEq] at hd; exact ⟨rest, by rw [hd]⟩
    | .error .tooFewBytes => simp [fetchOf] at hd
    | .error .badVersion => simp [fetchOf] at hd
    | .error .markerByte => simp [fetchOf] at hd
  have hdel : ∀ b rest, decode .delta [b] = .ok (i, rest) → i.position ≠ .command := by
    intro b rest hd
    simp only [decode, decodeDelta] at hd
    split_ifs at hd <;> simp only [Except.map, Except.ok.injEq, Prod.mk.injEq, reduceCtorEq] at hd <;>
      (rw [← hd.1]; simp [Instr.position])
  have hlen : ∀ b rest, decode .length [b] = .ok (i, rest) → i.position ≠ .command := by
    intro b rest hd
    simp only [decode, decodeLength] at hd
    split_ifs at hd <;> simp only [Except.map, Except.ok.injEq, Prod.mk.injEq, reduceCtorEq] at hd <;>
      (rw [← hd.1]; simp [Instr.position])
  unfold fetchWire at h
  split at h
  · split at h
    · cases h
    · obtain ⟨rest, hd⟩ := key _ h
      match hs : slice src 0 (min sc.n 4) with
      | b0 :: b1 :: b2 :: b3 :: more =>
        rw [hs] at hd
        simp only [decode, decodeHeader] at hd
        split_ifs at hd <;>
          simp only [Except.map, Except.ok.injEq, Prod.mk.injEq, reduceCtorEq] at hd
        rw [← hd.1]; simp [Instr.position]
      | [] => rw [hs] at hd; simp [decode] at hd
      | [_] => rw [hs] at hd; simp [decode] at hd
      | [_, _] => rw [hs] at hd; simp [decode] at hd
      | [_, _, _] => rw [hs] at hd; simp [decode] at hd
  · split at h
    · obtain ⟨rest, hd⟩ := key _ h
      simp only [decode, decodeOption, Except.ok.injEq, Prod.mk.injEq] at hd
      rw [← hd.1]; split <;> simp [Instr.position]
    · cases h
  · obtain ⟨rest, hd⟩ := key _ h
    exact hdel _ _ hd
  · obtain ⟨rest, hd⟩ := key _ h
    exact hlen _ _ hd
  · cases h
  · cases h

/-- A PARSE that has no scan yet is at its start, where there is always something to do. -/
theorem fetchWire_start (s : State) (h : s.scan = none) : s.fetchWire ≠ .nothing := by
  simp only [State.fetchWire, State.theScan, h, Option.getD_none, Sys2Proof.Machine.fetchWire,
    Scan.start]
  split
  · simp
  · unfold fetchOf; split <;> simp

/-- A hidden step is one pass of the scan (41_message_parser.md R504). -/
theorem scanMove_running (s : State) (h : s.running = some .parse) :
    scanMove s = .next { s with
      scan := some (scanAdvance s.rxSource s.params.rxCap.toNat s.params.pathCap.toNat s.theScan) } := by
  have hs : ∀ f : Scan → Scan, s.onScan f = { s with scan := some (f s.theScan) } :=
    fun f => onScan_running f s h
  unfold scanMove
  rw [if_pos h]
  unfold scanAdvance
  match hf : Sys2Proof.Machine.fetchWire s.rxSource s.params.rxCap.toNat s.theScan with
  | .instr i => simp only [State.fetchWire, hf, exec_wire i s (fetchWire_position hf), hs, wireEffect]
  | .fail e => simp only [State.fetchWire, hf, hs]
  | .datagramEnd => simp only [State.fetchWire, hf, hs]
  | .nothing =>
    cases hsc : s.scan with
    | none => exact absurd hf (fetchWire_start s hsc)
    | some sc =>
      simp only [State.fetchWire, hf]
      simp only [State.theScan, hsc, Option.getD_some]
      rw [← hsc]

theorem scanMove_idle (s : State) (h : s.running ≠ some .parse) : scanMove s = .next s := by
  unfold scanMove; rw [if_neg h]

/-- Everything a step can do. -/
theorem step_cases (s : State) :
    (s.inputs = [] ∧ s.running = none ∧ step s = .next s) ∨
    (∃ i, s.inputs = [] ∧ s.running = some i ∧
      step s = .next (State.completion i (commandRule i (s.tick [])) (s.tick []))) ∨
    (∃ addr rest, s.inputs = .read addr :: rest ∧ step s = busRead addr (s.tick rest)) ∨
    (∃ addr v rest, s.inputs = .write addr v :: rest ∧ step s = busWrite addr v (s.tick rest)) ∨
    (∃ rest, s.inputs = .hardReset :: rest ∧ step s = .next (s.tick rest).hardReset) ∨
    (∃ rest, s.inputs = .scan :: rest ∧ s.running ≠ some .parse ∧ step s = .next (s.tick rest)) ∨
    (∃ rest, s.inputs = .scan :: rest ∧ s.running = some .parse ∧
      step s = .next { s.tick rest with scan := some (scanAdvance (s.tick rest).rxSource
        s.params.rxCap.toNat s.params.pathCap.toNat s.theScan) }) ∨
    (∃ rest, s.inputs = .complete :: rest ∧ s.running = none ∧ step s = .next (s.tick rest)) ∨
    (∃ i rest, s.inputs = .complete :: rest ∧ s.running = some i ∧
      step s = .next (State.completion i (commandRule i (s.tick rest)) (s.tick rest))) := by
  match hin : s.inputs with
  | [] =>
    cases hr : s.running with
    | none =>
      refine .inl ⟨rfl, rfl, ?_⟩
      have : s.busy = false := by
        have : s.inflight = none := by simpa [State.running] using hr
        simp [State.busy, this]
      simp [step, hin, noMove, this]
    | some i =>
      refine .inr (.inl ⟨i, rfl, rfl, ?_⟩)
      obtain ⟨w, hw, _⟩ := inflight_of_running hr
      simp only [step, hin, noMove, State.busy, hw, Option.isSome_some, if_true]
      exact completeMove_running _ _ hr
  | .read addr :: rest => exact .inr (.inr (.inl ⟨addr, rest, rfl, step_move hin⟩))
  | .write addr v :: rest => exact .inr (.inr (.inr (.inl ⟨addr, v, rest, rfl, step_move hin⟩)))
  | .hardReset :: rest =>
    exact .inr (.inr (.inr (.inr (.inl ⟨rest, rfl, step_move hin⟩))))
  | .scan :: rest =>
    by_cases hr : s.running = some .parse
    · refine .inr (.inr (.inr (.inr (.inr (.inr (.inl ⟨rest, rfl, hr, ?_⟩))))))
      rw [step_move hin, move, scanMove_running (s.tick rest) hr]
      rfl
    · refine .inr (.inr (.inr (.inr (.inr (.inl ⟨rest, rfl, hr, ?_⟩)))))
      rw [step_move hin, move, scanMove_idle (s.tick rest) hr]
  | .complete :: rest =>
    cases hr : s.running with
    | none =>
      refine .inr (.inr (.inr (.inr (.inr (.inr (.inr (.inl ⟨rest, rfl, rfl, ?_⟩)))))))
      rw [step_move hin, move, completeMove_idle (s.tick rest) hr]
    | some i =>
      refine .inr (.inr (.inr (.inr (.inr (.inr (.inr (.inr ⟨i, rest, rfl, rfl, ?_⟩)))))))
      rw [step_move hin, move, completeMove_running (s.tick rest) i hr]

/-- What a bus access answers (20_memory.md R211). -/
theorem busRead_cases (addr : BitVec 20) (s : State) :
    (∃ t, resolve s.params addr = .ok t ∧
      busRead addr s = .next { s with busData := s.readTarget t }) ∨
    (∃ f, resolve s.params addr = .error f ∧ busRead addr s = .fault f) := by
  cases h : resolve s.params addr with
  | ok t => exact .inl ⟨t, rfl, by simp [busRead, h]⟩
  | error f => exact .inr ⟨f, rfl, by simp [busRead, h]⟩

theorem busWrite_cases (addr : BitVec 20) (v : Word) (s : State) :
    (∃ t, resolve s.params addr = .ok t ∧ busWrite addr v s = .next (s.writeTarget t v)) ∨
    (∃ f, resolve s.params addr = .error f ∧ busWrite addr v s = .fault f) := by
  cases h : resolve s.params addr with
  | ok t => exact .inl ⟨t, rfl, by simp [busWrite, h]⟩
  | error f => exact .inr ⟨f, rfl, by simp [busWrite, h]⟩

/-- A write move to a register is `writeReg` (10_state.md R101). -/
theorem step_writeReg {s : State} {r : Reg} {v : Word} {rest : List Move}
    (h : s.inputs = .write r.addr v :: rest) :
    step s = .next ((s.tick rest).writeReg r v) := by
  rw [step_move h, move]; simp [busWrite, resolve_reg, State.writeTarget]

/-- A write move to a writable buffer word stores its lanes (20_memory.md R204, R205). -/
theorem step_writeWord {s : State} {b : Buffer} {w : Nat} {addr : BitVec 20} {v : Word}
    {rest : List Move} (hb : b.hostWritable = true) (ha : addr.toNat = b.base + 4 * w)
    (hw : 4 * w < b.cap s.params) (h : s.inputs = .write addr v :: rest) :
    step s = .next (((s.tick rest).taintIf ((s.tick rest).readsBufferNow b)).storeBytes b (4 * w)
      (writtenLanes v (b.cap s.params) (4 * w))) := by
  rw [step_move h, move]
  simp [busWrite, resolve_word _ b w addr ha hw, State.writeTarget, hb]

end Sys2Proof.Machine
end

