-- ==== Sys2Proof/Laws/Invariant.lean ====
section
/-! SUPPORT. What keeps the invariant of the machine: a completion, the resets, a register write and a
bus write. -/

namespace Sys2Proof.Machine

theorem theScan_ok (s : State) (h : Inv s) : s.theScan.Ok s.params := by
  unfold State.theScan
  cases hs : s.scan with
  | none => exact .inl rfl
  | some sc => exact h.scanOk sc hs

theorem inside_of_get (c : Params) (m : Memory)
    (h : ∀ x, (Memory.get? m x).isSome → ∃ b : Buffer, b.base ≤ x ∧ x < b.base + b.cap c) :
    MemoryInside c m := by
  intro cell hc
  apply h
  have : ∀ (m : Memory), cell ∈ m → (Memory.get? m cell.1).isSome := by
    intro m
    induction m with
    | nil => simp
    | cons d m ih =>
      intro hm
      obtain ⟨k, v⟩ := d
      simp only [Memory.get?]
      split
      · rfl
      · rename_i hne
        rcases List.mem_cons.mp hm with rfl | hm
        · exact absurd rfl hne
        · exact ih hm
  exact this m hc

theorem get_of_mem (m : Memory) (x : Nat) (h : (Memory.get? m x).isSome) : ∃ v, (x, v) ∈ m := by
  induction m with
  | nil => simp at h
  | cons d m ih =>
    obtain ⟨k, v⟩ := d
    simp only [Memory.get?] at h
    split at h
    · rename_i e; exact ⟨v, by rw [e]; simp⟩
    · obtain ⟨v, hv⟩ := ih h; exact ⟨v, List.mem_cons_of_mem _ hv⟩

theorem completion_get (i : Instr) (r : Result) (s : State) (x : Nat) :
    Memory.get? (State.completion i r s).mem x =
      if s.taint = true then
        if ∃ b ∈ outputBuffers i, b.base ≤ x ∧ x < b.base + b.cap s.params then
          (Memory.get? s.mem x).map (fun _ => Config.drawByte s.draws x)
        else Memory.get? s.mem x
      else Memory.get? r.st.mem x := by
  unfold State.completion
  by_cases h : s.taint = true
  · simp only [h, if_true]; exact get?_drawOutputs i s x
  · simp [h]

/-- A state has the invariant when memory differs from one that has it inside the buffers only. -/
theorem inv_of {s t : State} (h : Inv s) (hp : t.params = s.params) (hw : Memory.wf t.mem)
    (hm : ∀ x, (∀ b : Buffer, ¬ (b.base ≤ x ∧ x < b.base + b.cap s.params)) →
      Memory.get? t.mem x = Memory.get? s.mem x)
    (hb : ¬ (t.busy = true ∧ t.done = true)) (hs : t.scan.isSome = true → t.running = some .parse)
    (ho : ∀ sc, t.scan = some sc → sc.Ok s.params) : Inv t where
  params := by rw [hp]; exact h.params
  memory := hw
  inside := by
    apply inside_of_get
    intro x hx
    rw [hp]
    by_contra hn
    have hn' : ∀ b : Buffer, ¬ (b.base ≤ x ∧ x < b.base + b.cap s.params) := fun b hb => hn ⟨b, hb⟩
    rw [hm x hn'] at hx
    obtain ⟨v, hv⟩ := get_of_mem _ _ hx
    obtain ⟨b, hb⟩ := h.inside _ hv
    exact hn' b hb
  busyDone := hb
  scanRuns := hs
  scanOk := by rw [hp]; exact ho

theorem tick_inv {s : State} (rest) (h : Inv s) : Inv (s.tick rest) :=
  ⟨h.params, h.memory, h.inside, h.busyDone, h.scanRuns, h.scanOk⟩

theorem completion_inv {s : State} (i : Instr) (h : Inv s) :
    Inv (State.completion i (commandRule i s) s) := by
  apply inv_of h
  · simp
  · exact completion_wf _ _ _ h.memory (rule_wf _ _ h.memory)
  · intro x hx
    rw [completion_get]
    split
    · rw [if_neg]
      rintro ⟨b, _, hb⟩
      exact hx b hb
    · exact rule_mem i s x (theScan_ok s h) (fun b _ => hx b)
  · simp [State.busy]
  · simp
  · simp

theorem hardReset_inv {s : State} (h : Inv s) : Inv s.hardReset :=
  ⟨h.params, List.Pairwise.nil, (fun _ hc => nomatch hc), (fun hb => nomatch hb.1),
    (fun hs => nomatch hs), (fun _ hs => nomatch hs)⟩

theorem softReset_inv {s : State} (h : Inv s) : Inv s.softReset := by
  apply inv_of h
  · rfl
  · exact softReset_wf s h.memory
  · intro x hx
    show Memory.get? s.abandonBuffers.mem x = _
    unfold State.abandonBuffers
    split
    · rw [get?_foldl_drawBuffer, if_neg]
      rintro ⟨b, _, hb⟩; exact hx b hb
    · rfl
  · simp [State.softReset, State.hardReset, State.powerUp, State.busy]
  · simp [State.softReset, State.hardReset, State.powerUp]
  · simp [State.softReset, State.hardReset, State.powerUp]

theorem set_inv {s : State} (r : Reg) (v : Word) (h : Inv s) : Inv (r.set v s) := by
  apply inv_of h
  · simp
  · simpa using h.memory
  · intro x _; simp
  · simpa [State.busy] using h.busyDone
  · simpa [State.running] using h.scanRuns
  · simpa using h.scanOk

theorem same_inv {s t : State} (h : Inv s) (hp : t.params = s.params) (hm : t.mem = s.mem)
   (hi : t.inflight = s.inflight) (hd : t.done = true → s.done = true) (hs : t.scan = s.scan) : Inv t := by
  apply inv_of h hp
  · rw [hm]; exact h.memory
  · intro x _; rw [hm]
  · rintro ⟨hb, hd'⟩
    exact h.busyDone ⟨by simpa [State.busy, hi] using hb, hd hd'⟩
  · rw [hs]; intro hx; have := h.scanRuns hx; simpa [State.running, hi] using this
  · rw [hs]; exact h.scanOk

theorem writeTarget_inv {s : State} (t : Target) (v : Word) (addr : BitVec 20)
    (ht : resolve s.params addr = .ok t) (h : Inv s) :
    Inv (s.writeTarget t v) := by
  cases t with
  | hole => exact h
  | word b i =>
    have hr := resolve_ok_word ht
    simp only [State.writeTarget]
    split
    · apply inv_of h
      · rfl
      · exact store_wf _ _ _ h.memory
      · intro x hx
        rw [get?_storeBytes, if_neg]
        · rfl
        · rw [writtenLanes_length]
          have := hx b
          omega
      · exact h.busyDone
      · exact h.scanRuns
      · exact h.scanOk
    · exact h
  | reg r =>
    simp only [State.writeTarget]
    rcases writeReg_cases r v s with
      ⟨rfl, hb, e⟩ | ⟨rfl, hb, e⟩ | ⟨_, _, e⟩ | ⟨_, _, e⟩ | ⟨rfl, e⟩ | ⟨_, e⟩ |
      ⟨_, _, _, _, e⟩ <;> rw [e]
    · exact softReset_inv h
    · exact same_inv h rfl rfl rfl id rfl
    · exact same_inv h rfl rfl rfl id rfl
    · refine @inv_of s _ h rfl h.memory (fun _ _ => rfl) ?_ ?_ ?_
      · simp
      · simp
      · simp
    · refine @same_inv s _ h rfl rfl rfl ?_ rfl
      simp only [State.acknowledge]
      intro hd
      simp at hd; exact hd.1
    · exact set_inv r v (same_inv h rfl rfl rfl id rfl)
    · exact h

end Sys2Proof.Machine
end

