-- ==== Sys2Proof/Laws/Message.lean ====
section
/-! SUPPORT. PARSE on the bytes of a legal message, option by option (41_message_parser.md R513), and
the bytes that BUILD frames as a message. -/

namespace Sys2Proof.Machine

/-- A byte source holds `bs` from index `p` on. -/
def Holds (src : Nat → Byte) (p : Nat) (bs : List Byte) : Prop :=
  ∀ i (h : i < bs.length), src (p + i) = bs[i]

theorem holds_append {src p} {a b : List Byte} : Holds src p (a ++ b) ↔ Holds src p a ∧ Holds src (p + a.length) b := by
  constructor
  · intro h
    refine ⟨fun i hi => ?_, fun i hi => ?_⟩
    · rw [h i (by simp; omega)]; simp [List.getElem_append_left hi]
    · rw [Nat.add_assoc, h (a.length + i) (by simp; omega)]; simp
  · rintro ⟨h1, h2⟩ i hi
    by_cases hlt : i < a.length
    · rw [h1 i hlt]; simp [List.getElem_append_left hlt]
    · rw [List.getElem_append_right (by omega)]
      have := h2 (i - a.length) (by simp at hi; omega)
      rw [← this]; congr 1; omega

theorem holds_cons {src p} {x : Byte} {b : List Byte} : Holds src p (x :: b) ↔ src p = x ∧ Holds src (p + 1) b := by
  have := holds_append (src := src) (p := p) (a := [x]) (b := b)
  simp only [List.singleton_append, List.length_singleton] at this
  rw [this]
  constructor
  · rintro ⟨h, h'⟩; exact ⟨h 0 (by simp), h'⟩
  · rintro ⟨h, h'⟩; refine ⟨fun i hi => ?_, h'⟩
    simp at hi; subst hi; simpa using h

theorem slice_of_holds {src p} {bs : List Byte} (h : Holds src p bs) : slice src p bs.length = bs := by
  apply List.ext_getElem?
  intro i
  by_cases hi : i < bs.length
  · rw [slice_getElem? _ _ _ _ hi, h i hi]; simp [hi]
  · rw [List.getElem?_eq_none (by simp; omega), List.getElem?_eq_none (by omega)]

theorem decode_holds {v : Nat} {n : BitVec 4} {e : List Byte} {src p stop}
    (h : nibbleEncode v = some (n, e)) (hh : Holds src p e) (hs : p + e.length ≤ stop) :
    nibbleDecode n src p stop = .ok v (p + e.length) ∧ n ≠ 15 := by
  rcases nibbleEncode_some h with ⟨hv, rfl, rfl⟩ | ⟨h1, h2, rfl, rfl⟩ | ⟨h1, h2, rfl, rfl⟩
  · have : (BitVec.ofNat 4 v).toNat = v := by simp; omega
    refine ⟨?_, ?_⟩
    · rw [nibbleDecode_lit _ _ _ _ (by omega), this]; rfl
    · intro h; rw [h] at this; simp at this; omega
  · rw [holds_cons] at hh
    simp only [List.length_singleton] at hs ⊢
    refine ⟨?_, by decide⟩
    rw [nibbleDecode_13, if_neg (by omega), hh.1]
    simp; omega
  · rw [holds_cons, holds_cons] at hh
    simp only [List.length_cons, List.length_nil] at hs ⊢
    refine ⟨?_, by decide⟩
    rw [nibbleDecode_14, if_neg (by omega), hh.1, hh.2.1, be16_bytes]
    simp; omega

/-- The path accumulator over a list of segments (41_message_parser.md R508). -/
def accPath (l : List (List Byte)) (a : Bool × List Byte) : Bool × List Byte :=
  l.foldl (fun a v => (true, joinPath a.1 a.2 v)) a

theorem accPath_true (l) (p) : accPath l (true, p) = (true, p ++ l.flatMap (fun v => 0x2F :: v)) := by
  induction l generalizing p with
  | nil => simp [accPath]
  | cons v l ih =>
    have : accPath (v :: l) (true, p) = accPath l (true, p ++ 0x2F :: v) := rfl
    rw [this, ih]; simp

theorem accPath_false (l) : accPath l (false, []) = (decide (l ≠ []), joinSegments l) := by
  cases l with
  | nil => simp [accPath, joinSegments]
  | cons v l =>
    have : accPath (v :: l) (false, []) = accPath l (true, v) := by simp [accPath, joinPath]
    rw [this, accPath_true]
    simp [joinSegments]
    clear this
    induction l generalizing v with
    | nil => simp
    | cons w l ih => simp [List.intercalate, List.intersperse] at ih ⊢; rw [← ih w]

theorem accPath_len (l) (a) : a.2.length ≤ (accPath l a).2.length := by
  induction l generalizing a with
  | nil => exact Nat.le_refl _
  | cons v l ih =>
    have : accPath (v :: l) a = accPath l (true, joinPath a.1 a.2 v) := rfl
    rw [this]
    refine Nat.le_trans ?_ (ih _)
    simp only [joinPath_length]; omega

/-- The values of the options numbered `k`, from running number `num` on. -/
def valuesFrom (num : Nat) (opts : List (Nat × List Byte)) (k : Nat) : List (List Byte) :=
  ((numbered num opts).filter (fun o => decide (o.1 = k))).map Prod.snd

theorem valuesFrom_cons (num δ v opts k) : valuesFrom num ((δ, v) :: opts) k = if num + δ = k then v :: valuesFrom (num+δ) opts k else valuesFrom (num+δ) opts k := by
  simp only [valuesFrom, numbered, List.filter_cons]
  split <;> rename_i h <;> simp at h <;> simp [h]

/-- The Content-Format of the last value, or `c` when there is none (41_message_parser.md R507). -/
def lastCf (l : List (List Byte)) (c : Word) : Word :=
  match l.getLast? with
  | none => c
  | some v => BitVec.ofNat 32 (beNat v)

theorem lastCf_nil (c) : lastCf [] c = c := rfl
theorem lastCf_cons (v l c) : lastCf (v :: l) c = lastCf l (BitVec.ofNat 32 (beNat v)) := by
  cases l with
  | nil => rfl
  | cons w l => simp [lastCf, List.getLast?_cons]

/-- A scan past a list of options that pass every check. -/
def Scan.past (sc : Scan) (opts : List (Nat × List Byte)) : Scan :=
  { sc with
    num := sc.num + (opts.map Prod.fst).sum
    count := sc.count + opts.length
    p := sc.p + (wireOptions opts).length
    phase := .option
    path := (accPath (valuesFrom sc.num opts 11) (sc.pathPresent, sc.path)).2
    pathPresent := (accPath (valuesFrom sc.num opts 11) (sc.pathPresent, sc.path)).1
    cf := lastCf (valuesFrom sc.num opts 12) sc.cf
    cfPresent := sc.cfPresent || decide (valuesFrom sc.num opts 12 ≠ []) }

theorem scanRun_option (src rxCap pathCap) (sc : Scan) (δ : Nat) (v : List Byte) (hph : sc.phase = .option)
    (hδ : δ ≤ maxExtValue) (hv : v.length ≤ maxExtValue) (hh : Holds src sc.p (wireOption δ v))
    (hn : sc.p + (wireOption δ v).length ≤ sc.n)
    (hp : sc.num + δ = 11 → (joinPath sc.pathPresent sc.path v).length ≤ pathCap)
    (hc : sc.num + δ = 12 → v.length ≤ 4) :
    scanRun src rxCap pathCap 3 sc = Scan.past sc [(δ, v)] := by
  obtain ⟨⟨dn, de⟩, hd⟩ : ∃ r, nibbleEncode δ = some r := by
    unfold nibbleEncode; unfold maxExtValue at *; split_ifs <;> exact ⟨_, rfl⟩
  obtain ⟨⟨ln, le⟩, hl⟩ : ∃ r, nibbleEncode v.length = some r := by
    unfold nibbleEncode; unfold maxExtValue at *; split_ifs <;> exact ⟨_, rfl⟩
  have hw : wireOption δ v = nibbleByte dn ln :: (de ++ (le ++ v)) := by simp [wireOption, hd, hl]
  have hwl : (wireOption δ v).length = 1 + (de.length + (le.length + v.length)) := by rw [hw]; simp; omega
  rw [hw, holds_cons, holds_append, holds_append] at hh
  obtain ⟨hb, h1, h2, h3⟩ := hh
  have d1 := decode_holds (stop := sc.n) hd h1 (by omega)
  have d2 := decode_holds (stop := sc.n) hl h2 (by omega)
  have hne : nibbleByte dn ln ≠ 0xFF := by rw [ne_eq, nibbleByte_eq_marker]; exact fun h => d1.2 h.1
  have a1 := scanAdvance_option_header src rxCap pathCap sc hph (by omega) (by rw [hb]; exact hne)
  rw [hb] at a1
  have a2 := scanAdvance_delta src rxCap pathCap { sc with p := sc.p + 1, phase := .delta sc.p (nibbleByte dn ln) } sc.p _ rfl
  rw [if_neg hne, hiNibble_nibbleByte, loNibble_nibbleByte, if_neg d1.2, if_neg d2.2] at a2
  simp only [d1.1] at a2
  have a3 := scanAdvance_length src rxCap pathCap { sc with p := sc.p + 1 + de.length, phase := .length sc.p (nibbleByte dn ln) δ } sc.p δ _ rfl
  rw [if_neg hne, hiNibble_nibbleByte, loNibble_nibbleByte, if_neg d1.2, if_neg d2.2] at a3
  simp only [d2.1] at a3
  simp only [scanRun, a1, a2, a3]
  have hs : slice src (sc.p + 1 + de.length + le.length) v.length = v := slice_of_holds h3
  unfold scanValue
  rw [if_neg (by simp only; omega)]
  simp only [hs]
  unfold Scan.past
  have hsum : sc.p + (wireOptions [(δ, v)]).length = sc.p + 1 + de.length + le.length + v.length := by
    simp [wireOptions, hwl]; omega
  have e11 := valuesFrom_cons sc.num δ v [] 11
  have e12 := valuesFrom_cons sc.num δ v [] 12
  have enil : ∀ k n, valuesFrom n [] k = [] := by intro k n; rfl
  rw [enil] at e11 e12
  rw [hsum, e11, e12]
  by_cases c11 : sc.num + δ = 11
  · have c12 : ¬ sc.num + δ = 12 := by omega
    rw [if_pos c11, if_neg (by have := hp c11; omega), if_pos c11, if_neg c12]
    simp [accPath, lastCf]
  · by_cases c12 : sc.num + δ = 12
    · rw [if_neg c11, if_pos c12, if_neg (by have := hc c12; omega), if_neg c11, if_pos c12]
      simp [accPath, lastCf]
    · rw [if_neg c11, if_neg c12, if_neg c11, if_neg c12]
      simp [accPath, lastCf]

theorem past_cons (sc : Scan) (o) (opts) : Scan.past (Scan.past sc [o]) opts = Scan.past sc (o :: opts) := by
  obtain ⟨δ, v⟩ := o
  have e := fun k => valuesFrom_cons sc.num δ v opts k
  have e1 := fun k => valuesFrom_cons sc.num δ v [] k
  have enil : ∀ k n, valuesFrom n [] k = [] := by intro k n; rfl
  simp only [enil] at e1
  unfold Scan.past
  simp only [e, e1, List.map_cons, List.map_nil, List.sum_cons, List.sum_nil, Nat.add_zero]
  have hw : (wireOptions ((δ, v) :: opts)).length = (wireOptions [(δ, v)]).length + (wireOptions opts).length := by simp [wireOptions]
  rw [hw]
  by_cases c11 : sc.num + δ = 11
  · have c12 : ¬ sc.num + δ = 12 := by omega
    simp only [if_pos c11, if_neg c12]
    simp [accPath, lastCf]
    omega
  · by_cases c12 : sc.num + δ = 12
    · simp only [if_neg c11, if_pos c12, lastCf_cons]
      simp [accPath, lastCf_nil]
      omega
    · simp only [c11, c12, if_false]
      simp [accPath, lastCf]
      omega

theorem scanRun_options (src rxCap pathCap) (opts : List (Nat × List Byte)) (sc : Scan) (hph : sc.phase = .option)
    (ho : ∀ o ∈ opts, o.1 ≤ maxExtValue ∧ o.2.length ≤ maxExtValue)
    (hh : Holds src sc.p (wireOptions opts))
    (hn : sc.p + (wireOptions opts).length ≤ sc.n)
    (hp : (accPath (valuesFrom sc.num opts 11) (sc.pathPresent, sc.path)).2.length ≤ pathCap)
    (hc : ∀ v ∈ valuesFrom sc.num opts 12, v.length ≤ 4) :
    scanRun src rxCap pathCap (3 * opts.length) sc = Scan.past sc opts := by
  induction opts generalizing sc with
  | nil =>
    show sc = _
    obtain ⟨⟩ := sc
    simp only at hph
    subst hph
    simp [Scan.past, valuesFrom, numbered, accPath, lastCf, wireOptions]
  | cons o opts ih =>
    obtain ⟨δ, v⟩ := o
    have hw : wireOptions ((δ, v) :: opts) = wireOption δ v ++ wireOptions opts := by simp [wireOptions]
    have hw1 : (wireOptions [(δ, v)]) = wireOption δ v := by simp [wireOptions]
    rw [hw, holds_append] at hh
    rw [hw, List.length_append] at hn
    have e := fun k => valuesFrom_cons sc.num δ v opts k
    have e1 := fun k => valuesFrom_cons sc.num δ v [] k
    have enil : ∀ k n, valuesFrom n [] k = [] := by intro k n; rfl
    simp only [enil] at e1
    rw [e] at hp hc
    have h1 := scanRun_option src rxCap pathCap sc δ v hph (ho (δ, v) (by simp)).1 (ho (δ, v) (by simp)).2 hh.1 (by omega)
      (by intro h; rw [if_pos h] at hp; exact Nat.le_trans (accPath_len (valuesFrom (sc.num + δ) opts 11) (true, joinPath sc.pathPresent sc.path v)) hp)
      (by intro h; rw [if_pos h] at hc; exact hc v (by simp))
    rw [show 3 * ((δ, v) :: opts).length = 3 + 3 * opts.length by simp; omega, scanRun_add, h1, ih]
    · exact past_cons sc (δ, v) opts
    · rfl
    · exact fun o h => ho o (List.mem_cons_of_mem _ h)
    · simp only [Scan.past, hw1]; exact hh.2
    · simp only [Scan.past, hw1]; omega
    · simp only [Scan.past, e1, List.map_cons, List.map_nil, List.sum_cons, List.sum_nil, Nat.add_zero]
      by_cases c11 : sc.num + δ = 11
      · rw [if_pos c11] at hp ⊢; exact hp
      · rw [if_neg c11] at hp ⊢; exact hp
    · simp only [Scan.past, List.map_cons, List.map_nil, List.sum_cons, List.sum_nil, Nat.add_zero]
      intro w hw; apply hc; split
      · exact List.mem_cons_of_mem _ hw
      · exact hw

theorem scanRun_fuel (src : Nat → Byte) (rxCap pathCap : Nat) (sc fin : Scan) (k : Nat) (h : scanRun src rxCap pathCap k sc = fin) (he : fin.phase.ended = true)
   (hk : k ≤ scanFuel sc.n) : scanRun src rxCap pathCap (scanFuel sc.n) sc = fin := by
  rw [show scanFuel sc.n = k + (scanFuel sc.n - k) by omega, scanRun_add, h, scanRun_ended _ _ _ _ _ he]

theorem numbered_vals (m : Message) (k) : m.valuesOf k = valuesFrom 0 m.options k := rfl

theorem wireOptions_len (opts : List (Nat × List Byte)) (ho : ∀ o ∈ opts, o.1 ≤ maxExtValue ∧ o.2.length ≤ maxExtValue) : opts.length ≤ (wireOptions opts).length := by
  induction opts with
  | nil => simp
  | cons o opts ih =>
    have := ih (fun o h => ho o (List.mem_cons_of_mem _ h))
    have h1 : 1 ≤ (wireOption o.1 o.2).length := by
      obtain ⟨⟨dn, de⟩, hd⟩ : ∃ r, nibbleEncode o.1 = some r := by
        have := (ho o (by simp)).1
        unfold nibbleEncode; unfold maxExtValue at *; split_ifs <;> exact ⟨_, rfl⟩
      obtain ⟨⟨ln, le⟩, hl⟩ : ∃ r, nibbleEncode o.2.length = some r := by
        have := (ho o (by simp)).2
        unfold nibbleEncode; unfold maxExtValue at *; split_ifs <;> exact ⟨_, rfl⟩
      simp [wireOption, hd, hl]
    simp only [wireOptions, List.flatMap_cons, List.length_append, List.length_cons] at *
    omega

/-- The scan of an `n`-byte datagram right after the header and the token of a message. -/
def Message.atOptions (m : Message) (n : Nat) : Scan :=
  { Scan.start n with
    t := m.t, tkl := m.tkl, code := m.code, mid := m.mid, token := m.token
    p := 4 + m.token.length, phase := .option }

/-- The bytes of a message up to its payload. -/
def Message.headBytes (m : Message) : List Byte :=
  [headerByte m.t m.tkl, m.code, highByte m.mid, lowByte m.mid] ++ (m.token ++ wireOptions m.options)

theorem bytes_eq_head (m : Message) : m.bytes = m.headBytes ++ wirePayload m.payload := by
  simp [Message.bytes, Message.headBytes]

theorem headBytes_length (m : Message) :
    m.headBytes.length = 4 + m.token.length + (wireOptions m.options).length := by
  simp [Message.headBytes]; omega

/-- PARSE of an `n`-byte datagram that begins with the header, token and options of a legal message
stands right after these options, whatever follows them (41_message_parser.md R504). -/
theorem scanRun_head (src : Nat → Byte) (c : Params) (m : Message) (n : Nat) (hl : m.legal c)
    (hh : Holds src 0 m.headBytes) (hn : m.headBytes.length ≤ n) (hc : n ≤ c.rxCap.toNat) :
    scanRun src c.rxCap.toNat c.pathCap.toNat (1 + 3 * m.options.length) (Scan.start n) =
      Scan.past (m.atOptions n) m.options := by
  obtain ⟨ht8, ho, hp, hcf, -⟩ := hl
  have htk : m.tkl.toNat = m.token.length := by simp [Message.tkl]; omega
  rw [headBytes_length] at hn
  simp only [Message.headBytes] at hh
  rw [holds_append, holds_append] at hh
  obtain ⟨hb0, hb1, hb2⟩ := hh
  simp only [List.length_cons, List.length_nil, Nat.zero_add, Nat.reduceAdd] at hb1 hb2
  simp only [holds_cons, Nat.zero_add, Nat.reduceAdd] at hb0
  obtain ⟨b0, b1, b2, b3, -⟩ := hb0
  have h1 : scanAdvance src c.rxCap.toNat c.pathCap.toNat (Scan.start n) = m.atOptions n := by
    rw [scanAdvance_header _ _ _ _ rfl, if_neg (by simp [Scan.start]; omega), if_neg (by simp [Scan.start]; omega)]
    rw [b0, b1, b2, b3, if_neg (by simp), highByte_append_lowByte]
    have e1 : loNibble (headerByte m.t m.tkl) = m.tkl := tkl_headerByte _ _
    have e2 : BitVec.extractLsb' 4 2 (headerByte m.t m.tkl) = m.t := type_headerByte _ _
    rw [e1, e2]
    rcases scanWireHeader_cases src m.t m.tkl m.code m.mid (Scan.start n) rfl with ⟨_, e⟩ | ⟨_, h, e⟩ | ⟨_, _, e⟩
    · omega
    · simp [Scan.start] at h; omega
    · rw [e, htk, slice_of_holds hb1]; rfl
  rw [scanRun_add]
  show scanRun _ _ _ (3 * m.options.length) (scanAdvance _ _ _ _) = _
  rw [h1]
  exact scanRun_options src c.rxCap.toNat c.pathCap.toNat m.options (m.atOptions n) rfl ho hb2
    (by simp [Message.atOptions, Scan.start]; omega)
    (by
      show (accPath (valuesFrom 0 m.options 11) (false, [])).2.length ≤ _
      rw [accPath_false]; exact hp) hcf

/-- The scan at the end of a legal message. -/
def finalScanOf (m : Message) : Scan :=
  { Scan.past (m.atOptions m.bytes.length) m.options with
    phase := .done, payPresent := decide (m.payload ≠ []), payOff := m.payloadOffset, payLen := m.payload.length }

theorem scanRun_legal (src : Nat → Byte) (c : Params) (m : Message) (hl : m.legal c) (hh : Holds src 0 m.bytes) :
    scanRun src c.rxCap.toNat c.pathCap.toNat (scanFuel m.bytes.length) (Scan.start m.bytes.length) = finalScanOf m := by
  have hb := hh
  rw [bytes_eq_head, holds_append] at hb
  obtain ⟨hb0, hb3⟩ := hb
  have hlen : m.bytes.length = m.headBytes.length + (wirePayload m.payload).length := by
    rw [bytes_eq_head, List.length_append]
  have h2 := scanRun_head src c m m.bytes.length hl hb0 (by omega) hl.2.2.2.2
  have ho := hl.2.1
  have hhl := headBytes_length m
  set n := m.bytes.length with hnd
  set sc1 := m.atOptions n with hsc1
  have h3 : scanAdvance src c.rxCap.toNat c.pathCap.toNat (Scan.past sc1 m.options) = finalScanOf m := by
    have hadvn : (Scan.past sc1 m.options).n = n := rfl
    have hadvp : (Scan.past sc1 m.options).p = 4 + m.token.length + (wireOptions m.options).length := rfl
    cases hpay : m.payload with
    | nil =>
      rw [scanAdvance_option_end _ _ _ _ rfl (by rw [hadvn, hadvp, hlen, hhl, hpay]; simp [wirePayload])]
      have e0 : finalScanOf m = { Scan.past sc1 m.options with phase := .done, payPresent := decide (m.payload ≠ []), payOff := m.payloadOffset, payLen := m.payload.length } := rfl
      have q1 : decide (m.payload ≠ []) = false := by rw [hpay]; rfl
      have q2 : m.payloadOffset = n := by unfold Message.payloadOffset; rw [hpay]; rfl
      have q3 : m.payload.length = 0 := by rw [hpay]; rfl
      rw [e0, q1, q2, q3]; rfl
    | cons x xs =>
      have hpl : (wirePayload m.payload).length = 1 + m.payload.length := by rw [hpay]; simp [wirePayload]; omega
      have : src (Scan.past sc1 m.options).p = 0xFF := by
        rw [hadvp]
        have hb3' := hb3
        rw [hpay, hhl, Nat.zero_add] at hb3'
        simp only [wirePayload, holds_cons] at hb3'
        exact hb3'.1
      have hl1 : m.payload.length = xs.length + 1 := by rw [hpay]; rfl
      rw [scanAdvance_option_marker _ _ _ _ rfl (by rw [hadvn, hadvp]; omega) this, if_neg (by rw [hadvn, hadvp]; omega)]
      have e1 : (Scan.past sc1 m.options).p + 1 = m.payloadOffset := by
        rw [hadvp]; unfold Message.payloadOffset; rw [← hnd]; omega
      have e2 : (Scan.past sc1 m.options).n - ((Scan.past sc1 m.options).p + 1) = m.payload.length := by
        rw [hadvn, hadvp]; omega
      rw [e2, e1]
      have e0 : finalScanOf m = { Scan.past sc1 m.options with phase := .done, payPresent := decide (m.payload ≠ []), payOff := m.payloadOffset, payLen := m.payload.length } := rfl
      have q1 : decide (m.payload ≠ []) = true := by rw [hpay]; rfl
      rw [e0, q1]
  have hol := wireOptions_len m.options ho
  apply scanRun_fuel _ _ _ (Scan.start n) _ (1 + 3 * m.options.length + 1)
  · rw [scanRun_add, h2]; exact h3
  · rfl
  · show _ ≤ 3 * n + 4
    omega

theorem holds_of_rx (s : State) (bs : List Byte) (h : ∀ i < bs.length, Memory.get? s.mem (Buffer.rx.base + i) = bs[i]?) : Holds s.rxSource 0 bs := by
  intro i hi
  have := h i hi
  rw [List.getElem?_eq_getElem hi] at this
  rw [Nat.zero_add]
  exact readByte_of_get? this

theorem finalScan_legal (s : State) (m : Message) (hs : s.scan = none) (hl : m.legal s.params)
   (hr : s.rxHolds m.bytes) : s.finalScan = finalScanOf m := by
  obtain ⟨h1, h2⟩ := hr
  have hth : s.theScan = Scan.start m.bytes.length := by simp [State.theScan, hs, h1]
  unfold State.finalScan
  rw [hth]
  exact scanRun_legal s.rxSource s.params m hl (holds_of_rx s _ h2)

theorem beNat_lt (v : List Byte) : beNat v < 256 ^ v.length := by
  have : ∀ (v : List Byte) (a : Nat), v.foldl (fun acc b => acc * 256 + b.toNat) a < (a + 1) * 256 ^ v.length := by
    intro v
    induction v with
    | nil => simp
    | cons b v ih =>
      intro a
      simp only [List.foldl_cons, List.length_cons]
      have h1 := ih (a * 256 + b.toNat)
      have h2 := b.isLt
      calc _ < _ := h1
        _ ≤ ((a + 1) * 256) * 256 ^ v.length := by apply Nat.mul_le_mul_right; omega
        _ = _ := by rw [Nat.pow_succ]; ring
  simpa [beNat] using this v 0

theorem token_byte (token : List Byte) (i : Nat) (hi : i < 8) :
  (if i < 4 then lane (tokenWord token 0) i else lane (tokenWord token 4) (i - 4)) = token.getD i 0 := by
  have h0 := lane_ofLanes (token.getD 0 0) (token.getD 1 0) (token.getD 2 0) (token.getD 3 0)
  have h4 := lane_ofLanes (token.getD 4 0) (token.getD 5 0) (token.getD 6 0) (token.getD 7 0)
  unfold tokenWord
  interval_cases i
  · exact h0.1
  · exact h0.2.1
  · exact h0.2.2.1
  · exact h0.2.2.2
  · exact h4.1
  · exact h4.2.1
  · exact h4.2.2.1
  · exact h4.2.2.2

theorem beNat_uint (v : Word) : beNat (uintBytes v) = v.toNat ∧ (uintBytes v).length ≤ 4 := by
  have hl : ∀ k, (lane v k).toNat = v.toNat / 2 ^ (8*k) % 256 := by intro k; simp [lane, BitVec.extractLsb'_toNat, Nat.shiftRight_eq_div_pow]
  have hv : v.toNat < 2 ^ 32 := v.isLt
  unfold uintBytes
  split_ifs <;> refine ⟨?_, by simp⟩ <;> simp only [beNat, List.foldl, hl] <;> omega

theorem built_bytes (s : State) : s.builtMessage.bytes = s.frame := by
  simp only [Message.bytes, State.builtMessage, Message.tkl, slice_length, State.frame, wireOptions, List.flatMap_cons, List.flatMap_nil, List.append_nil, State.echoedToken, State.body, responseType]
  simp

end Sys2Proof.Machine
end

