-- ==== Sys2Proof/Laws/PerInstr.lean ====
section
/-! SUPPORT. Statements about every instruction as syntax, with one lemma for each constructor. -/

namespace Sys2Proof.Laws.EncodeWidth

/-- How many bytes an instruction's words take: four for a command word and for a header, one for an
element at an option position (30_encoding.md R300, R311, R314). -/
def Statement (i : Instr) : Prop :=
  (encode i).length =
    (if i.position = .command ∨ i.position = .header then 4 else 1)

theorem nop : Statement .nop := rfl
theorem decodeExt : Statement .decodeExt := rfl
theorem encodeExt : Statement .encodeExt := rfl
theorem parse : Statement .parse := rfl
theorem build : Statement .build := rfl
theorem illegalReservedOpcode (op : BitVec 4) (mbz : BitVec 28) :
    Statement (.illegalReservedOpcode op mbz) := rfl
theorem illegalReservedBits (op : BitVec 4) (mbz : BitVec 28) :
    Statement (.illegalReservedBits op mbz) := rfl
theorem wireHeader (t : BitVec 2) (tkl : BitVec 4) (code : BitVec 8) (mid : BitVec 16) :
    Statement (.wireHeader t tkl code mid) := rfl
theorem optHdr (dn ln : BitVec 4) : Statement (.optHdr dn ln) := rfl
theorem optDeltaLit (dn ln : BitVec 4) : Statement (.optDeltaLit dn ln) := rfl
theorem optDeltaExt8 (ln : BitVec 4) : Statement (.optDeltaExt8 ln) := rfl
theorem optDeltaExt16 (ln : BitVec 4) : Statement (.optDeltaExt16 ln) := rfl
theorem optDeltaReserved (ln : BitVec 4) : Statement (.optDeltaReserved ln) := rfl
theorem optLenLit (dn ln : BitVec 4) : Statement (.optLenLit dn ln) := rfl
theorem optLenExt8 (dn : BitVec 4) : Statement (.optLenExt8 dn) := rfl
theorem optLenExt16 (dn : BitVec 4) : Statement (.optLenExt16 dn) := rfl
theorem optLenReserved (dn : BitVec 4) : Statement (.optLenReserved dn) := rfl
theorem payloadMarker : Statement .payloadMarker := rfl

end Sys2Proof.Laws.EncodeWidth
end

