-- ==== Sys2Proof/Tests/Slice0.lean ====
section
/-! SUPPORT. Tests: ill-formed terms refused, words written out from the spec's encodings, the spec's
vectors (95_test_vectors.md), and for each statement with hypotheses a state that meets them. -/

namespace Sys2Proof.Tests

open Sys2Proof Sys2Proof.Machine

/-! ## WellFormed refuses ill-formed terms -/

theorem test_illformed_opcode_below_five :
    (Instr.illegalReservedOpcode 4 1).wellFormed = false := by decide
theorem test_illformed_bits_opcode_five :
    (Instr.illegalReservedBits 5 1).wellFormed = false := by decide
theorem test_illformed_bits_zero : (Instr.illegalReservedBits 0 0).wellFormed = false := by decide
theorem test_illformed_header_byte_is_marker : (Instr.optHdr 15 15).wellFormed = false := by decide
theorem test_illformed_delta_lit : (Instr.optDeltaLit 13 0).wellFormed = false := by decide
theorem test_illformed_delta_lit_over_reserved_length :
    (Instr.optDeltaLit 0 15).wellFormed = false := by decide
theorem test_illformed_delta_ext8 : (Instr.optDeltaExt8 15).wellFormed = false := by decide
theorem test_illformed_delta_ext16 : (Instr.optDeltaExt16 15).wellFormed = false := by decide
theorem test_illformed_delta_reserved : (Instr.optDeltaReserved 15).wellFormed = false := by decide
theorem test_illformed_len_lit : (Instr.optLenLit 0 13).wellFormed = false := by decide
theorem test_illformed_len_lit_under_reserved_delta :
    (Instr.optLenLit 15 0).wellFormed = false := by decide
theorem test_illformed_len_ext8 : (Instr.optLenExt8 15).wellFormed = false := by decide
theorem test_illformed_len_ext16 : (Instr.optLenExt16 15).wellFormed = false := by decide
theorem test_illformed_len_reserved : (Instr.optLenReserved 15).wellFormed = false := by decide

/-! ## Words written out (30_encoding.md R300 to R302, R311, R314, R316, R317) -/

theorem test_decode_nop : decode .command [0x00, 0x00, 0x00, 0x00] = .ok (.nop, []) := by decide
theorem test_decode_decodeExt :
    decode .command [0x01, 0x00, 0x00, 0x00] = .ok (.decodeExt, []) := by decide
theorem test_decode_encodeExt :
    decode .command [0x02, 0x00, 0x00, 0x00] = .ok (.encodeExt, []) := by decide
theorem test_decode_parse :
    decode .command [0x03, 0x00, 0x00, 0x00] = .ok (.parse, []) := by decide
theorem test_decode_build :
    decode .command [0x04, 0x00, 0x00, 0x00] = .ok (.build, []) := by decide
theorem test_decode_reserved_opcode :
    decode .command [0xFF, 0xFF, 0xFF, 0xFF] = .ok (.illegalReservedOpcode 15 0xFFFFFFF, []) := by
  decide
theorem test_decode_reserved_bits :
    decode .command [0x00, 0x00, 0x00, 0x80] = .ok (.illegalReservedBits 0 0x8000000, []) := by
  decide
theorem test_decode_header :
    decode .header [0x72, 0x45, 0xBE, 0xEF] = .ok (.wireHeader 3 2 0x45 0xBEEF, []) := by decide
theorem test_decode_header_version :
    decode .header [0xC0, 0x01, 0x00, 0x01] = .error .badVersion := by decide
theorem test_decode_optHdr : decode .option [0xB6, 0x73] = .ok (.optHdr 11 6, [0x73]) := by decide
theorem test_decode_marker : decode .option [0xFF, 0x68] = .ok (.payloadMarker, [0x68]) := by decide
theorem test_decode_delta_lit : decode .delta [0xCE] = .ok (.optDeltaLit 12 14, []) := by decide
theorem test_decode_delta_ext8 : decode .delta [0xD2] = .ok (.optDeltaExt8 2, []) := by decide
theorem test_decode_delta_ext16 : decode .delta [0xE0] = .ok (.optDeltaExt16 0, []) := by decide
theorem test_decode_delta_reserved : decode .delta [0xF0] = .ok (.optDeltaReserved 0, []) := by decide
theorem test_decode_len_reserved : decode .delta [0xEF] = .ok (.optLenReserved 14, []) := by decide
theorem test_decode_len_lit : decode .length [0xEC] = .ok (.optLenLit 14 12, []) := by decide
theorem test_decode_len_ext8 : decode .length [0xBD] = .ok (.optLenExt8 11, []) := by decide
theorem test_decode_len_ext16 : decode .length [0xBE] = .ok (.optLenExt16 11, []) := by decide
theorem test_decode_marker_has_no_delta : decode .delta [0xFF] = .error .markerByte := by decide
theorem test_decode_too_few : decode .command [0x00, 0x00, 0x00] = .error .tooFewBytes := by decide

theorem test_table_words :
    decodeTableWord 32 0x3 = some .parse ∧
    decodeTableWord 32 0x13 = some (.illegalReservedBits 3 1) ∧
    decodeTableWord 32 0x42011234 = some (.wireHeader 0 2 0x01 0x1234) ∧
    decodeTableWord 8 0xB6 = some (.optHdr 11 6) ∧
    decodeTableWord 8 0xFF = some .payloadMarker ∧
    decodeTableWord 8 0xE0 = some (.optDeltaExt16 0) ∧
    decodeTableWord 8 0xF0 = some (.optDeltaReserved 0) ∧
    decodeTableWord 8 0x0E = some (.optLenExt16 0) ∧
    decodeTableWord 8 0x0F = some (.optLenReserved 0) := by decide

/-! ## Small states -/

/-- Small capacities: 95_test_vectors.md leaves them to the vector. -/
def caps : Params := { rxCap := 18, txCap := 15, bodyCap := 8, pathCap := 6, textPlainCf := 0 }

/-- Right after a hardware reset. -/
def idle : State := State.powerUp caps

/-- A view of the next state. -/
def after {α : Type} (o : Host.Outcome State Fault Refusal) (f : State → α) : Option α :=
  match o with
  | .next s => some (f s)
  | .fault _ => none
  | .refused _ => none

/-- The fault, if there is one. -/
def faultOf (o : Host.Outcome State Fault Refusal) : Option Fault :=
  match o with
  | .next _ => none
  | .fault f => some f
  | .refused _ => none

theorem next_of_after {α : Type} {o : Host.Outcome State Fault Refusal} {f : State → α} {b : α}
    (h : after o f = some b) : ∃ t, o = .next t := by
  cases o with
  | next t => exact ⟨t, rfl⟩
  | fault _ => simp [after] at h
  | refused _ => simp [after] at h

/-- A datagram in `RX`. -/
def withRx (bs : List Byte) (s : State) : State :=
  { s with mem := Memory.store s.mem 0x10000 bs, rxLen := BitVec.ofNat 16 bs.length }

/-- The command word `w` in flight. -/
def running (w : Word) (s : State) : State := { s with inflight := some w }

/-- One move to come. -/
def facing (m : Move) (s : State) : State := { s with inputs := [m] }

/-- `STATUS` and `ERR_INFO`, as the host reads them. -/
def outcome (s : State) : Word × Word := (Reg.status.get s, Reg.errInfo.get s)

/-- Register inputs of a BUILD: 95_test_vectors.md section 2.5. -/
def request (t : BitVec 2) (tkl : BitVec 4) (tok mid : Word) (code : Byte) (body : List Byte) : State :=
  { idle with
    reqType := t, reqTkl := tkl, reqToken0 := tok, reqMid := mid.setWidth 16, respCode := code
    bodyLen := BitVec.ofNat 16 body.length, mem := cells 0x30000 body }

/-! ## Vectors of the commands (95_test_vectors.md sections 1 and 2) -/

/-- 2.6. -/
theorem test_nop : after (exec .nop (running 0 idle)) outcome = some (0x2, 0) := by decide
/-- 2.6: `WR CMD, 0xFFFFFFFF`. -/
theorem test_reserved_opcode :
    after (exec (decodeCommand 0xFFFFFFFF) (running 0xFFFFFFFF idle)) outcome =
      some (0x6, 0x00000106) := by decide
/-- 2.6: `WR CMD, 0x00000013`. -/
theorem test_reserved_bits :
    after (exec (decodeCommand 0x13) (running 0x13 idle)) outcome = some (0x6, 0x00000206) := by decide

/-- 2.1, rows 0x0000000C, 0x0000FF2D, 0x00FFFF2E, 0x0000001E, 0x0000002F, 0x0000003F. -/
theorem test_decodeExt :
    [0x0000000C, 0x0000FF2D, 0x00FFFF2E, 0x0000001E, 0x0000002F, 0x0000003F].map (fun v =>
      after (exec .decodeExt (Reg.codecIn.set v idle))
        (fun s => (Reg.codecOut.get s, Reg.errInfo.get s))) =
    [some (0x0000000C, 0), some (0x0100010C, 0), some (0x0201010C, 0), some (0, 0x00000A04),
      some (0, 0x00000904), some (0, 0x00000506)] := by decide
/-- 2.2, rows 12, 13, 268, 269, 1000, 65804, 65805. -/
theorem test_encodeExt :
    [12, 13, 268, 269, 1000, 65804, 65805].map (fun v =>
      after (exec .encodeExt (Reg.codecValIn.set v idle))
        (fun s => (Reg.codecEnc.get s, Reg.errInfo.get s))) =
    [some (0x0000000C, 0), some (0x0000001D, 0), some (0x0000FF1D, 0), some (0x0000002E, 0),
      some (0x00DB022E, 0), some (0x00FFFF2E, 0), some (0, 0x00000107)] := by decide

/-- E9: GET /sensor. -/
theorem test_parse_sensor :
    after (exec .parse (withRx [0x42, 0x01, 0x12, 0x34, 0xA1, 0xB2, 0xB6, 0x73, 0x65, 0x6E, 0x73, 0x6F,
      0x72] idle)) (fun s => (Reg.reqMid.get s, Reg.reqToken0.get s, Reg.pFlags.get s,
        Reg.pPathLen.get s, Memory.get? s.mem 0x40005, Reg.errInfo.get s)) =
    some (0x1234, 0xB2A1, 0x3, 6, some 0x72, 0) := by decide
set_option maxRecDepth 2000 in
/-- P3: a skipped option with an 8-bit extended delta, Content-Format, payload. -/
theorem test_parse_echo :
    after (exec .parse (withRx [0x50, 0x02, 0x00, 0x01, 0xB4, 0x65, 0x63, 0x68, 0x6F, 0x11, 0x32, 0xD2,
      0x23, 0x00, 0x10, 0xFF, 0x78] idle)) (fun s => (Reg.pFlags.get s, Reg.pCfValue.get s,
        Reg.pOptCount.get s, Reg.pLastOptnum.get s, Reg.pPayloadOff.get s, Reg.pPayloadLen.get s)) =
    some (0xF, 0x32, 3, 60, 16, 1) := by decide
/-- E12: the truncated length extension. -/
theorem test_parse_truncated_length :
    after (exec .parse (withRx [0x40, 0x01, 0x00, 0x07, 0xBE, 0x01] idle))
      (fun s => (s.pFlags.valid, Reg.errInfo.get s)) = some (false, 0x00040404) := by decide

/-- E5 and R608: the framed response of TX_LEN 15 (`TX_CAP` 15). -/
theorem test_build_no_data :
    after (exec .build (request 0 2 0x0000B2A1 0x1234 0x45 [0x4E, 0x4F, 0x5F, 0x44, 0x41, 0x54, 0x41]))
      (fun s => (Reg.txLen.get s, slice (s.readByte .tx) 0 15, Reg.errInfo.get s)) =
    some (15, [0x62, 0x45, 0x12, 0x34, 0xA1, 0xB2, 0xC0, 0xFF, 0x4E, 0x4F, 0x5F, 0x44, 0x41, 0x54,
      0x41], 0) := by decide
/-- 2.5: one byte too many for `TX_CAP`, and BUILD_TKL_GT_8. -/
theorem test_build_failures :
    after (exec .build (request 0 3 0 0x1234 0x45 [0x4E, 0x4F, 0x5F, 0x44, 0x41, 0x54, 0x41]))
      (fun s => (s.mem.length, Reg.txLen.get s, Reg.errInfo.get s)) = some (7, 0, 0x00000005) ∧
    after (exec .build (request 0 9 0 0x0001 0x45 []))
      (fun s => (s.mem.length, Reg.txLen.get s, Reg.errInfo.get s)) = some (0, 0, 0x00000303) := by
  decide

/-! ## The wire elements, one hidden step each (41_message_parser.md R501, R505, R506) -/

/-- A PARSE in flight over `bs`, its cursor at `p`, in the phase `ph`. -/
def parsing (bs : List Byte) (p : Nat) (ph : Phase) : State :=
  let s := running 3 (withRx bs idle)
  { s with scan := some { Scan.start bs.length with p := p, phase := ph } }

/-- The cursor and the phase. -/
def cursor (s : State) : Nat × Phase := (s.theScan.p, s.theScan.phase)

/-- 2.3: `48 01 00 01` and 8 token bytes. -/
theorem test_header_element :
    after (step (facing .scan (parsing [0x48, 0x01, 0x00, 0x01, 1, 2, 3, 4, 5, 6, 7, 8] 0 .header)))
      (fun s => (cursor s, s.theScan.token)) = some ((12, .option), [1, 2, 3, 4, 5, 6, 7, 8]) := by
  decide
theorem test_option_header_element :
    after (step (facing .scan (parsing [0x40, 1, 0, 1, 0xB1, 0x61] 4 .option))) cursor =
      some (5, .delta 4 0xB1) := by decide
theorem test_marker_element :
    after (step (facing .scan (parsing [0x40, 1, 0, 1, 0xFF] 4 .option))) cursor =
      some (4, .failed .emptyPayload 4) := by decide
theorem test_delta_lit_element :
    after (step (facing .scan (parsing [0x40, 1, 0, 1, 0xB1, 0x61] 5 (.delta 4 0xB1)))) cursor =
      some (5, .length 4 0xB1 11) := by decide
/-- P3: the extended delta `D2 23` is 48. -/
theorem test_delta_ext8_element :
    after (step (facing .scan (parsing [0x40, 1, 0, 1, 0xD2, 0x23, 0, 0x10] 5 (.delta 4 0xD2)))) cursor =
      some (6, .length 4 0xD2 48) := by decide
/-- E6: the extended delta `E0 00 14` is 289. -/
theorem test_delta_ext16_element :
    after (step (facing .scan (parsing [0x40, 1, 0, 1, 0xE0, 0x00, 0x14] 5 (.delta 4 0xE0)))) cursor =
      some (7, .length 4 0xE0 289) := by decide
theorem test_delta_reserved_element :
    after (step (facing .scan (parsing [0x40, 1, 0, 1, 0xF0] 5 (.delta 4 0xF0)))) cursor =
      some (5, .failed .deltaReserved 4) := by decide
theorem test_len_reserved_element :
    after (step (facing .scan (parsing [0x40, 1, 0, 1, 0xBF] 5 (.delta 4 0xBF)))) cursor =
      some (5, .failed .lengthReserved 4) := by decide
theorem test_len_lit_element :
    after (step (facing .scan (parsing [0x40, 1, 0, 1, 0xB1, 0x61] 5 (.length 4 0xB1 11))))
      (fun s => (cursor s, s.theScan.path, s.theScan.num)) = some ((6, .option), [0x61], 11) := by
  decide
/-- A length of 13 that runs past the datagram. -/
theorem test_len_ext8_element :
    after (step (facing .scan (parsing [0x40, 1, 0, 1, 0x0D, 0x00] 5 (.length 4 0x0D 0)))) cursor =
      some (6, .failed .valueOverrun 4) := by decide
/-- E12: one of the two extension bytes is there. -/
theorem test_len_ext16_element :
    after (step (facing .scan (parsing [0x40, 1, 0, 1, 0x0E, 0x00] 5 (.length 4 0x0E 0)))) cursor =
      some (5, .failed .lengthExtTrunc 4) := by decide

/-! ## Bus and registers (95_test_vectors.md sections 2.6 and 2.7) -/

theorem test_bus_errors :
    faultOf (step (facing (.read 0x00002) idle)) = some .busMisaligned ∧
    faultOf (step (facing (.read 0x00100) idle)) = some .busUnmapped ∧
    faultOf (step (facing (.read 0x50000) idle)) = some .busUnmapped ∧
    faultOf (step (facing (.write 0x20010 0) idle)) = some .busPastCapacity := by decide
/-- `RX_CAP` 18: lanes 2 and 3 of word 4 are past the capacity. -/
theorem test_partial_word :
    after (step (facing (.write 0x10010 0xAABBCCDD) idle)) (fun s => s.mem) =
      some [(0x10010, 0xDD), (0x10011, 0xCC)] ∧
    after (step (facing (.read 0x10010) { idle with mem := [(0x10010, 0xDD), (0x10011, 0xCC)] }))
      (fun s => s.busData) = some 0x0000CCDD := by decide
theorem test_lane_order :
    after (step (facing (.read 0x10000) (withRx [0x40, 0x01, 0x12, 0x34] idle)))
      (fun s => s.busData) = some 0x34120140 := by decide
theorem test_register_masks :
    after (step (facing (.write 0x00020 0xFFFFFFFF) idle)) Reg.codecIn.get = some 0x00FFFF3F ∧
    after (step (facing (.write 0x00040 0x12345678) idle)) Reg.rxLen.get = some 0x00005678 ∧
    after (step (facing (.write 0x00010 0xFFFFFFFE) idle)) Reg.ctrl.get = some 0x00000002 ∧
    after (step (facing (.write 0x00060 0xF) idle)) Reg.pFlags.get = some 0 := by decide
/-- 2.6: a second `CMD` write while busy. -/
theorem test_overrun :
    after (step (facing (.write 0x00014 3) (running 0 idle))) Reg.status.get = some 0x00000009 := by
  decide
/-- 2.6: `WR CTRL, 0x3` is a soft reset. -/
theorem test_soft_reset :
    after (step (facing (.write 0x00010 3) { (withRx [7] idle) with done := true, irqEn := true }))
      (fun s => (Reg.ctrl.get s, Reg.status.get s, s.mem)) = some (0, 0, [(0x10000, 7)]) := by decide
/-- P1, lines 2 and 3. -/
theorem test_wait_line :
    programMoves [.cmd 2, .wait 1] =
      [.write 0x00014 2, .read 0x00018, .complete, .read 0x00018] := by decide
theorem test_fill_line :
    (HostLine.fill .rx [0x42, 0x01, 0x12, 0x34, 0xA1]).moves =
      [.write 0x10000 0x34120142, .write 0x10004 0x000000A1] := by decide

/-! ## A placed word is what the next step runs -/

theorem test_withFetchWord_command :
    after (step (State.reset.withFetchWord 32 0x00000005)) outcome = some (0x6, 0x00000106) := by decide
theorem test_withFetchWord_wire :
    after (step (State.reset.withFetchWord 8 0xB1)) cursor = some (5, .delta 4 0xB1) ∧
    after (step (State.reset.withFetchWord 32 0x42011234)) cursor = some (6, .option) ∧
    after (step (State.reset.withFetchWord 8 0xD0)) cursor = some (6, .length 4 0xD0 13) := by decide
/-! ## Witnesses: states and operands that meet the hypotheses of the statements -/

/-- Memory inside `RX` is inside. -/
theorem rx_inside (c : Params) (bs : List Byte) (h : bs.length ≤ c.rxCap.toNat) :
    MemoryInside c (cells 0x10000 bs) := by
  intro x hx
  have := mem_cells hx
  exact ⟨.rx, this.1, by simp only [Buffer.base, Buffer.cap]; omega⟩

/-- A datagram in `RX` and a command in flight: the invariant holds. -/
theorem witness_inv (w : Word) :
    Inv (running w { idle with mem := cells 0x10000 [0x40, 0x01, 0x00, 0x01], rxLen := 4 }) where
  params := (by decide : caps.wf)
  memory := cells_wf _ _
  inside := rx_inside caps _ (by decide)
  busyDone := by simp [running, idle, State.powerUp]
  scanRuns := by simp [running, idle, State.powerUp]
  scanOk := by simp [running, idle, State.powerUp]

theorem witness_HardResetLeavesResetValues :
    ∃ s rest, State.inputs s = .hardReset :: rest := ⟨facing .hardReset (running 3 idle), [], rfl⟩

theorem witness_SoftResetKeepsBuffers :
    (∃ (s : State) (v : Word) (rest : List Move), s.inputs = .write 0x00010 v :: rest ∧
      v.getLsbD 0 = true ∧ s.running = some .build) ∧
    (∃ (s : State) (v : Word) (rest : List Move), s.inputs = .write 0x00010 v :: rest ∧
      v.getLsbD 0 = true ∧ s.running = some .parse) ∧
    (∃ (s : State) (v : Word) (rest : List Move), s.inputs = .write 0x00010 v :: rest ∧
      v.getLsbD 0 = true ∧ s.running ≠ some .build ∧ s.running ≠ some .parse) :=
  ⟨⟨facing (.write 0x00010 3) (running 4 idle), 3, [], by decide⟩,
    ⟨facing (.write 0x00010 1) (running 3 idle), 1, [], by decide⟩,
    ⟨facing (.write 0x00010 1) idle, 1, [], by decide⟩⟩

/-- The first and the last address of each clause. -/
theorem witness_BusErrorsAreTheOnlyFaults :
    (∀ a ∈ [(0x00002 : BitVec 20), 0x10001, 0x50003], a.toNat % 4 ≠ 0) ∧
    (∀ a ∈ [(0x00100 : BitVec 20), 0x0FFFC, 0x50000, 0xFFFFC], a.toNat % 4 = 0 ∧
      ((0x100 ≤ a.toNat ∧ a.toNat < 0x10000) ∨ 0x50000 ≤ a.toNat)) ∧
    (∀ a ∈ [(0x10014 : BitVec 20), 0x1FFFC], a.toNat % 4 = 0 ∧
      Buffer.rx.base + Buffer.rx.cap caps ≤ a.toNat ∧ a.toNat < Buffer.rx.base + 0x10000) ∧
    (∀ a ∈ [(0x10000 : BitVec 20), 0x10010], a.toNat % 4 = 0 ∧
      Buffer.rx.base ≤ a.toNat ∧ a.toNat < Buffer.rx.base + Buffer.rx.cap caps) ∧
    (∀ a ∈ [(0x00000 : BitVec 20), 0x000FC], a.toNat % 4 = 0 ∧ a.toNat < 0x100) ∧
    faultOf (step (facing (.read 0x00002) idle)) = some .busMisaligned :=
  ⟨by simp, by simp, by simp [Buffer.base, Buffer.cap, caps], by simp [Buffer.base, Buffer.cap, caps],
    by simp, by decide⟩

theorem witness_BusReadsHaveNoSideEffects :
    ∃ (s t : State) (addr : BitVec 20) (rest : List Move),
      s.inputs = .read addr :: rest ∧ step s = .next t := by
  obtain ⟨t, ht⟩ := next_of_after (by decide :
    after (step (facing (.read 0x10000) (withRx [1, 2, 3, 4] idle))) (fun s => s.busData) =
      some 0x04030201)
  exact ⟨_, t, 0x10000, [], rfl, ht⟩

theorem witness_RegisterReadReturnsValueOrDraw :
    (∃ (s : State) (r : Reg) (rest : List Move), s.inputs = .read r.addr :: rest ∧
      s.running = some .decodeExt ∧ r ∈ outputRegs .decodeExt) ∧
    (∃ (s : State) (r : Reg) (rest : List Move), s.inputs = .read r.addr :: rest ∧
      s.running = some .decodeExt ∧ r ∉ outputRegs .decodeExt) :=
  ⟨⟨facing (.read 0x00028) (running 1 idle), .codecOut, [], by decide⟩,
    ⟨facing (.read 0x00018) (running 1 idle), .status, [], by decide⟩⟩

/-- The holes at both ends of each gap of the bank (10_state.md R102). -/
theorem witness_RegisterReadOfHoles :
    (facing (.read 0x00030) idle).inputs = [.read 0x00030] ∧
    ∀ a ∈ [(0x00030 : BitVec 20), 0x0003C, 0x0005C, 0x0007C, 0x0008C, 0x000FC],
      a.toNat < 0x100 ∧ a.toNat % 4 = 0 ∧ ∀ r ∈ Reg.all, a ≠ r.addr :=
  ⟨rfl, by simp [Reg.all, Reg.addr, Reg.offset]⟩

/-- The last word of `RX` (18 bytes) and of `PATH` (6 bytes), inside and past the capacity, with and
without a running PARSE. -/
theorem witness_BufferReadReturnsLanes :
    (∃ (s : State) (addr : BitVec 20) (rest : List Move), addr.toNat = Buffer.rx.base + 4 * 4 ∧
      4 * 4 < Buffer.rx.cap s.params ∧ s.inputs = .read addr :: rest ∧
      4 * 4 + 1 < Buffer.rx.cap s.params ∧ Buffer.rx.cap s.params ≤ 4 * 4 + 2 ∧
      s.writesBufferNow .rx = false) ∧
    (∃ (s : State) (addr : BitVec 20) (rest : List Move), addr.toNat = Buffer.path.base + 4 * 1 ∧
      4 * 1 < Buffer.path.cap s.params ∧ s.inputs = .read addr :: rest ∧
      4 * 1 + 1 < Buffer.path.cap s.params ∧ s.writesBufferNow .path = true) :=
  ⟨⟨facing (.read 0x10010) idle, 0x10010, [], by decide⟩,
    ⟨facing (.read 0x40004) (running 3 idle), 0x40004, [], by decide⟩⟩

theorem witness_BufferWriteStoresLanes :
    (∃ (s : State) (addr : BitVec 20) (v : Word) (rest : List Move),
      addr.toNat = Buffer.rx.base + 4 * 4 ∧ 4 * 4 < Buffer.rx.cap s.params ∧
      s.inputs = .write addr v :: rest ∧ 4 * 4 + 1 < Buffer.rx.cap s.params ∧
      Buffer.rx.cap s.params ≤ 4 * 4 + 2) ∧
    (∃ (s : State) (addr : BitVec 20) (v : Word) (rest : List Move),
      addr.toNat = Buffer.body.base + 4 * 1 ∧ 4 * 1 < Buffer.body.cap s.params ∧
      s.inputs = .write addr v :: rest ∧ 4 * 1 + 3 < Buffer.body.cap s.params) :=
  ⟨⟨facing (.write 0x10010 5) idle, 0x10010, 5, [], by decide⟩,
    ⟨facing (.write 0x30004 5) idle, 0x30004, 5, [], by decide⟩⟩

theorem witness_ReadOnlyWritesAreIgnored :
    (facing (.write Reg.txLen.addr 1) idle).inputs = [.write Reg.txLen.addr 1] ∧
    ((0x00030 : BitVec 20).toNat < 0x100 ∧ (0x00030 : BitVec 20).toNat % 4 = 0 ∧
      ∀ r ∈ Reg.all, r.offset ≠ (0x00030 : BitVec 20).toNat) ∧
    ((0x2000C : BitVec 20).toNat = Buffer.tx.base + 4 * 3 ∧ 4 * 3 < Buffer.tx.cap caps) ∧
    ((0x40004 : BitVec 20).toNat = Buffer.path.base + 4 * 1 ∧ 4 * 1 < Buffer.path.cap caps) := by
  decide

theorem witness_RegisterWriteKeepsFieldBits :
    ∃ (s : State) (v : Word) (rest : List Move), s.inputs = .write 0x00020 v :: rest :=
  ⟨facing (.write 0x00020 0xFFFFFFFF) idle, 0xFFFFFFFF, [], by decide⟩

theorem witness_InputWritesTaint :
    (∃ (s : State) (v : Word) (rest : List Move), s.running = some .parse ∧
      Reg.rxLen.hostWritable = true ∧ s.inputs = .write Reg.rxLen.addr v :: rest ∧
      Reg.rxLen ∈ inputRegs .parse) ∧
    (∃ (s : State) (v : Word) (rest : List Move), s.running = some .parse ∧
      Reg.bodyLen.hostWritable = true ∧ s.inputs = .write Reg.bodyLen.addr v :: rest ∧
      Reg.bodyLen ∉ inputRegs .parse) ∧
    (∃ (s : State) (addr : BitVec 20) (v : Word) (rest : List Move), s.running = some .parse ∧
      addr.toNat = Buffer.rx.base + 4 * 0 ∧ 4 * 0 < Buffer.rx.cap s.params ∧
      s.inputs = .write addr v :: rest ∧ Buffer.rx ∈ inputBuffers .parse) ∧
    (∃ (s : State) (addr : BitVec 20) (v : Word) (rest : List Move), s.running = some .parse ∧
      addr.toNat = Buffer.body.base + 4 * 1 ∧ 4 * 1 < Buffer.body.cap s.params ∧
      s.inputs = .write addr v :: rest ∧ Buffer.body ∉ inputBuffers .parse) :=
  ⟨⟨facing (.write 0x00040 4) (running 3 idle), 4, [], by decide⟩,
    ⟨facing (.write 0x00084 4) (running 3 idle), 4, [], by decide⟩,
    ⟨facing (.write 0x10000 4) (running 3 idle), 0x10000, 4, [], by decide⟩,
    ⟨facing (.write 0x30004 4) (running 3 idle), 0x30004, 4, [], by decide⟩⟩

theorem witness_CommandWriteStarts :
    ∃ (s : State) (w : Word) (rest : List Move), s.inputs = .write 0x00014 w :: rest ∧
      s.busy = false := ⟨facing (.write 0x00014 3) idle, 3, [], by decide⟩

theorem witness_CommandWriteWhileBusyOverruns :
    (∃ (s : State) (w : Word) (rest : List Move), s.inputs = .write 0x00014 w :: rest ∧
      s.busy = true) ∧
    (∃ s t : State, s.overrun = true ∧ step s = .next t) :=
  ⟨⟨facing (.write 0x00014 3) (running 0 idle), 3, [], by decide⟩,
    ⟨{ idle with overrun := true }, _, rfl, rfl⟩⟩

theorem witness_StatusWriteClearsDoneAndOverrun :
    ∃ (s : State) (v : Word) (rest : List Move), s.inputs = .write 0x00018 v :: rest ∧
      s.done = true ∧ s.overrun = true ∧ v.getLsbD 1 = true ∧ v.getLsbD 3 = false :=
  ⟨facing (.write 0x00018 2) { idle with done := true, overrun := true }, 2, [], by decide⟩

/-- The clause about `BUSY`: a state that has the invariant while a command runs. -/
theorem witness_StatusWriteWhileBusy :
    ∃ (s : State) (v : Word) (rest : List Move), s.inputs = .write 0x00018 v :: rest ∧ Inv s ∧
      s.busy = true :=
  ⟨facing (.write 0x00018 2) (running 4 idle), 2, [], rfl,
    ⟨(by decide : caps.wf), List.Pairwise.nil, (fun _ hc => nomatch hc), (fun h => nomatch h.2),
      (fun h => nomatch h), (fun _ h => nomatch h)⟩, rfl⟩

theorem witness_ControlWriteMasksInterrupt :
    ∃ (s : State) (v : Word) (rest : List Move), s.inputs = .write 0x00010 v :: rest ∧
      v.getLsbD 0 = false ∧ v.getLsbD 1 = false ∧ s.irq = true :=
  ⟨facing (.write 0x00010 0) { idle with done := true, irqEn := true }, 0, [], by decide⟩

theorem witness_NopCompletes : ∃ s : State, s.taint = false := ⟨running 0 idle, rfl⟩

theorem witness_IllegalWordsComplete :
    (running 5 idle).taint = false ∧
    (∀ w ∈ [(0x00000005 : Word), 0xFFFFFFFF], 5 ≤ w.toNat % 16) ∧
    (∀ w ∈ [(0x00000010 : Word), 0xFFFFFFF4], w.toNat % 16 < 5 ∧ 16 ≤ w.toNat) ∧
    (facing (.write 0x00014 0x10) idle).inputs = [.write 0x00014 0x10] ∧
    (facing (.write 0x00014 0x10) idle).busy = false ∧ idle.taint = false ∧
    (∃ t, exec (decodeCommand 0x10) (running 0x10 idle) = .next t) :=
  ⟨rfl, by simp, by simp, rfl, rfl, rfl, _, rfl⟩

theorem witness_EveryWordSelectsOneCommand :
    (∀ w ∈ [(0x00000005 : Word), 0xFFFFFFFF], 5 ≤ w.toNat ∧ 5 ≤ w.toNat % 16) ∧
    (∀ w ∈ [(0x00000010 : Word), 0xFFFFFFF4], 5 ≤ w.toNat ∧ w.toNat % 16 < 5) :=
  ⟨by simp, by simp⟩

/-- The operands of DECODE_EXT, a row for each clause (95_test_vectors.md section 2.1). -/
theorem witness_DecodeExtWritesResult :
    (idle.taint = false) ∧
    ((CodecWord.ofWord 0x00000030).count.toNat = 3) ∧
    ((CodecWord.ofWord 0x0000002F).count.toNat ≠ 3 ∧ (CodecWord.ofWord 0x0000002F).nibble.toNat = 15) ∧
    ((CodecWord.ofWord 0x0000000D).nibble.toNat = 13 ∧ (CodecWord.ofWord 0x0000000D).count.toNat = 0) ∧
    ((CodecWord.ofWord 0x0000001E).nibble.toNat = 14 ∧ (CodecWord.ofWord 0x0000001E).count.toNat < 2) ∧
    ((CodecWord.ofWord 0x0000002C).count.toNat ≠ 3 ∧ (CodecWord.ofWord 0x0000002C).nibble.toNat ≤ 12) ∧
    ((CodecWord.ofWord 0x0000FF2D).nibble.toNat = 13 ∧ (CodecWord.ofWord 0x0000FF2D).count.toNat ≤ 2) ∧
    ((CodecWord.ofWord 0x00FFFF2E).nibble.toNat = 14 ∧ (CodecWord.ofWord 0x00FFFF2E).count.toNat = 2) := by
  decide

/-- The boundary values of ENCODE_EXT's clauses. -/
theorem witness_EncodeExtWritesResult :
    idle.taint = false ∧ (12 : Word).toNat ≤ 12 ∧ 13 ≤ (13 : Word).toNat ∧ (268 : Word).toNat ≤ 268 ∧
    269 ≤ (269 : Word).toNat ∧ (65804 : Word).toNat ≤ 65804 ∧ 65805 ≤ (65805 : Word).toNat := by decide

theorem witness_CodecFunctionsStayInRange :
    nibbleDecode 14 (fun _ => 0xFF) 0 2 = .ok 65804 2 ∧
    nibbleEncode 65804 = some (14, [0xFF, 0xFF]) ∧
    nibbleDecode 13 (extByte [0x01]) 0 1 = .ok 14 1 := by decide

theorem witness_CodecRoundTrips :
    nibbleEncode 12 = some (12, []) ∧ nibbleEncode 268 = some (13, [0xFF]) ∧
    nibbleEncode 269 = some (14, [0x00, 0x00]) ∧
    nibbleDecode 14 (extByte [0x00, 0x00]) 0 2 = .ok 269 2 := by decide

theorem witness_EncodeThenDecodeCommandsRoundTrip :
    ∃ s : State, s.taint = false ∧ s.codecValIn.toNat = 65804 :=
  ⟨{ idle with codecValIn := 65804 }, by decide⟩

/-- `TX_LEN` 15 at `TX_CAP` 15. -/
theorem witness_BuildFramesResponse :
    let s := request 0 2 0x0000B2A1 0x1234 0x45 [0x4E, 0x4F, 0x5F, 0x44, 0x41, 0x54, 0x41]
    s.taint = false ∧ s.bodyLen.toNat ≤ s.params.bodyCap.toNat ∧ s.reqTkl.toNat ≤ 8 ∧
    4 + s.reqTkl.toNat + 1 + (uintBytes s.params.textPlainCf).length
      + (if 0 < s.bodyLen.toNat then 1 + s.bodyLen.toNat else 0) = s.params.txCap.toNat := by decide

/-- `BODY_LEN` one above `BODY_CAP`; `TKL` 9; `TX_LEN` 16 at `TX_CAP` 15. -/
theorem witness_BuildFailuresLeaveTx :
    idle.taint = false ∧
    (let s := { idle with bodyLen := 9 }
     s.params.bodyCap.toNat < s.bodyLen.toNat) ∧
    (let s := { idle with reqTkl := 9 }
     s.bodyLen.toNat ≤ s.params.bodyCap.toNat ∧ 8 < s.reqTkl.toNat) ∧
    (let s := request 0 3 0 0 0x45 [1, 2, 3, 4, 5, 6, 7]
     s.bodyLen.toNat ≤ s.params.bodyCap.toNat ∧ s.reqTkl.toNat ≤ 8 ∧
      s.params.txCap.toNat < 4 + s.reqTkl.toNat + 1 + (uintBytes s.params.textPlainCf).length
        + (if 0 < s.bodyLen.toNat then 1 + s.bodyLen.toNat else 0)) := by decide

/-- One datagram for each framing check, at its boundary. -/
theorem witness_ParseFramingChecks :
    (idle.taint = false ∧ idle.scan = none) ∧
    (let s := { idle with rxLen := 19 }
     s.params.rxCap.toNat < s.rxLen.toNat) ∧
    (let s := withRx [0x40, 0x01, 0x00] idle
     s.rxLen.toNat ≤ s.params.rxCap.toNat ∧ s.rxLen.toNat < 4) ∧
    (let s := withRx [0x80, 0x01, 0x00, 0x01] idle
     4 ≤ s.rxLen.toNat ∧ (s.readByte .rx 0).toNat / 64 ≠ 1) ∧
    (let s := withRx [0x49, 0x01, 0x00, 0x01] idle
     4 ≤ s.rxLen.toNat ∧ (s.readByte .rx 0).toNat / 64 = 1 ∧ 8 < (s.readByte .rx 0).toNat % 16) ∧
    (let s := withRx [0x48, 0x01, 0x00, 0x01, 1, 2, 3, 4, 5, 6, 7] idle
     4 ≤ s.rxLen.toNat ∧ (s.readByte .rx 0).toNat / 64 = 1 ∧ (s.readByte .rx 0).toNat % 16 ≤ 8 ∧
      s.rxLen.toNat < 4 + (s.readByte .rx 0).toNat % 16) ∧
    (let s := withRx [0x48, 0x01, 0x00, 0x01, 1, 2, 3, 4, 5, 6, 7, 8] idle
     s.rxLen.toNat ≤ s.params.rxCap.toNat ∧ 4 ≤ s.rxLen.toNat ∧
      (s.readByte .rx 0).toNat / 64 = 1 ∧ (s.readByte .rx 0).toNat % 16 ≤ 8 ∧
      s.rxLen.toNat = 4 + (s.readByte .rx 0).toNat % 16) := by decide

/-- P3's request as a message. -/
def echoMessage : Message :=
  { t := 1, code := 0x02, mid := 0x0001, token := []
    options := [(11, [0x65, 0x63, 0x68, 0x6F]), (1, [0x32]), (48, [0x00, 0x10])]
    payload := [0x78] }

/-- Its bytes are those of P3. -/
theorem test_message_bytes : echoMessage.bytes =
    [0x50, 0x02, 0x00, 0x01, 0xB4, 0x65, 0x63, 0x68, 0x6F, 0x11, 0x32, 0xD2, 0x23, 0x00, 0x10, 0xFF,
      0x78] := by decide

theorem witness_ParseExtractsLegalMessage :
    let s := withRx echoMessage.bytes idle
    s.taint = false ∧ s.scan = none ∧ echoMessage.legal s.params ∧ s.rxHolds echoMessage.bytes := by
  unfold Message.legal State.rxHolds
  decide

theorem witness_ParseFrame : ∃ s : State, Inv s ∧ s.taint = false := ⟨_, witness_inv 3, rfl⟩

theorem witness_HiddenParseStepsAreInvisible :
    let s := facing .scan (running 3 (withRx [0x40, 0x01, 0x00, 0x01] idle))
    s.inputs = [.scan] ∧ s.running = some .parse ∧
    ∀ i < s.theScan.n, (Memory.get? s.mem (0x10000 + i)).isSome = true := by decide

/-- Two states that differ in a register PARSE does not read; `PATH` is never written in both. -/
theorem witness_ParseDependsOnDatagramOnly :
    ∃ s s' t t' : State, s ≠ s' ∧
      (Memory.get? s.mem 0x40005).isSome = (Memory.get? s'.mem 0x40005).isSome ∧ s.taint = false ∧ s'.taint = false ∧ s.scan = none ∧
      s'.scan = none ∧ s.params = s'.params ∧ s.rxLen = s'.rxLen ∧ s.draws = s'.draws ∧
      (∀ i < s.rxLen.toNat,
        Memory.get? s.mem (0x10000 + i) = Memory.get? s'.mem (0x10000 + i)) ∧
      exec .parse s = .next t ∧ exec .parse s' = .next t' ∧ t.err = false :=
  ⟨withRx [0x40, 0x01, 0x00, 0x01] idle,
    { (withRx [0x40, 0x01, 0x00, 0x01] idle) with codecValIn := 1 }, _, _,
    by decide, by decide, rfl, rfl, rfl, rfl, rfl, rfl, rfl, by decide, rfl, rfl, by decide⟩

theorem witness_BuildThenParseRoundTrips :
    ∃ s t u : State, s.taint = false ∧ exec .build s = .next t ∧ t.err = false ∧ u.taint = false ∧
      u.scan = none ∧ u.params = s.params ∧ u.rxLen = t.txLen ∧
      t.txLen.toNat ≤ u.params.rxCap.toNat ∧
      (∀ i < t.txLen.toNat,
        Memory.get? u.mem (0x10000 + i) = Memory.get? t.mem (0x20000 + i)) :=
  ⟨request 0 2 0x0000B2A1 0x1234 0x45 [0x4E, 0x4F], _,
    withRx [0x62, 0x45, 0x12, 0x34, 0xA1, 0xB2, 0xC0, 0xFF, 0x4E, 0x4F] idle,
    rfl, rfl, by decide, rfl, rfl, rfl, by decide, by decide, by decide⟩

/-- A CON request with token A1 B2, and the response framed in the state that PARSE leaves. -/
theorem witness_ResponseEchoesRequest :
    ∃ s t v : State, s.taint = false ∧ s.scan = none ∧ exec .parse s = .next t ∧ t.err = false ∧
      t.taint = false ∧ exec .build t = .next v ∧ v.err = false :=
  ⟨withRx [0x42, 0x01, 0x12, 0x34, 0xA1, 0xB2] idle, _, _, rfl, rfl, rfl, by decide, by decide, rfl,
    by decide⟩

theorem witness_WireElementsTouchOnlyTheScan :
    Instr.position (.optHdr 11 1) ≠ .command ∧ idle.running ≠ some .parse := by decide

/-- `TKL` 9; `TKL` 8 with 11 bytes, and with 12. -/
theorem witness_HeaderElementExtracts :
    let s := running 3 (withRx [0x48, 0x01, 0x00, 0x01, 1, 2, 3, 4, 5, 6, 7, 8] idle)
    let s' := running 3 (withRx [0x48, 0x01, 0x00, 0x01, 1, 2, 3, 4, 5, 6, 7] idle)
    s.running = some .parse ∧ s.theScan.phase = .header ∧ 8 < (9 : BitVec 4).toNat ∧
    (8 : BitVec 4).toNat ≤ 8 ∧ 4 + (8 : BitVec 4).toNat ≤ s.theScan.n ∧
    s'.running = some .parse ∧ s'.theScan.phase = .header ∧ s'.theScan.n < 4 + (8 : BitVec 4).toNat := by
  decide

theorem witness_OptionHeaderAndMarker :
    let s := parsing [0x40, 1, 0, 1, 0xFF] 4 .option
    let s' := parsing [0x40, 1, 0, 1, 0xFF, 0x68] 4 .option
    s.running = some .parse ∧ s.theScan.phase = .option ∧ s.theScan.p + 1 = s.theScan.n ∧
    s'.running = some .parse ∧ s'.theScan.phase = .option ∧ s'.theScan.p + 1 < s'.theScan.n := by
  decide

/-- No, one and two extension bytes left. -/
theorem witness_DeltaClassesDecode :
    let s0 := parsing [0x40, 1, 0, 1, 0xD0] 5 (.delta 4 0xD0)
    let s1 := parsing [0x40, 1, 0, 1, 0xE0, 0] 5 (.delta 4 0xE0)
    let s2 := parsing [0x40, 1, 0, 1, 0xE0, 0, 0] 5 (.delta 4 0xE0)
    s0.running = some .parse ∧ s0.theScan.phase = .delta 4 0xD0 ∧ s0.theScan.n < s0.theScan.p + 1 ∧
    s1.running = some .parse ∧ s1.theScan.phase = .delta 4 0xE0 ∧ s1.theScan.p + 1 ≤ s1.theScan.n ∧
    s1.theScan.n < s1.theScan.p + 2 ∧
    s2.running = some .parse ∧ s2.theScan.phase = .delta 4 0xE0 ∧ s2.theScan.p + 2 ≤ s2.theScan.n ∧
    (12 : BitVec 4).toNat ≤ 12 := by decide

theorem witness_LengthClassesDecode :
    let s0 := parsing [0x40, 1, 0, 1, 0x0D] 5 (.length 4 0x0D 0)
    let s1 := parsing [0x40, 1, 0, 1, 0x0E, 0] 5 (.length 4 0x0E 0)
    let s2 := parsing [0x40, 1, 0, 1, 0x0E, 0, 0] 5 (.length 4 0x0E 0)
    s0.running = some .parse ∧ s0.theScan.phase = .length 4 0x0D 0 ∧ s0.theScan.n < s0.theScan.p + 1 ∧
    s1.running = some .parse ∧ s1.theScan.phase = .length 4 0x0E 0 ∧ s1.theScan.p + 1 ≤ s1.theScan.n ∧
    s1.theScan.n < s1.theScan.p + 2 ∧
    s2.running = some .parse ∧ s2.theScan.phase = .length 4 0x0E 0 ∧ s2.theScan.p + 2 ≤ s2.theScan.n ∧
    (12 : BitVec 4).toNat ≤ 12 := by decide

/-- Values one byte too long and just inside, for options 10, 12 (4 and 5 bytes) and 13. -/
theorem witness_OptionValueInterpreted :
    let sc : Scan := { Scan.start 10 with p := 5, phase := .length 4 0xC5 12 }
    sc.n < sc.p + 6 ∧ sc.p + 5 ≤ sc.n ∧ sc.num + 12 = 12 ∧ 4 < 5 ∧ sc.p + 4 ≤ sc.n ∧
    sc.num + 13 ≠ 11 ∧ sc.num + 13 ≠ 12 := by decide

/-- A first and a second segment, at `PATH_CAP` and one above it. -/
theorem witness_UriPathSegmentsJoin :
    let sc : Scan := { Scan.start 10 with p := 6, phase := .length 4 0xB4 11 }
    let sc' : Scan := { sc with num := 11, path := [0x61], pathPresent := true }
    sc.p + 4 ≤ sc.n ∧ sc.num + 11 = 11 ∧ sc.path.length + 4 ≤ 4 ∧ 3 < sc.path.length + 4 ∧
    sc'.p + 4 ≤ sc'.n ∧ sc'.num + 0 = 11 ∧ sc'.path.length + (4 + 1) ≤ 6 ∧
    5 < sc'.path.length + (4 + 1) := by decide

theorem witness_OnlyListedErrorsAreRecorded :
    ∃ s t : State, Inv s ∧ Instr.parse.position = .command ∧ s.taint = false ∧
      exec .parse s = .next t := ⟨_, _, witness_inv 3, rfl, rfl, rfl⟩

theorem witness_TaintedCommandLeavesDraws :
    ∃ s : State, Instr.build.position = .command ∧ s.taint = true ∧
      (Memory.get? s.mem 0x20000).isSome = true ∧ Memory.get? s.mem 0x20001 = none :=
  ⟨{ (running 4 idle) with taint := true, mem := [(0x20000, 7)] }, by decide⟩

theorem witness_DecodeOfEncode :
    (Instr.wireHeader 3 15 0xFF 0xFFFF).wellFormed = true ∧ (Instr.optDeltaLit 12 14).wellFormed = true ∧
    (Instr.illegalReservedBits 4 1).wellFormed = true := by decide

theorem witness_EncodeOfDecode :
    ∃ (i : Instr) (rest : List Byte), decode .length [0xBE, 0x01] = .ok (i, rest) :=
  ⟨.optLenExt16 11, [0x01], by decide⟩

theorem witness_CompletionStepRunsDecodedCommand :
    ∃ (s : State) (w : Word) (rest : List Move), s.inputs = .complete :: rest ∧ s.inflight = some w :=
  ⟨facing .complete (running 3 idle), 3, [], by decide⟩

theorem witness_ScanStepRunsDecodedElement :
    (let s := facing .scan (running 3 (withRx [0x40, 0x01, 0x00, 0x01] idle))
     s.inputs = [.scan] ∧ s.running = some .parse ∧ s.theScan.phase = .header ∧ 4 ≤ s.theScan.n ∧
      s.theScan.n ≤ s.params.rxCap.toNat ∧
      decode .header [0x40, 0x01, 0x00, 0x01] = .ok (.wireHeader 0 0 1 1, [])) ∧
    (let s := facing .scan (parsing [0x40, 1, 0, 1, 0xB1, 0x61] 4 .option)
     s.inputs = [.scan] ∧ s.running = some .parse ∧ s.theScan.phase = .option ∧
      s.theScan.p < s.theScan.n ∧ decode .option [s.readByte .rx 4] = .ok (.optHdr 11 1, [])) ∧
    (let s := facing .scan (parsing [0x40, 1, 0, 1, 0xB1, 0x61] 5 (.delta 4 0xB1))
     s.inputs = [.scan] ∧ s.running = some .parse ∧ s.theScan.phase = .delta 4 0xB1 ∧
      decode .delta [0xB1] = .ok (.optDeltaLit 11 1, [])) ∧
    (let s := facing .scan (parsing [0x40, 1, 0, 1, 0xB1, 0x61] 5 (.length 4 0xB1 11))
     s.inputs = [.scan] ∧ s.running = some .parse ∧ s.theScan.phase = .length 4 0xB1 11 ∧
      decode .length [0xB1] = .ok (.optLenLit 11 1, [])) := by decide

theorem witness_StartedCommandCompletes :
    (running 3 idle).inputs = [] ∧ (running 3 idle).busy = true := by decide

theorem witness_StepKeepsInvariant : ∃ s t : State, Inv s ∧ step s = .next t :=
  ⟨_, _, witness_inv 3, rfl⟩

theorem witness_ResetHasInvariant : caps.wf := by decide

theorem witness_ConstantRegistersNeverChange : ∃ s t : State, step s = .next t :=
  ⟨running 3 idle, _, rfl⟩

/-- Each result register changes when its own command completes. -/
theorem witness_ResultsChangeOnlyByTheirCommand :
    (¬ (facing .complete (running 1 { idle with codecIn := CodecWord.ofWord 5 })).nextMoveResets) ∧
    after (step (facing .complete (running 1 { idle with codecIn := CodecWord.ofWord 5 })))
      (fun t => decide (t.codecOut ≠ idle.codecOut)) = some true ∧
    after (step (facing .complete (running 2 { idle with codecValIn := 5 })))
      (fun t => decide (t.codecEnc ≠ idle.codecEnc)) = some true ∧
    after (step (facing .complete (running 3 (withRx [0x40, 1, 0, 1] idle))))
      (fun t => decide (Reg.pFlags.get t ≠ Reg.pFlags.get idle)) = some true ∧
    after (step (facing .complete (running 4 idle)))
      (fun t => decide (t.txLen ≠ idle.txLen)) = some true := by
  refine ⟨?_, by decide⟩
  rintro (⟨rest, h⟩ | ⟨v, rest, h, _⟩) <;> simp [facing, running] at h

theorem witness_BuffersChangeOnlyByTheirWriters :
    ∃ (s t : State), Inv s ∧ step s = .next t ∧
      Memory.get? t.mem 0x20000 ≠ Memory.get? s.mem 0x20000 ∧ ∀ rest, s.inputs ≠ .hardReset :: rest :=
  ⟨_, _, witness_inv 4, rfl, by decide, by intro rest h; cases h⟩

set_option maxRecDepth 4000 in
/-- A datagram for `.done` and for each failure, with the position of its failing option. -/
theorem witness_ParseRecordsItsFailure :
    idle.taint = false ∧ (withRx [0x40, 1, 0, 1] idle).finalScan.phase = .done ∧
    (∀ c ∈ [([0x40, 1, 0], Error.tooShort), ([0x80, 1, 0, 1], .unsupportedVersion),
        ([0x49, 1, 0, 1], .tklGt8), ([0x41, 1, 0, 1], .tokenTrunc),
        (List.replicate 19 0x40, .rxLenGtCap)],
      (withRx c.1 idle).finalScan.phase = .failed c.2 0) ∧
    (∀ c ∈ [([0xF0], Error.deltaReserved), ([0x0F], .lengthReserved), ([0xD0], .deltaExtTrunc),
        ([0x0D], .lengthExtTrunc), ([0x01], .valueOverrun), ([0xFF], .emptyPayload),
        ([0xB7, 1, 2, 3, 4, 5, 6, 7], .pathOverflow), ([0xC5, 1, 2, 3, 4, 5], .cfTooLong)],
      (withRx ([0x40, 1, 0, 1] ++ c.1) idle).finalScan.phase = .failed c.2 4) := by decide

/-- A message of a bare header and some options. -/
def bareMessage (options : List (Nat × List Byte)) : Message :=
  { t := 0, code := 1, mid := 1, token := [], options := options, payload := [] }

/-- A bad option for each clause, after a legal prefix. -/
theorem witness_ParseReportsFirstBadOption :
    (∀ c ∈ [([], [0xF0]), ([], [0x0F]), ([], [0xD0]), ([], [0xE0]), ([], [0xE0, 0]), ([], [0x0D]),
        ([], [0x0E]), ([], [0x0E, 0]), ([], [0x05, 1, 2, 3, 4]), ([], [0xFF]),
        ([], wireOption 11 [1, 2, 3, 4, 5, 6, 7]), ([], wireOption 12 [1, 2, 3, 4, 5]),
        ([(11, [1, 2, 3, 4, 5])], wireOption 0 [6]), ([(11, [1])], wireOption 1 [1, 2, 3, 4, 5])],
      let m := bareMessage c.1
      let s := withRx (m.bytes ++ c.2) idle
      s.taint = false ∧ s.scan = none ∧ m.legal s.params ∧ m.payload = [] ∧
        m.bytes.length + c.2.length ≤ s.params.rxCap.toNat ∧ s.rxHolds (m.bytes ++ c.2)) ∧
    (15#4 ++ 0#4 = (0xF0 : Byte) ∧ 0#4 ++ 15#4 = (0x0F : Byte) ∧ 13#4 ++ 0#4 = (0xD0 : Byte) ∧
      14#4 ++ 0#4 = (0xE0 : Byte)) ∧
    (nibbleEncode 0 = some (0, []) ∧ nibbleEncode 5 = some (5, []) ∧ [1, 2, 3, 4].length < 5) ∧
    ((bareMessage []).lastNumber + 11 = 11 ∧ caps.pathCap.toNat < (bareMessage []).path.length + 0 + 7) ∧
    ((bareMessage [(11, [1, 2, 3, 4, 5])]).lastNumber + 0 = 11 ∧
      caps.pathCap.toNat < (bareMessage [(11, [1, 2, 3, 4, 5])]).path.length + 1 + 1) ∧
    ((bareMessage [(11, [1])]).lastNumber + 1 = 12) := by
  unfold Message.legal State.rxHolds
  decide

/-- A failed PARSE writes no byte of `PATH` (log 10), and its datagram bytes stay. -/
theorem test_failed_parse_writes_no_path_byte :
    after (exec .parse (withRx [0x40, 1, 0, 1, 0xF0] idle)) (fun t => t.mem) =
      some (cells 0x10000 [0x40, 1, 0, 1, 0xF0]) := by decide

/-- A byte becomes written, by a BUILD and by a host write, and a written byte becomes never written. -/
theorem witness_WrittenBitsChangeOnlyByWritersOrReset :
    (∃ s t : State, Inv s ∧ step s = .next t ∧ Memory.get? s.mem 0x20000 = none ∧
      Memory.get? t.mem 0x20000 ≠ none) ∧
    (∃ s t : State, Inv s ∧ step s = .next t ∧ Memory.get? s.mem 0x10000 ≠ none ∧
      Memory.get? t.mem 0x10000 = none) := by
  refine ⟨⟨_, _, witness_inv 4, rfl, by decide, by decide⟩,
    ⟨facing .hardReset (running 3 { idle with mem := cells 0x10000 [0x40, 0x01, 0x00, 0x01], rxLen := 4 }),
      _, ?_, rfl, by decide, by decide⟩⟩
  have h := witness_inv 3
  exact ⟨h.params, h.memory, h.inside, h.busyDone, h.scanRuns, h.scanOk⟩

end Sys2Proof.Tests
end

section
/-! SUPPORT. Proofs of the state family: where the fields stand in the registers (10_state.md R105 to
R130). -/

namespace Sys2Proof.Machine

/-- `ERR_INFO` above its code (10_state.md R110). -/
theorem ErrInfo.toWord_fields (e : ErrInfo) :
    e.toWord.extractLsb' 4 4 = 0#4 ∧ e.toWord.extractLsb' 8 8 = e.detail ∧
      e.toWord.extractLsb' 16 16 = e.pos := by
  refine ⟨?_, ?_, ?_⟩ <;> apply BitVec.eq_of_getLsbD_eq <;> intro i hi <;>
    simp only [ErrInfo.toWord, BitVec.getLsbD_extractLsb', BitVec.getLsbD_append] <;>
    interval_cases i <;> simp

/-- `CODEC_IN` and `CODEC_ENC` field by field (10_state.md R111, R114). -/
theorem CodecWord.toWord_fields (c : CodecWord) :
    c.toWord.extractLsb' 0 4 = c.nibble ∧ c.toWord.extractLsb' 4 2 = c.count ∧
      c.toWord.extractLsb' 6 2 = 0#2 ∧ c.toWord.extractLsb' 8 8 = c.ext0 ∧
      c.toWord.extractLsb' 16 8 = c.ext1 ∧ c.toWord.extractLsb' 24 8 = 0#8 := by
  refine ⟨?_, ?_, ?_, ?_, ?_, ?_⟩ <;> apply BitVec.eq_of_getLsbD_eq <;> intro i hi <;>
    simp only [CodecWord.toWord, BitVec.getLsbD_extractLsb', BitVec.getLsbD_append] <;>
    interval_cases i <;> simp

/-- `CODEC_OUT` field by field (10_state.md R113). -/
theorem CodecOut.toWord_fields (c : CodecOut) :
    c.toWord.extractLsb' 0 17 = c.value ∧ c.toWord.extractLsb' 17 7 = 0#7 ∧
      c.toWord.extractLsb' 24 2 = c.used ∧ c.toWord.extractLsb' 26 6 = 0#6 := by
  refine ⟨?_, ?_, ?_, ?_⟩ <;> apply BitVec.eq_of_getLsbD_eq <;> intro i hi <;>
    simp only [CodecOut.toWord, BitVec.getLsbD_extractLsb', BitVec.getLsbD_append] <;>
    interval_cases i <;> simp

theorem CodecWord.toWord_injective : Function.Injective CodecWord.toWord := by
  intro c d h
  obtain ⟨c0, c1, -, c2, c3, -⟩ := c.toWord_fields
  obtain ⟨d0, d1, -, d2, d3, -⟩ := d.toWord_fields
  rw [h] at c0 c1 c2 c3
  cases c
  cases d
  simp_all

theorem CodecOut.toWord_injective : Function.Injective CodecOut.toWord := by
  intro c d h
  obtain ⟨c0, -, c1, -⟩ := c.toWord_fields
  obtain ⟨d0, -, d1, -⟩ := d.toWord_fields
  rw [h] at c0 c1
  cases c
  cases d
  simp_all

/-- `CTRL` bit by bit (10_state.md R107). -/
theorem ctrl_bits (b : Bool) :
    ((0#30 ++ bit b) ++ 0#1 : Word).getLsbD 0 = false ∧
      ((0#30 ++ bit b) ++ 0#1 : Word).getLsbD 1 = b ∧
      ((0#30 ++ bit b) ++ 0#1 : Word).extractLsb' 2 30 = 0#30 := by
  cases b <;> decide

/-- The two halves of a capacity word (10_state.md R105, R106). -/
theorem halves_append (hi lo : BitVec 16) :
    (hi ++ lo : Word).extractLsb' 0 16 = lo ∧ (hi ++ lo : Word).extractLsb' 16 16 = hi := by
  constructor <;> apply BitVec.eq_of_getLsbD_eq <;> intro i hi <;>
    simp only [BitVec.getLsbD_extractLsb', BitVec.getLsbD_append] <;> interval_cases i <;> simp

/-- A 16-bit field is determined by its register. -/
theorem field16_injective : Function.Injective (fun v : BitVec 16 => v.setWidth 32) := by
  intro v w h
  have h' : (v.setWidth 32).toNat = (w.setWidth 32).toNat := congrArg BitVec.toNat h
  rw [BitVec.toNat_setWidth_of_le (by decide), BitVec.toNat_setWidth_of_le (by decide)] at h'
  exact BitVec.eq_of_toNat_eq h'

/-- Settles O14: bit by bit from the layout of `STATUS`, `CTRL` and `ERR_INFO`. -/
theorem statusBitsAndInterruptLevel : Obligations.StatusBitsAndInterruptLevel := by
  intro s
  obtain ⟨busy, done, err, overrun, reserved⟩ := status_bits s.overrun s.err s.done s.busy
  have hbusy : s.busy = true ↔ s.inflight ≠ none := Option.isSome_iff_ne_none
  have hirq : s.irq = true ↔ s.done = true ∧ s.irqEn = true := Bool.and_eq_true_iff
  refine ⟨?_, done, overrun, ?_, reserved, ?_⟩
  · exact (Bool.eq_iff_iff.mp busy).trans hbusy
  · exact (Bool.eq_iff_iff.mp err).trans ((err_true s).trans (by rw [Reg.get, code_bits]; rfl))
  · rw [hirq]
    exact and_congr (Bool.eq_iff_iff.mp done.symm) (Bool.eq_iff_iff.mp (ctrl_bit s.irqEn).symm)

/-- Settles O55: field by field from the layout of each structured register. -/
theorem registerWordLayouts : Obligations.RegisterWordLayouts := by
  intro s
  refine ⟨ctrl_bits s.irqEn, rfl, ⟨code_bits s.errInfo, s.errInfo.toWord_fields⟩, ?_,
    s.codecOut.toWord_fields, ?_, ?_, ?_⟩
  · simp only [List.forall_mem_cons]
    exact ⟨s.codecIn.toWord_fields, s.codecEnc.toWord_fields, List.forall_mem_nil _⟩
  · exact status_bits _ _ _ _
  · intro k hk
    constructor
    · simp [State.tokenByte, hk, lane, Reg.get]
    · simp [State.tokenByte, lane, Reg.get]
  · simp only [List.forall_mem_cons, Reg.get, BitVec.toNat_setWidth_of_le, Nat.reduceLeDiff, true_and]
    exact List.forall_mem_nil _

end Sys2Proof.Machine
end

section
/-! SUPPORT. Proofs of the state family: the register bank on the bus (10_state.md R101, R102), and the
inputs and outputs of the commands (R136). -/

namespace Sys2Proof.Machine

theorem Reg.mem_all (r : Reg) : r ∈ Reg.all := by cases r <;> decide

theorem addr_of_offset {r : Reg} {addr : BitVec 20} (h : r.offset = addr.toNat) : addr = r.addr :=
  BitVec.eq_of_toNat_eq (by rw [addr_toNat, h])

/-- Every register with its bus address. -/
def registerMap : List (Reg × BitVec 20) := Reg.all.map (fun r => (r, r.addr))

theorem mem_registerMap {p : Reg × BitVec 20} : p ∈ registerMap ↔ p.1.addr = p.2 := by
  obtain ⟨r, a⟩ := p
  simp [registerMap, Reg.mem_all]

/-- A read move to a register is `readReg` (20_memory.md R209). -/
theorem step_readReg {s : State} {r : Reg} {rest : List Move} (h : s.inputs = .read r.addr :: rest) :
    step s = .next { s.tick rest with busData := (s.tick rest).readReg r } := by
  rw [step_move h, move]; simp [busRead, resolve_reg, State.readTarget]

/-- A read move to a hole of the bank returns 0 (20_memory.md R209). -/
theorem step_readHole {s : State} {addr : BitVec 20} {rest : List Move}
    (hin : s.inputs = .read addr :: rest) (h : resolve s.params addr = .ok .hole) :
    step s = .next { s.tick rest with busData := 0 } := by
  rw [step_move hin, move]; simp [busRead, h, State.readTarget]

theorem writesNow_iff (s : State) (r : Reg) :
    s.writesNow r = true ↔ ∃ i, s.running = some i ∧ r ∈ outputRegs i := by
  unfold State.writesNow
  cases s.running <;> simp

/-- Settles O5: the bank of the statement is the model's own map of the registers, and every other
word of it is a hole. -/
theorem registerReadReturnsValueOrDraw : Obligations.RegisterReadReturnsValueOrDraw := by
  unfold Obligations.RegisterReadReturnsValueOrDraw
  intro bank
  have hbank : bank = registerMap := rfl
  rw [hbank]
  refine ⟨fun r => ⟨r.addr, mem_registerMap.mpr rfl⟩, ?_, ?_⟩
  · rintro ⟨r, a⟩ hp
    obtain rfl : r.addr = a := mem_registerMap.mp hp
    refine ⟨rfl, fun s rest hin => ⟨_, step_readReg hin, fun hw => ?_, fun hw => ?_⟩⟩
    · simp [State.readReg, (writesNow_iff (s.tick rest) r).mpr hw, addr_toNat]
    · have hnot : ¬ (s.tick rest).writesNow r = true := fun h => hw ((writesNow_iff _ r).mp h)
      simp [State.readReg, hnot]
  · intro s addr rest hlo h4 hhole hin
    have hn : ∀ r : Reg, r.offset ≠ addr.toNat := fun r h =>
      hhole (r, r.addr) (mem_registerMap.mpr rfl) (addr_of_offset h)
    exact ⟨_, step_readHole hin (resolve_hole s.params addr hlo h4 hn), rfl⟩

/-- Settles O8: a read-only register, a hole and a window the host may not write ignore the write. -/
theorem readOnlyWritesAreIgnored : Obligations.ReadOnlyWritesAreIgnored := by
  intro s addr v rest hin h
  rcases h with ⟨r, hr, rfl⟩ | ⟨hlo, h4, hn⟩ | ⟨b, w, hb, ha, hw⟩
  · have hro : ∀ r ∈ [Reg.id, .hwrev, .cap0, .cap1, .errInfo, .codecOut, .codecEnc, .pFlags, .pPathLen,
        .pCfValue, .pPayloadOff, .pPayloadLen, .pOptCount, .pLastOptnum, .txLen],
        r.hostWritable = false ∧ r ≠ .ctrl ∧ r ≠ .cmd ∧ r ≠ .status := by decide
    obtain ⟨hro, hctrl, hcmd, hstatus⟩ := hro r hr
    rw [step_writeReg hin, writeReg_ro r v _ hro hctrl hcmd hstatus]
  · rw [step_move hin, move]
    simp [busWrite, resolve_hole s.params addr hlo h4 hn, State.writeTarget]
  · have hro : b.hostWritable = false := by rcases hb with rfl | rfl <;> rfl
    rw [step_move hin, move]
    simp [busWrite, resolve_word s.params b w addr ha hw, State.writeTarget, hro]

/-- Settles O9: the listed registers are the read-write ones, with their own addresses and masks. -/
theorem registerWriteKeepsFieldBits : Obligations.RegisterWriteKeepsFieldBits := by
  rintro s v rest ⟨r, addr, mask⟩ hp hin
  have hrow : ∀ p ∈ [(Reg.codecIn, (0x00020 : BitVec 20), (0x00FFFF3F : Word)),
      (.codecValIn, 0x00024, 0xFFFFFFFF), (.rxLen, 0x00040, 0x0000FFFF),
      (.reqType, 0x00044, 0x00000003), (.reqTkl, 0x00048, 0x0000000F),
      (.reqCode, 0x0004C, 0x000000FF), (.reqMid, 0x00050, 0x0000FFFF),
      (.reqToken0, 0x00054, 0xFFFFFFFF), (.reqToken1, 0x00058, 0xFFFFFFFF),
      (.respCode, 0x00080, 0x000000FF), (.bodyLen, 0x00084, 0x0000FFFF)],
      p.1.hostWritable = true ∧ p.2.1 = p.1.addr ∧ p.2.2 = p.1.fieldMask := by decide
  obtain ⟨hrw, haddr, hmask⟩ := hrow _ hp
  dsimp only at hin hrw haddr hmask ⊢
  subst haddr hmask
  obtain ⟨hdata, -, -, -, herr⟩ := hostWritable_data r hrw
  have hstep := step_writeReg hin
  rw [writeReg_rw r v _ hrw] at hstep
  refine ⟨_, hstep, get_set_self r v _ hdata, fun q hq => ?_, ?_, ?_, ?_⟩
  · rw [get_set_ne r q v _ hq (fun _ => herr), get_taintIf, get_tick]
  · simp
  · simp
  · simp

/-- `IRQ_EN` shows in `CTRL` alone. -/
theorem get_irqEn (s : State) (b : Bool) (r : Reg) (h : r ≠ .ctrl) :
    r.get { s with irqEn := b } = r.get s := by
  cases r with
  | ctrl => exact absurd rfl h
  | _ => rfl

/-- Bit 1 of a word, in its place in `CTRL` (10_state.md R107). -/
theorem ctrl_of_bit (v : Word) : ((0#30 ++ bit (bitOf v 1)) ++ 0#1 : Word) = v &&& 0x00000002 := by
  apply BitVec.eq_of_getLsbD_eq
  intro i hi
  simp only [bit, bitOf, BitVec.getLsbD_append, BitVec.getLsbD_ofBool, BitVec.getLsbD_and]
  interval_cases i <;> simp

/-- Settles O15: with `SOFT_RESET` clear the write is a write of `IRQ_EN`. -/
theorem controlWriteMasksInterrupt : Obligations.ControlWriteMasksInterrupt := by
  intro s v rest hin h0
  have hstep : step s = .next { s.tick rest with irqEn := bitOf v 1 } := by
    have hbit : bitOf v 0 = false := h0
    rw [step_writeReg (r := .ctrl) hin]
    simp [State.writeReg, State.writeCtrl, hbit]
  refine ⟨_, hstep, ctrl_of_bit v, fun h1 => ?_, fun r hr => ?_, rfl⟩
  · have hbit : bitOf v 1 = false := h1
    simp [State.irq, hbit]
  · rw [get_irqEn _ _ r hr, get_tick]

/-- Settles O56: each row of the table is a permutation of the model's list. -/
theorem commandInputsAndOutputs : Obligations.CommandInputsAndOutputs := by
  have hparse : (outputRegs .parse).Perm [.errInfo, .reqType, .reqTkl, .reqCode, .reqMid, .reqToken0,
      .reqToken1, .pFlags, .pPathLen, .pCfValue, .pPayloadOff, .pPayloadLen, .pOptCount,
      .pLastOptnum] := by decide
  have hswap (out : Reg) : ∀ r, r ∈ [out, .errInfo] ↔ r ∈ [.errInfo, out] := fun r =>
    (List.Perm.swap _ _ _).mem_iff
  exact ⟨⟨fun _ => .rfl, fun _ => .rfl, fun _ => .rfl, fun _ => .rfl⟩,
    ⟨fun _ => .rfl, fun _ => .rfl, hswap .codecOut, fun _ => .rfl⟩,
    ⟨fun _ => .rfl, fun _ => .rfl, hswap .codecEnc, fun _ => .rfl⟩,
    ⟨fun _ => .rfl, fun _ => .rfl, fun _ => hparse.mem_iff, fun _ => .rfl⟩,
    ⟨fun _ => .rfl, fun _ => .rfl, hswap .txLen, fun _ => .rfl⟩,
    fun _ _ => ⟨fun _ => .rfl, fun _ => .rfl, fun _ => .rfl, fun _ => .rfl⟩,
    fun _ _ => ⟨fun _ => .rfl, fun _ => .rfl, fun _ => .rfl, fun _ => .rfl⟩⟩

end Sys2Proof.Machine
end

section
/-! SUPPORT. Proofs of the state family: what a step that answers a next state has done, and with it the
invariant and the constant registers. -/

namespace Sys2Proof.Machine

/-- What a step can have done, one constructor for each kind of move (60_exceptions.md R806). -/
inductive Stepped (s : State) : State → Prop where
  /-- No move is left and nothing is in flight. -/
  | idle : Stepped s s
  /-- A block's move that finds nothing to do. -/
  | skipped (rest : List Move) : Stepped s (s.tick rest)
  | read (rest : List Move) (w : Word) : Stepped s { s.tick rest with busData := w }
  | wrote {addr : BitVec 20} {v : Word} {rest : List Move} {target : Target}
      (move : s.inputs = .write addr v :: rest) (resolved : resolve s.params addr = .ok target) :
      Stepped s ((s.tick rest).writeTarget target v)
  | reset {rest : List Move} (move : s.inputs = .hardReset :: rest) :
      Stepped s (s.tick rest).hardReset
  | scanned (rest : List Move) (parsing : s.running = some .parse) :
      Stepped s { s.tick rest with scan := some (scanAdvance (s.tick rest).rxSource
        s.params.rxCap.toNat s.params.pathCap.toNat s.theScan) }
  | completed {i : Instr} (rest : List Move) (running : s.running = some i) :
      Stepped s (State.completion i (commandRule i (s.tick rest)) (s.tick rest))

theorem stepped_of_step {s t : State} (h : step s = .next t) : Stepped s t := by
  rcases step_cases s with ⟨_, _, e⟩ | ⟨i, _, hr, e⟩ | ⟨addr, rest, _, e⟩ | ⟨addr, v, rest, hin, e⟩ |
    ⟨rest, hin, e⟩ | ⟨rest, _, _, e⟩ | ⟨rest, _, hr, e⟩ | ⟨rest, _, _, e⟩ | ⟨i, rest, _, hr, e⟩ <;>
    rw [e] at h
  · cases h; exact .idle
  · cases h; exact .completed [] hr
  · rcases busRead_cases addr (s.tick rest) with ⟨target, _, e'⟩ | ⟨f, _, e'⟩ <;>
      rw [e'] at h <;> cases h
    exact .read rest _
  · rcases busWrite_cases addr v (s.tick rest) with ⟨target, ht, e'⟩ | ⟨f, _, e'⟩ <;>
      rw [e'] at h <;> cases h
    exact .wrote hin ht
  · cases h; exact .reset hin
  · cases h; exact .skipped rest
  · cases h; exact .scanned rest hr
  · cases h; exact .skipped rest
  · cases h; exact .completed rest hr

/-! ## The invariant -/

/-- A hidden step of PARSE keeps the invariant (41_message_parser.md R512). -/
theorem scanned_inv {s : State} (src : Nat → Byte) (h : Inv s) (hr : s.running = some .parse) :
    Inv { s with
      scan := some (scanAdvance src s.params.rxCap.toNat s.params.pathCap.toNat s.theScan) } where
  params := h.params
  memory := h.memory
  inside := h.inside
  busyDone := h.busyDone
  scanRuns _ := hr
  scanOk sc hsc := by
    cases hsc
    exact scanAdvance_ok s.params src s.theScan (theScan_ok s h)

/-- Settles O50: each kind of step keeps the invariant. -/
theorem stepKeepsInvariant : Obligations.StepKeepsInvariant := by
  intro s t h ht
  cases stepped_of_step ht with
  | idle => exact h
  | skipped rest => exact tick_inv rest h
  | read rest w => exact same_inv (tick_inv rest h) rfl rfl rfl id rfl
  | @wrote addr v rest target _ hres => exact writeTarget_inv target v addr hres (tick_inv rest h)
  | @reset rest _ => exact hardReset_inv (tick_inv rest h)
  | scanned rest hr => exact scanned_inv _ (tick_inv rest h) hr
  | @completed i rest _ => exact completion_inv i (tick_inv rest h)

/-! ## The constant registers -/

@[simp] theorem writeReg_params (r : Reg) (v : Word) (s : State) :
    (s.writeReg r v).params = s.params := by
  rcases writeReg_cases r v s with ⟨_, _, e⟩ | ⟨_, _, e⟩ | ⟨_, _, e⟩ | ⟨_, _, e⟩ | ⟨_, e⟩ | ⟨_, e⟩ |
    ⟨_, _, _, _, e⟩ <;> rw [e]
  · rfl
  · rfl
  · rfl
  · exact set_params r v _

@[simp] theorem writeTarget_params (target : Target) (v : Word) (s : State) :
    (s.writeTarget target v).params = s.params := by
  cases target with
  | reg r => exact writeReg_params r v s
  | hole => rfl
  | word b i => simp only [State.writeTarget]; split <;> rfl

/-- No step changes the parameters (00_scope.md R9). -/
theorem step_params {s t : State} (h : step s = .next t) : t.params = s.params := by
  cases stepped_of_step h with
  | wrote => simp
  | completed => simp
  | idle | skipped | read | reset | scanned => rfl

/-- Settles O52: the constants are numbers or parameters, and no step changes the parameters. -/
theorem constantRegistersNeverChange : Obligations.ConstantRegistersNeverChange := by
  intro s t h
  have hp := step_params h
  rw [← hp]
  obtain ⟨rx, tx⟩ := halves_append t.params.txCap t.params.rxCap
  obtain ⟨body, path⟩ := halves_append t.params.pathCap t.params.bodyCap
  exact ⟨rfl, rfl, rfl, rx, tx, body, path⟩

end Sys2Proof.Machine
end

section
/-! SUPPORT. Proofs of the state family: what a step does to a register that the host cannot write
(10_state.md R113 to R130). -/

namespace Sys2Proof.Machine

/-- The registers that show the control bits and the outcome of a command. -/
def controlRegs : List Reg := [.ctrl, .status, .errInfo]

/-- Control bits, the outcome and hidden state show in no other register. -/
theorem get_control {s : State} {irqEn done overrun taint : Bool} {errInfo : ErrInfo}
    {inflight : Option Word} {scan : Option Scan} {draws : Nat} {inputs : List Move} {busData : Word}
    {r : Reg} (h : r ∉ controlRegs) :
    r.get { s with
      irqEn := irqEn, done := done, overrun := overrun, taint := taint, errInfo := errInfo
      inflight := inflight, scan := scan, draws := draws, inputs := inputs, busData := busData } =
        r.get s := by
  cases r with
  | ctrl | status | errInfo => exact absurd (by decide) h
  | _ => rfl

/-- A completion step changes no register outside the command's outputs (10_state.md R136). -/
theorem completion_get_other (i : Instr) (s : State) (r : Reg) (h : r ∉ outputRegs i)
    (hc : r ∉ controlRegs) : r.get (State.completion i (commandRule i s) s) = r.get s := by
  cases ht : s.taint with
  | true =>
    have hs : r ≠ .status := fun e => hc (by rw [e]; decide)
    rw [completion_tainted _ _ _ ht, ← drawOutputs_get_other i s r h hs]
    exact get_control hc
  | false =>
    rw [completion_untainted _ _ _ ht, ← rule_get i s r h]
    exact get_control hc

/-- A host write changes a register that the host cannot write only by a soft reset. -/
theorem writeReg_get_other (q r : Reg) (v : Word) (s : State) (hro : r.hostWritable = false)
    (hc : r ∉ controlRegs) (hn : ¬ (q = .ctrl ∧ bitOf v 0 = true)) :
    r.get (s.writeReg q v) = r.get s := by
  rcases writeReg_cases q v s with ⟨hq, hb, _⟩ | ⟨_, _, e⟩ | ⟨_, _, e⟩ | ⟨_, _, e⟩ | ⟨_, e⟩ | ⟨hq, e⟩ |
    ⟨_, _, _, _, e⟩
  · exact absurd ⟨hq, hb⟩ hn
  · rw [e]; exact get_control hc
  · rw [e]; exact get_control hc
  · rw [e]; exact get_control hc
  · rw [e]; exact get_control hc
  · have hne : r ≠ q := by rintro rfl; rw [hq] at hro; cases hro
    have hs : r ≠ .status := fun e => hc (by rw [e]; decide)
    rw [e, get_set_ne q r v _ hne (fun e => absurd e hs), get_taintIf]
  · rw [e]

theorem writeTarget_get_other {target : Target} {addr : BitVec 20} (r : Reg) (v : Word) (s : State)
    (hres : resolve s.params addr = .ok target) (hro : r.hostWritable = false) (hc : r ∉ controlRegs)
    (hn : ¬ (addr = Reg.ctrl.addr ∧ bitOf v 0 = true)) : r.get (s.writeTarget target v) = r.get s := by
  cases target with
  | hole => rfl
  | reg q =>
    refine writeReg_get_other q r v s hro hc (fun hq => hn ⟨?_, hq.2⟩)
    rw [resolve_ok_reg hres, hq.1]
  | word b i =>
    rw [State.writeTarget]
    split
    · exact (reg_view_mem r _ _).trans (get_taintIf r _ _)
    · rfl

/-- A step that is no reset changes a register that the host cannot write only by the command whose
output it is. -/
theorem step_get_other {s t : State} (ht : step s = .next t) (hn : ¬ s.nextMoveResets) {r : Reg}
    (hro : r.hostWritable = false) (hc : r ∉ controlRegs)
    (ho : ∀ i, s.running = some i → r ∉ outputRegs i) : r.get t = r.get s := by
  cases stepped_of_step ht with
  | idle => rfl
  | skipped rest => exact get_tick r s rest
  | read rest w => exact get_control hc
  | @wrote addr v rest target hin hres =>
    rw [writeTarget_get_other r v (s.tick rest) hres hro hc, get_tick]
    rintro ⟨rfl, hb⟩
    exact hn (.inr ⟨v, rest, hin, hb⟩)
  | reset hin => exact absurd (.inl ⟨_, hin⟩) hn
  | scanned rest _ => exact get_control hc
  | @completed i rest hr => rw [completion_get_other i _ r (ho i hr) hc, get_tick]

/-- The result registers, each with the one command that writes it (10_state.md R113, R114, R121,
R130). -/
def resultWriters : List (Reg × Instr) :=
  [(.codecOut, .decodeExt), (.codecEnc, .encodeExt), (.pFlags, .parse), (.pPathLen, .parse),
   (.pCfValue, .parse), (.pPayloadOff, .parse), (.pPayloadLen, .parse), (.pOptCount, .parse),
   (.pLastOptnum, .parse), (.txLen, .build)]

theorem resultWriters_only (i : Instr) : ∀ p ∈ resultWriters, p.1 ∈ outputRegs i → i = p.2 := by
  cases i <;> simp [resultWriters, outputRegs, parseResultRegs]

/-- A changed result register names the running command. -/
theorem running_of_result_changed {s t : State} (ht : step s = .next t) (hn : ¬ s.nextMoveResets)
    {r : Reg} {i : Instr} (h : (r, i) ∈ resultWriters) (hne : r.get t ≠ r.get s) :
    s.running = some i := by
  have hregs : ∀ p ∈ resultWriters, p.1.hostWritable = false ∧ p.1 ∉ controlRegs := by decide
  obtain ⟨hro, hc⟩ := hregs _ h
  by_contra hr
  refine hne (step_get_other ht hn hro hc (fun j hj hmem => hr ?_))
  rw [hj, resultWriters_only j _ h hmem]

/-- Settles O53: a result register that changes names the running command. -/
theorem resultsChangeOnlyByTheirCommand : Obligations.ResultsChangeOnlyByTheirCommand := by
  intro s t ht hn
  have changed {r : Reg} {i : Instr} := @running_of_result_changed s t ht hn r i
  refine ⟨fun h => ?_, fun h => ?_, ?_, fun h => ?_⟩
  · exact changed (r := .codecOut) (by decide) (fun e => h (CodecOut.toWord_injective e))
  · exact changed (r := .codecEnc) (by decide) (fun e => h (CodecWord.toWord_injective e))
  · rintro ⟨r, hr, h⟩
    have hparse : ∀ r ∈ [Reg.pFlags, .pPathLen, .pCfValue, .pPayloadOff, .pPayloadLen, .pOptCount,
        .pLastOptnum], (r, .parse) ∈ resultWriters := by decide
    exact changed (hparse r hr) h
  · exact changed (r := .txLen) (by decide) (fun e => h (field16_injective e))

end Sys2Proof.Machine
end

section
/-! SUPPORT. Proofs of the state family: what a step does to a byte of memory (10_state.md R131,
R134). -/

namespace Sys2Proof.Machine

/-- Only BUILD and PARSE write a buffer (10_state.md R136). -/
theorem outputBuffers_cases {i : Instr} {b : Buffer} (h : b ∈ outputBuffers i) :
    (i = .build ∧ b = .tx) ∨ (i = .parse ∧ b = .path) := by
  cases i with
  | build => exact .inl ⟨rfl, List.mem_singleton.mp h⟩
  | parse => exact .inr ⟨rfl, List.mem_singleton.mp h⟩
  | _ => exact absurd h List.not_mem_nil

/-- The window of a buffer (20_memory.md R201). -/
theorem window_of_inside {b : Buffer} {c : Params} {a : Nat}
    (h : b.base ≤ a ∧ a < b.base + b.cap c) : a / 0x10000 = b.base / 0x10000 := by
  have hc := cap_lt c b
  obtain ⟨k, -, -, hk⟩ := base_eq b
  omega

/-- A length within a capacity fits a 16-bit register (00_scope.md R9). -/
theorem toNat_length_of_le_cap {n : Nat} {cap : BitVec 16} (h : n ≤ cap.toNat) :
    (BitVec.ofNat 16 n).toNat = n := by
  rw [BitVec.toNat_ofNat, Nat.mod_eq_of_lt (Nat.lt_of_le_of_lt h cap.isLt)]

theorem getElem?_sub_ne_none {bs : List Byte} {p a : Nat} (low : p ≤ a) (high : a < p + bs.length) :
    bs[a - p]? ≠ none := by
  simp only [ne_eq, List.getElem?_eq_none_iff]; omega

/-- What a step can do to the byte at an address. -/
inductive ByteStep (s t : State) (a : Nat) : Prop where
  | kept (same : Memory.get? t.mem a = Memory.get? s.mem a)
  /-- A host write to the byte's word (20_memory.md R205). -/
  | hostWrite {addr : BitVec 20} {v : Word} {rest : List Move}
      (move : s.inputs = .write addr v :: rest) (word : addr.toNat / 4 = a / 4)
      (window : a / 0x10000 = 1 ∨ a / 0x10000 = 3) (written : Memory.get? t.mem a ≠ none)
  | hardReset {rest : List Move} (move : s.inputs = .hardReset :: rest)
  /-- The buffer of a running command becomes unspecified (log 10). -/
  | redrawn (value : Byte) (drawn : Memory.get? t.mem a = (Memory.get? s.mem a).map (fun _ => value))
      (running : (a / 0x10000 = 2 ∧ s.running = some .build) ∨
        (a / 0x10000 = 4 ∧ s.running = some .parse))
  /-- The frame of an untainted BUILD (42_message_builder.md R600). -/
  | framed (running : s.running = some .build) (untainted : s.taint = false) (done : t.done = true)
      (noError : t.err = false) (low : 0x20000 ≤ a) (high : a < 0x20000 + t.txLen.toNat)
      (written : Memory.get? t.mem a ≠ none)
  /-- The path of an untainted PARSE (41_message_parser.md R510). -/
  | committed (running : s.running = some .parse) (untainted : s.taint = false) (done : t.done = true)
      (valid : t.pFlags.valid = true) (low : 0x40000 ≤ a) (high : a < 0x40000 + t.pPathLen.toNat)
      (written : Memory.get? t.mem a ≠ none)

section
variable {s : State} {a : Nat}

/-- The draws of a running command's output buffers. -/
theorem byteStep_of_drawn {t : State} {i : Instr} (hr : s.running = some i) (draws : Nat)
    (h : Memory.get? t.mem a =
      if ∃ b ∈ outputBuffers i, b.base ≤ a ∧ a < b.base + b.cap s.params then
        (Memory.get? s.mem a).map (fun _ => Config.drawByte draws a)
      else Memory.get? s.mem a) : ByteStep s t a := by
  split_ifs at h with hb
  · obtain ⟨b, hmem, hin⟩ := hb
    have hw := window_of_inside hin
    refine .redrawn _ h ?_
    rcases outputBuffers_cases hmem with ⟨rfl, rfl⟩ | ⟨rfl, rfl⟩
    · exact .inl ⟨hw, hr⟩
    · exact .inr ⟨hw, hr⟩
  · exact .kept h

/-- The completion of an untainted BUILD. -/
theorem byteStep_build (hr : s.running = some .build) (ht : s.taint = false) (rest : List Move) :
    ByteStep s (State.completion .build (buildRule (s.tick rest)) (s.tick rest)) a := by
  rw [completion_untainted _ _ (s.tick rest) ht]
  rcases buildRule_cases (s.tick rest) with ⟨e, -, he⟩ | ⟨hlen, he⟩
  · rw [he]; exact .kept rfl
  · rw [he]
    have hget := get?_storeBytes (s.tick rest) .tx 0 (s.tick rest).frame a
    by_cases hin : 0x20000 ≤ a ∧ a < 0x20000 + (s.tick rest).frame.length
    · have hlen : (BitVec.ofNat 16 (s.tick rest).frame.length).toNat = (s.tick rest).frame.length :=
        toNat_length_of_le_cap hlen
      refine .framed hr ht rfl rfl hin.1 (Nat.lt_of_lt_of_eq hin.2 (congrArg _ hlen.symm)) ?_
      exact ne_of_eq_of_ne (hget.trans (if_pos hin)) (getElem?_sub_ne_none hin.1 hin.2)
    · exact .kept (hget.trans (if_neg hin))

/-- The completion of an untainted PARSE. -/
theorem byteStep_parse (h : Inv s) (hr : s.running = some .parse) (ht : s.taint = false)
    (rest : List Move) :
    ByteStep s (State.completion .parse (parseRule (s.tick rest)) (s.tick rest)) a := by
  rw [completion_untainted _ _ (s.tick rest) ht]
  rcases parseRule_cases (s.tick rest) with ⟨hdone, he⟩ | ⟨e, pos, -, he⟩
  · rw [he]
    have hpath := (finalScan_bounded _ (theScan_ok _ (tick_inv rest h)) hdone).path
    have hget := get?_parseCommit (s.tick rest) (s.tick rest).finalScan a
    split_ifs at hget with hin hbuf
    · refine .committed hr ht rfl rfl hin.1 ?_ ?_
      · exact Nat.lt_of_lt_of_eq hin.2 (congrArg _ (toNat_length_of_le_cap hpath).symm)
      · exact ne_of_eq_of_ne hget (getElem?_sub_ne_none hin.1 hin.2)
    · exact .redrawn _ hget (.inr ⟨window_of_inside (b := .path) hbuf, hr⟩)
    · exact .kept hget
  · rw [he]
    have hget := get?_parseFailure (s.tick rest) a
    split_ifs at hget with hbuf
    · exact .redrawn _ hget (.inr ⟨window_of_inside (b := .path) hbuf, hr⟩)
    · exact .kept hget

theorem byteStep_completed (h : Inv s) {i : Instr} (hr : s.running = some i) (rest : List Move) :
    ByteStep s (State.completion i (commandRule i (s.tick rest)) (s.tick rest)) a := by
  cases ht : s.taint with
  | true =>
    have htick : (s.tick rest).taint = true := ht
    exact byteStep_of_drawn hr (s.tick rest).draws (by rw [completion_get, if_pos htick]; rfl)
  | false =>
    by_cases hb : i = .build
    · subst hb; exact byteStep_build hr ht rest
    · by_cases hp : i = .parse
      · subst hp; exact byteStep_parse h hr ht rest
      · refine .kept ?_
        rw [completion_untainted _ _ (s.tick rest) ht]
        refine rule_mem i (s.tick rest) a (theScan_ok _ (tick_inv rest h)) (fun b hmem => ?_)
        rcases outputBuffers_cases hmem with ⟨hi, _⟩ | ⟨hi, _⟩
        · exact absurd hi hb
        · exact absurd hi hp

/-- A soft reset redraws the buffer of an abandoned command alone (70_reset_and_hazards.md R901). -/
theorem byteStep_softReset (rest : List Move) : ByteStep s (s.tick rest).softReset a := by
  cases hr : s.running with
  | none =>
    refine .kept ?_
    simp [State.softReset, State.abandonBuffers, hr]
  | some i =>
    refine byteStep_of_drawn hr (s.tick rest).draws ?_
    simp only [State.softReset, State.abandonBuffers, tick_running, hr]
    exact get?_foldl_drawBuffer _ _ a

theorem byteStep_wrote {addr : BitVec 20} {v : Word} {rest : List Move} {target : Target}
    (hin : s.inputs = .write addr v :: rest) (ht : resolve s.params addr = .ok target) :
    ByteStep s ((s.tick rest).writeTarget target v) a := by
  cases target with
  | hole => exact .kept rfl
  | reg r =>
    rw [State.writeTarget]
    rcases writeReg_cases r v (s.tick rest) with ⟨_, _, e⟩ | ⟨_, _, e⟩ | ⟨_, _, e⟩ | ⟨_, _, e⟩ |
      ⟨_, e⟩ | ⟨_, e⟩ | ⟨_, _, _, _, e⟩ <;> rw [e]
    · exact byteStep_softReset rest
    · exact .kept rfl
    · exact .kept rfl
    · exact .kept rfl
    · exact .kept rfl
    · exact .kept (by simp)
    · exact .kept rfl
  | word b i =>
    obtain ⟨haddr, h4, hcap⟩ := resolve_ok_word ht
    rw [State.writeTarget]
    split_ifs with hw
    · have hget := get?_storeBytes ((s.tick rest).taintIf ((s.tick rest).readsBufferNow b)) b i
        (writtenLanes v (b.cap s.params) i) a
      rw [writtenLanes_length] at hget
      split_ifs at hget with hlane
      · have hwin : a / 0x10000 = b.base / 0x10000 := window_of_inside (c := s.params) (by omega)
        obtain ⟨k, -, -, hk⟩ := base_eq b
        refine .hostWrite hin (by omega) ?_ ?_
        · rw [hwin]
          cases b with
          | rx => exact .inl rfl
          | body => exact .inr rfl
          | tx | path => exact absurd hw (by decide)
        · refine ne_of_eq_of_ne hget (getElem?_sub_ne_none hlane.1 ?_)
          rw [writtenLanes_length]; exact hlane.2
      · exact .kept hget
    · exact .kept rfl

/-- Everything a step can do to a byte. -/
theorem byteStep_of_step {t : State} (h : Inv s) (ht : step s = .next t) (a : Nat) :
    ByteStep s t a := by
  cases stepped_of_step ht with
  | idle | skipped | read | scanned => exact .kept rfl
  | wrote hin hres => exact byteStep_wrote hin hres
  | reset hin => exact .hardReset hin
  | completed rest hr => exact byteStep_completed h hr rest

end

/-- Settles O54: of what a step can do to a byte, a change needs one of its writers. -/
theorem buffersChangeOnlyByTheirWriters : Obligations.BuffersChangeOnlyByTheirWriters := by
  intro s t a h ht hne hnr
  cases byteStep_of_step h ht a with
  | kept same => exact absurd same hne
  | hostWrite move word window _ => exact .inl ⟨_, _, _, move, word, window⟩
  | hardReset move => exact absurd move (hnr _)
  | redrawn _ _ running => exact .inr running
  | framed running _ _ _ low high _ =>
    have := t.txLen.isLt
    exact .inr (.inl ⟨by omega, running⟩)
  | committed running _ _ _ low high _ =>
    have := t.pPathLen.isLt
    exact .inr (.inr ⟨by omega, running⟩)

/-- Settles O59: of what a step can do to a byte, only a store sets its written bit and only a hardware
reset clears it. -/
theorem writtenBitsChangeOnlyByWritersOrReset : Obligations.WrittenBitsChangeOnlyByWritersOrReset := by
  intro s t a h ht
  cases byteStep_of_step h ht a with
  | kept same =>
    rw [same]
    exact ⟨fun h0 h1 => absurd h0 h1, fun h0 h1 => absurd h1 h0⟩
  | hostWrite move word window written =>
    exact ⟨fun _ _ => .inl ⟨_, _, _, move, word, window⟩, fun _ h1 => absurd h1 written⟩
  | @hardReset rest move =>
    refine ⟨fun h0 h1 => ?_, fun _ _ => ⟨rest, move⟩⟩
    cases (step_move move).symm.trans ht
    exact absurd rfl h1
  | redrawn value drawn _ =>
    rw [drawn]
    exact ⟨fun h0 h1 => by simp [h0] at h1, fun h0 h1 => absurd (by simpa using h1) h0⟩
  | framed running untainted done noError low high written =>
    exact ⟨fun _ _ => .inr (.inl ⟨running, untainted, done, noError, low, high⟩),
      fun _ h1 => absurd h1 written⟩
  | committed running untainted done valid low high written =>
    exact ⟨fun _ _ => .inr (.inr ⟨running, untainted, done, valid, low, high⟩),
      fun _ h1 => absurd h1 written⟩

end Sys2Proof.Machine
end

section
/-! SUPPORT. Proofs of the state family: the hidden scan of PARSE, and that PARSE reads its datagram
only (10_state.md R134, R136; 20_memory.md R212). -/

namespace Sys2Proof.Machine

/-- Settles O35: a wire element acts on the scan, and only of a running PARSE. -/
theorem wireElementsTouchOnlyTheScan : Obligations.WireElementsTouchOnlyTheScan := by
  intro i s hi
  refine ⟨_, exec_wire i s hi, ?_, fun hr => onScan_idle _ s hr⟩
  by_cases hr : s.running = some .parse
  · rw [onScan_running _ s hr]
  · rw [onScan_idle _ s hr]

/-! ## PARSE reads its datagram only (20_memory.md R212) -/

theorem readByte_congr {s t : State} {b : Buffer} {i : Nat} (hd : s.draws = t.draws)
    (hm : Memory.get? s.mem (b.base + i) = Memory.get? t.mem (b.base + i)) :
    s.readByte b i = t.readByte b i := by
  rw [readByte_eq_getD, readByte_eq_getD, hm, hd]

/-- A written byte reads the same in every state with the same memory. -/
theorem readByte_written {s t : State} {b : Buffer} {i : Nat} (hm : t.mem = s.mem)
    (hw : ∃ v, Memory.get? s.mem (b.base + i) = some v) : t.readByte b i = s.readByte b i := by
  obtain ⟨v, hv⟩ := hw
  rw [readByte_of_get? hv, readByte_of_get? (hm ▸ hv)]

/-- One pass less leaves the same final scan (41_message_parser.md R511). -/
theorem scanRun_scanAdvance (src : Nat → Byte) (rxCap pathCap : Nat) (sc : Scan) :
    scanRun src rxCap pathCap (scanFuel (scanAdvance src rxCap pathCap sc).n)
      (scanAdvance src rxCap pathCap sc) = scanRun src rxCap pathCap (scanFuel sc.n) sc := by
  rw [scanAdvance_n]
  exact scanRun_succ src rxCap pathCap (scanFuel sc.n) sc (scan_rank_le sc)

/-- A hidden step leaves the final scan. -/
theorem finalScan_scanned (s : State) :
    State.finalScan { s with
      scan := some (scanAdvance s.rxSource s.params.rxCap.toNat s.params.pathCap.toNat s.theScan) } =
        s.finalScan :=
  scanRun_scanAdvance _ _ _ _

/-- A tick leaves the final scan when the datagram is written. -/
theorem finalScan_tick (s : State) (rest : List Move)
    (h : ∀ i < s.theScan.n, ∃ v, Memory.get? s.mem (0x10000 + i) = some v) :
    (s.tick rest).finalScan = s.finalScan :=
  scanRun_congr _ _ _ _ _ _ (fun i hi => readByte_written (b := .rx) rfl (h i hi))

/-- Settles O31: a hidden step is one pass of the scan, and the final scan is all of them. -/
theorem hiddenParseStepsAreInvisible : Obligations.HiddenParseStepsAreInvisible := by
  intro s rest hin hr hw
  have hstep := (step_move hin).trans (scanMove_running (s.tick rest) hr)
  exact ⟨_, hstep, rfl, (finalScan_scanned (s.tick rest)).trans (finalScan_tick s rest hw)⟩

theorem theScan_of_none {s : State} (h : s.scan = none) : s.theScan = Scan.start s.rxLen.toNat := by
  simp [State.theScan, h]

theorem theScan_ok_of_none {s : State} (h : s.scan = none) : s.theScan.Ok s.params := by
  rw [theScan_of_none h]; exact .inl rfl

/-- The final scan depends on the capacities, the scan so far and the bytes below its length
(20_memory.md R212). -/
theorem finalScan_congr {s s' : State} (hsc : s.theScan = s'.theScan) (hp : s.params = s'.params)
    (hsrc : ∀ i, i < s.theScan.n → s.rxSource i = s'.rxSource i) : s.finalScan = s'.finalScan := by
  unfold State.finalScan
  rw [← hsc, ← hp]
  exact scanRun_congr _ _ _ _ _ _ hsrc

/-! ## The rule of PARSE in two states with the same final scan -/

theorem parseRule_of_done {s : State} (h : s.finalScan.phase = .done) :
    parseRule s = complete (s.parseCommit s.finalScan) := by simp only [parseRule, h]

theorem parseRule_of_failed {s : State} {e : Error} {pos : Nat}
    (h : s.finalScan.phase = .failed e pos) : parseRule s = raiseError e pos s.parseFailure := by
  simp only [parseRule, h]

/-- The output registers of PARSE but for `ERR_INFO`. -/
def parseRegs : List Reg := parseResultRegs ++ [.pFlags]

theorem mem_outputRegs_parse {r : Reg} : r ∈ outputRegs .parse ↔ r ∈ parseRegs ∨ r = .errInfo := by
  simp [outputRegs, parseRegs, or_assoc]

/-- What a commit writes into the register bank comes from the scan. -/
theorem parseCommit_get_congr (sc : Scan) (s s' : State) {r : Reg} (h : r ∈ parseRegs) :
    r.get (s.parseCommit sc) = r.get (s'.parseCommit sc) := by
  cases r with
  | reqType | reqTkl | reqCode | reqMid | reqToken0 | reqToken1 | pFlags | pPathLen | pCfValue
  | pPayloadOff | pPayloadLen | pOptCount | pLastOptnum => rfl
  | _ => exact absurd h (by decide)

theorem set_pFlags (r : Reg) (v : Word) (s : State) (h : r ≠ .pFlags) :
    (r.set v s).pFlags = s.pFlags := by
  cases r with
  | pFlags => exact absurd rfl h
  | _ => rfl

theorem parseFailure_pFlags (s : State) : s.parseFailure.pFlags =
    { ParseFlags.ofWord (Config.drawWord s.draws Reg.pFlags.offset) with valid := false } := by
  have hkeep := foldl_drawReg_keeps State.pFlags parseResultRegs
    (fun r hr v u => set_pFlags r v u (by rintro rfl; exact absurd hr (by decide))) (s.drawReg .pFlags)
  exact congrArg (fun f : ParseFlags => { f with valid := false }) hkeep

/-- What a failure writes into the register bank comes from the step's number. -/
theorem parseFailure_get_congr {s s' : State} (hd : s.draws = s'.draws) {r : Reg} (h : r ∈ parseRegs) :
    r.get s.parseFailure = r.get s'.parseFailure := by
  rcases List.mem_append.mp h with h | h
  · rw [(parseFailure_get s r).1 h, (parseFailure_get s' r).1 h, hd]
  · rw [List.mem_singleton.mp h, Reg.get, Reg.get, parseFailure_pFlags, parseFailure_pFlags, hd]

theorem map_const_congr {o o' : Option Byte} (h : o.isSome = o'.isSome) (v : Byte) :
    o.map (fun _ => v) = o'.map (fun _ => v) := by
  cases o <;> cases o' <;> simp_all

section
variable {s s' : State} (hf : s.finalScan = s'.finalScan) (hd : s.draws = s'.draws)
include hf

theorem parseRule_err_congr : (parseRule s).err = (parseRule s').err := by
  rcases parseRule_cases s with ⟨hph, e⟩ | ⟨err, pos, hph, e⟩
  · rw [e, parseRule_of_done (hf ▸ hph)]; rfl
  · rw [e, parseRule_of_failed (hf ▸ hph)]; rfl

include hd

theorem parseRule_get_congr {r : Reg} (h : r ∈ parseRegs) :
    r.get (parseRule s).st = r.get (parseRule s').st := by
  rcases parseRule_cases s with ⟨hph, e⟩ | ⟨err, pos, hph, e⟩
  · rw [e, parseRule_of_done (hf ▸ hph), ← hf]
    exact parseCommit_get_congr _ s s' h
  · rw [e, parseRule_of_failed (hf ▸ hph)]
    exact parseFailure_get_congr hd h

/-- A `PATH` byte written in both states or in neither ends the same. -/
theorem parseRule_path_congr (hp : s.params = s'.params) {a : Nat}
    (hin : 0x40000 ≤ a ∧ a < 0x40000 + s.params.pathCap.toNat)
    (h : (Memory.get? s.mem a).isSome = (Memory.get? s'.mem a).isSome) :
    Memory.get? (parseRule s).st.mem a = Memory.get? (parseRule s').st.mem a := by
  have hdraw : (Memory.get? s.mem a).map (fun _ => Config.drawByte s.draws a) =
      (Memory.get? s'.mem a).map (fun _ => Config.drawByte s'.draws a) :=
    hd ▸ map_const_congr h _
  have hin' : 0x40000 ≤ a ∧ a < 0x40000 + s'.params.pathCap.toNat := hp ▸ hin
  rcases parseRule_cases s with ⟨hph, e⟩ | ⟨err, pos, hph, e⟩
  · rw [e, parseRule_of_done (hf ▸ hph), complete_st, complete_st, get?_parseCommit, get?_parseCommit,
      if_pos hin, if_pos hin', hdraw, hf]
  · rw [e, parseRule_of_failed (hf ▸ hph), raiseError_st, raiseError_st, get?_parseFailure,
      get?_parseFailure, if_pos hin, if_pos hin', hdraw]

end

/-- After a success `PATH` holds the path of the final scan (41_message_parser.md R500). -/
theorem parseRule_path {s : State} (hok : s.theScan.Ok s.params) (hc : (parseRule s).err.code = 0)
    {i : Nat} (hi : i < (parseRule s).st.pPathLen.toNat) :
    Memory.get? (parseRule s).st.mem (0x40000 + i) = s.finalScan.path[i]? := by
  rcases parseRule_cases s with ⟨_, e⟩ | ⟨err, pos, hph, e⟩ <;> rw [e] at hc hi ⊢
  · have hle : i < s.finalScan.path.length :=
      Nat.lt_of_lt_of_le hi (by simpa [State.parseCommit] using Nat.mod_le _ _)
    rw [complete_st, get?_parseCommit, if_pos (by omega), Nat.add_sub_cancel_left]
  · exact absurd hc (code_ne_zero err (finalScan_failed s hok hph).1)

/-- An untainted PARSE completes with its rule's outputs (45_command_control.md R700). -/
theorem exec_parse_untainted {s t : State} (hs : s.taint = false) (ht : exec .parse s = .next t) :
    t.mem = (parseRule s).st.mem ∧ t.errInfo = (parseRule s).err ∧
      t.pPathLen = (parseRule s).st.pPathLen ∧
      ∀ r ∈ parseRegs, r.get t = r.get (parseRule s).st := by
  rw [exec_command _ _ rfl, completion_untainted _ _ _ hs] at ht
  cases ht
  have hc : ∀ r ∈ parseRegs, r ∉ controlRegs := by decide
  exact ⟨rfl, rfl, rfl, fun r hr => get_control (hc r hr)⟩

/-- Settles O32: both runs have one final scan, and the rule of PARSE writes its outputs from that and
the step's number. -/
theorem parseDependsOnDatagramOnly : Obligations.ParseDependsOnDatagramOnly := by
  intro s s' t t' hs hs' hsc hsc' hp hl hd hm ht ht'
  have hth : s.theScan = s'.theScan := by rw [theScan_of_none hsc, theScan_of_none hsc', hl]
  have hsrc : ∀ i, i < s.theScan.n → s.rxSource i = s'.rxSource i := fun i hi =>
    readByte_congr (b := .rx) hd (hm i (by rwa [theScan_of_none hsc] at hi))
  have hf := finalScan_congr hth hp hsrc
  have herr := parseRule_err_congr hf
  obtain ⟨hmem, hinfo, hlen, hget⟩ := exec_parse_untainted hs ht
  obtain ⟨hmem', hinfo', -, hget'⟩ := exec_parse_untainted hs' ht'
  rw [hmem, hmem']
  refine ⟨fun r hr => ?_, fun hno i hi => ?_, fun i hi h => ?_⟩
  · rcases mem_outputRegs_parse.mp hr with hr | rfl
    · rw [hget r hr, hget' r hr, parseRule_get_congr hf hd hr]
    · rw [Reg.get, Reg.get, hinfo, hinfo', herr]
  · have hcode := hinfo ▸ (err_false t).mp hno
    rw [hlen] at hi
    have hlen' := field16_injective (parseRule_get_congr hf hd (r := .pPathLen) (by decide))
    rw [parseRule_path (theScan_ok_of_none hsc) hcode hi, hf]
    exact (parseRule_path (theScan_ok_of_none hsc') (herr ▸ hcode) (hlen' ▸ hi)).symm
  · exact parseRule_path_congr hf hd hp (by omega) h

end Sys2Proof.Machine
end

section
/-! SUPPORT. Proofs of the memory family: where a bus access goes and when it faults (20_memory.md R201,
R203, R205, R211). -/

namespace Sys2Proof.Machine

/-! ## The address decoder, region by region -/

theorem resolve_misaligned (c : Params) {addr : BitVec 20} (h4 : addr.toNat % 4 ≠ 0) :
    resolve c addr = .error .busMisaligned := by
  simp [resolve, h4]

/-- The register bank maps every word, its holes included (20_memory.md R209). -/
theorem resolve_bank (c : Params) {addr : BitVec 20} (h4 : addr.toNat % 4 = 0)
    (h : addr.toNat < 0x100) : ∃ target, resolve c addr = .ok target := by
  cases hr : Reg.at? addr.toNat with
  | some r => exact ⟨.reg r, by simp [resolve, h4, h, hr]⟩
  | none => exact ⟨.hole, by simp [resolve, h4, h, hr]⟩

theorem resolve_unmapped (c : Params) {addr : BitVec 20} (h4 : addr.toNat % 4 = 0)
    (h : (0x100 ≤ addr.toNat ∧ addr.toNat < 0x10000) ∨ 0x50000 ≤ addr.toNat) :
    resolve c addr = .error .busUnmapped := by
  have hbank : ¬ addr.toNat < 0x100 := by omega
  cases hb : windowBuffer (addr.toNat / 0x10000) with
  | some b =>
    have hbase := windowBuffer_some hb
    obtain ⟨k, h1, h2, hk⟩ := base_eq b
    omega
  | none => simp [resolve, h4, hbank, hb]

/-- The window of a buffer: its words below the capacity, and nothing above (20_memory.md R205). -/
theorem resolve_window (c : Params) (b : Buffer) {addr : BitVec 20} (h4 : addr.toNat % 4 = 0)
    (hlo : b.base ≤ addr.toNat) (hhi : addr.toNat < b.base + 0x10000) :
    resolve c addr = if addr.toNat - b.base < b.cap c then .ok (.word b (addr.toNat - b.base))
      else .error .busPastCapacity := by
  obtain ⟨k, h1, -, hk⟩ := base_eq b
  have hbank : ¬ addr.toNat < 0x100 := by omega
  have hb : windowBuffer (addr.toNat / 0x10000) = some b := by
    rw [show addr.toNat / 0x10000 = b.base / 0x10000 by omega, windowBuffer_base]
  have hi : addr.toNat % 0x10000 = addr.toNat - b.base := by omega
  simp [resolve, h4, hbank, hb, hi]

/-! ## Bus accesses -/

/-- The move is the host's read or write at the address. -/
def Move.AccessesBus (m : Move) (addr : BitVec 20) : Prop := m = .read addr ∨ ∃ v, m = .write addr v

theorem step_access_fault {s : State} {m : Move} {addr : BitVec 20} {rest : List Move} {f : Fault}
    (hm : m.AccessesBus addr) (hin : s.inputs = m :: rest) (h : resolve s.params addr = .error f) :
    step s = .fault f := by
  rw [step_move hin]
  obtain rfl | ⟨v, rfl⟩ := hm
  · simp [move, busRead, h]
  · simp [move, busWrite, h]

theorem step_access_next {s : State} {m : Move} {addr : BitVec 20} {rest : List Move}
    (hm : m.AccessesBus addr) (hin : s.inputs = m :: rest)
    (h : ∃ target, resolve s.params addr = .ok target) : ∃ t, step s = .next t := by
  obtain ⟨target, h⟩ := h
  rw [step_move hin]
  obtain rfl | ⟨v, rfl⟩ := hm
  · exact ⟨{ s.tick rest with busData := (s.tick rest).readTarget target }, by simp [move, busRead, h]⟩
  · exact ⟨(s.tick rest).writeTarget target v, by simp [move, busWrite, h]⟩

/-- A step answers a next state, or it is a bus access that faults. -/
theorem step_next_or_busFault (s : State) :
    (∃ t, step s = .next t) ∨
    ∃ m addr rest f, Move.AccessesBus m addr ∧ s.inputs = m :: rest ∧ step s = .fault f := by
  rcases step_cases s with ⟨_, _, e⟩ | ⟨_, _, _, e⟩ | ⟨addr, rest, hin, e⟩ | ⟨addr, v, rest, hin, e⟩ |
    ⟨_, _, e⟩ | ⟨_, _, _, e⟩ | ⟨_, _, _, e⟩ | ⟨_, _, _, e⟩ | ⟨_, _, _, _, e⟩
  case inr.inr.inl =>
    rcases busRead_cases addr (s.tick rest) with ⟨_, _, e'⟩ | ⟨f, _, e'⟩
    · exact .inl ⟨_, e.trans e'⟩
    · exact .inr ⟨_, addr, rest, f, .inl rfl, hin, e.trans e'⟩
  case inr.inr.inr.inl =>
    rcases busWrite_cases addr v (s.tick rest) with ⟨_, _, e'⟩ | ⟨f, _, e'⟩
    · exact .inl ⟨_, e.trans e'⟩
    · exact .inr ⟨_, addr, rest, f, .inr ⟨v, rfl⟩, hin, e.trans e'⟩
  all_goals exact .inl ⟨_, e⟩

/-- Settles O3: an access faults where the decoder does, region by region, and no other move faults. -/
theorem busErrorsAreTheOnlyFaults : Obligations.BusErrorsAreTheOnlyFaults := by
  refine ⟨fun s m addr rest hm hin => ⟨fun h4 => ?_, fun h4 hun => ?_, fun h4 b hcap hhi => ?_,
    fun h4 hmap => ?_⟩, fun s f hf => ?_, fun s r hr => ?_⟩
  · exact step_access_fault hm hin (resolve_misaligned _ h4)
  · exact step_access_fault hm hin (resolve_unmapped _ h4 hun)
  · refine step_access_fault hm hin ?_
    rw [resolve_window _ b h4 (by omega) hhi, if_neg (by omega)]
  · refine step_access_next hm hin ?_
    obtain hbank | ⟨b, hlo, hcap⟩ := hmap
    · exact resolve_bank _ h4 hbank
    · have := cap_lt s.params b
      rw [resolve_window _ b h4 hlo (by omega), if_pos (by omega)]
      exact ⟨_, rfl⟩
  · obtain ⟨t, ht⟩ | ⟨_, addr, rest, _, hm, hin, -⟩ := step_next_or_busFault s
    · exact nomatch hf.symm.trans ht
    · obtain rfl | ⟨v, rfl⟩ := hm
      · exact ⟨addr, rest, .inl hin⟩
      · exact ⟨addr, rest, .inr ⟨v, hin⟩⟩
  · obtain ⟨t, ht⟩ | ⟨_, _, _, _, -, -, ht⟩ := step_next_or_busFault s
    · exact nomatch hr.symm.trans ht
    · exact nomatch hr.symm.trans ht

end Sys2Proof.Machine
end

section
/-! SUPPORT. Proofs of the memory family: what a bus read returns and leaves, and what a write to a
buffer window stores (20_memory.md R204, R205, R206, R210). -/

namespace Sys2Proof.Machine

/-- A read move to a buffer word below the capacity returns its lanes (20_memory.md R204, R205). -/
theorem step_readWord {s : State} {b : Buffer} {w : Nat} {addr : BitVec 20} {rest : List Move}
    (ha : addr.toNat = b.base + 4 * w) (hw : 4 * w < b.cap s.params)
    (hin : s.inputs = .read addr :: rest) :
    step s = .next { s.tick rest with busData := (s.tick rest).readTarget (.word b (4 * w)) } := by
  rw [step_move hin, move]
  simp [busRead, resolve_word _ b w addr ha hw]

theorem readLane_pastCap {s : State} {b : Buffer} {i : Nat} (h : b.cap s.params ≤ i) :
    s.readLane b i = 0 := by
  simp [State.readLane, h]

/-- The read hazard (70_reset_and_hazards.md R912). -/
theorem readLane_draw {s : State} {b : Buffer} {i : Nat} (h : i < b.cap s.params)
    (hw : s.writesBufferNow b = true) : s.readLane b i = Config.drawByte s.draws (b.base + i) := by
  simp [State.readLane, Nat.not_le.mpr h, hw]

theorem readLane_byte {s : State} {b : Buffer} {i : Nat} (h : i < b.cap s.params)
    (hw : s.writesBufferNow b = false) : s.readLane b i = s.readByte b i := by
  simp [State.readLane, Nat.not_le.mpr h, hw]

/-- Settles O6: each lane of the returned word is `readLane` of its byte. -/
theorem bufferReadReturnsLanes : Obligations.BufferReadReturnsLanes := by
  intro s b w addr rest ha hw hin
  refine ⟨_, step_readWord ha hw hin, fun k hk => ?_⟩
  have hlane : BitVec.extractLsb' (8 * k) 8 ((s.tick rest).readTarget (.word b (4 * w))) =
      (s.tick rest).readLane b (4 * w + k) := lane_readTarget _ b _ k hk
  rw [hlane]
  exact ⟨fun hcap => readLane_pastCap hcap,
    fun hcap hnow => (readLane_byte (s := s.tick rest) hcap hnow).trans (readByte_eq_getD _ b _),
    fun hcap hnow => readLane_draw hcap hnow⟩

theorem get_storeBytes (r : Reg) (s : State) (b : Buffer) (i : Nat) (bs : List Byte) :
    r.get (s.storeBytes b i bs) = r.get s := reg_view_mem r s _

/-- Settles O7: the write is one store of the lanes below the capacity. -/
theorem bufferWriteStoresLanes : Obligations.BufferWriteStoresLanes := by
  intro s b w addr v rest hb ha hw hin
  have hrw : b.hostWritable = true := by rcases hb with rfl | rfl <;> rfl
  have hlen := writtenLanes_length v (b.cap s.params) (4 * w)
  refine ⟨_, step_writeWord hrw ha hw hin, fun k hk hcap => ?_, fun a hout => ?_, fun r => ?_, rfl, rfl⟩
  · rw [get?_storeBytes, if_pos (by omega),
      show b.base + (4 * w + k) - (b.base + 4 * w) = k by omega]
    exact writtenLanes_getElem? v _ _ k hk hcap
  · rw [get?_storeBytes, if_neg (by omega)]
    rfl
  · rw [get_storeBytes, get_taintIf, get_tick]

/-- Settles O4: a read that answers a next state has set `busData` alone. -/
theorem busReadsHaveNoSideEffects : Obligations.BusReadsHaveNoSideEffects := by
  intro s t addr rest hin ht
  rw [step_move hin, move] at ht
  rcases busRead_cases addr (s.tick rest) with ⟨_, _, e⟩ | ⟨_, _, e⟩ <;> rw [e] at ht <;> cases ht
  rfl

end Sys2Proof.Machine
end

section
/-! SUPPORT. Proofs of the encoding family: the decoder on the encoder's bytes, and the encoder on what
the decoder answers (30_encoding.md R300 to R302, R311, R314 to R317; 45_command_control.md R702). -/

namespace Sys2Proof

/-! ## Command words -/

theorem decodeCommand_reservedOpcode {op : BitVec 4} (mbz : BitVec 28) (h : 5 ≤ op.toNat) :
    decodeCommand (commandWord op mbz) = .illegalReservedOpcode op mbz := by
  simp [decodeCommand, h]

theorem decodeCommand_reservedBits {op : BitVec 4} {mbz : BitVec 28} (h : op.toNat ≤ 4)
    (hm : mbz ≠ 0) : decodeCommand (commandWord op mbz) = .illegalReservedBits op mbz := by
  have hm' : ¬ mbz = 0#28 := hm
  simp [decodeCommand, show ¬ 5 ≤ op.toNat by omega, hm']

/-- A word is put together from its number's `OP` and `MBZ` (30_encoding.md R300). -/
theorem commandWord_ofNat (w : Word) :
    commandWord (BitVec.ofNat 4 w.toNat) (BitVec.ofNat 28 (w.toNat / 16)) = w := by
  have hop : BitVec.ofNat 4 w.toNat = w.extractLsb' 0 4 :=
    BitVec.eq_of_toNat_eq ((BitVec.toNat_ofNat _ _).trans (op_toNat w).symm)
  have hmbz : BitVec.ofNat 28 (w.toNat / 16) = w.extractLsb' 4 28 := by
    rw [← mbz_toNat, BitVec.ofNat_toNat, BitVec.setWidth_eq]
  rw [hop, hmbz, commandWord_fields]

/-- Every word is a legal command word or of one of the two illegal classes, the reserved opcode first
(45_command_control.md R703). -/
theorem word_cases (w : Word) :
    (w = 0#32 ∨ w = 1#32 ∨ w = 2#32 ∨ w = 3#32 ∨ w = 4#32) ∨
    (∃ op mbz, w = commandWord op mbz ∧ 5 ≤ op.toNat) ∨
    (∃ op mbz, w = commandWord op mbz ∧ op.toNat ≤ 4 ∧ mbz ≠ 0) := by
  by_cases hop : 5 ≤ (w.extractLsb' 0 4).toNat
  · exact .inr (.inl ⟨_, _, (commandWord_fields w).symm, hop⟩)
  by_cases hmbz : w.extractLsb' 4 28 = 0
  · have hop' := op_toNat w
    have hmbz' : 0 = w.toNat / 16 := (congrArg BitVec.toNat hmbz).symm.trans (mbz_toNat w)
    left
    simp only [← BitVec.toNat_inj, BitVec.toNat_ofNat]
    omega
  · exact .inr (.inr ⟨_, _, (commandWord_fields w).symm, by omega, hmbz⟩)

/-- Settles O18: a word is one of five numbers, or the word of its own `OP` and `MBZ`. -/
theorem everyWordSelectsOneCommand : Obligations.EveryWordSelectsOneCommand := by
  intro w
  have legal {n : Nat} (h : w.toNat = n) : w = BitVec.ofNat 32 n := by
    rw [← h, BitVec.ofNat_toNat, BitVec.setWidth_eq]
  refine ⟨fun h => legal h ▸ rfl, fun h => legal h ▸ rfl, fun h => legal h ▸ rfl,
    fun h => legal h ▸ rfl, fun h => legal h ▸ rfl, fun _ hop => ?_, fun h hop => ?_⟩
  · have hop' : 5 ≤ (BitVec.ofNat 4 w.toNat).toNat := by simpa using hop
    simpa only [commandWord_ofNat] using
      decodeCommand_reservedOpcode (BitVec.ofNat 28 (w.toNat / 16)) hop'
  · have hop' : (BitVec.ofNat 4 w.toNat).toNat ≤ 4 := by simp; omega
    have hmbz : BitVec.ofNat 28 (w.toNat / 16) ≠ 0 := fun h0 => by
      have h0' : w.toNat / 16 % 2 ^ 28 = 0 := congrArg BitVec.toNat h0
      omega
    simpa only [commandWord_ofNat] using decodeCommand_reservedBits hop' hmbz

/-! ## The header and the option header byte -/

theorem decodeHeader_headerByte (t : BitVec 2) (tkl : BitVec 4) (code : BitVec 8) (mid : BitVec 16) :
    decodeHeader (headerByte t tkl) code (highByte mid) (lowByte mid) =
      .ok (.wireHeader t tkl code mid) := by
  simp [decodeHeader, highByte_append_lowByte]

/-- A byte is the option header byte of its two nibbles (30_encoding.md R315). -/
theorem exists_nibbleByte (h : Byte) : ∃ dn ln, h = nibbleByte dn ln :=
  ⟨_, _, (nibbleByte_nibbles h).symm⟩

theorem wellFormed_optHdr (dn ln : BitVec 4) :
    (Instr.optHdr dn ln).wellFormed = true ↔ ¬ (dn = 15 ∧ ln = 15) := by
  rw [Instr.wellFormed, Bool.not_eq_true', ← Bool.decide_and, decide_eq_false_iff_not]

theorem decodeOption_nibbleByte {dn ln : BitVec 4} (h : ¬ (dn = 15 ∧ ln = 15)) :
    decodeOption (nibbleByte dn ln) = .optHdr dn ln := by
  rw [decodeOption, if_neg (mt (nibbleByte_eq_marker dn ln).mp h), hiNibble_nibbleByte,
    loNibble_nibbleByte]

/-! ## The delta and length classes -/

/-- The delta classes of an option header byte with no nibble 15 (30_encoding.md R316). -/
theorem decodeDelta_class {dn ln : BitVec 4} (hd : dn ≠ 15) (hl : ln ≠ 15) :
    decodeDelta (nibbleByte dn ln) = .ok (if dn = 14 then .optDeltaExt16 ln
      else if dn = 13 then .optDeltaExt8 ln else .optDeltaLit dn ln) := by
  simp only [decodeDelta, nibbleByte_eq_marker, hiNibble_nibbleByte, loNibble_nibbleByte, hd, hl,
    false_and, if_false]
  split_ifs <;> rfl

theorem decodeLength_class {dn ln : BitVec 4} (hd : dn ≠ 15) (hl : ln ≠ 15) :
    decodeLength (nibbleByte dn ln) = .ok (if ln = 14 then .optLenExt16 dn
      else if ln = 13 then .optLenExt8 dn else .optLenLit dn ln) := by
  simp only [decodeLength, nibbleByte_eq_marker, hiNibble_nibbleByte, loNibble_nibbleByte, hd, hl,
    false_and, if_false]
  split_ifs <;> rfl

/-- The reserved delta comes first, at either position (41_message_parser.md R505 step 2). -/
theorem decode_deltaReserved {ln : BitVec 4} (hl : ln ≠ 15) :
    decodeDelta (nibbleByte 15 ln) = .ok (.optDeltaReserved ln) ∧
      decodeLength (nibbleByte 15 ln) = .ok (.optDeltaReserved ln) := by
  simp only [decodeDelta, decodeLength, nibbleByte_eq_marker, hiNibble_nibbleByte,
    loNibble_nibbleByte, hl, and_false, if_false, if_true, and_self]

/-- The reserved length comes before the extensions, at either position (41_message_parser.md R505
step 3). -/
theorem decode_lenReserved {dn : BitVec 4} (hd : dn ≠ 15) :
    decodeDelta (nibbleByte dn 15) = .ok (.optLenReserved dn) ∧
      decodeLength (nibbleByte dn 15) = .ok (.optLenReserved dn) := by
  simp only [decodeDelta, decodeLength, nibbleByte_eq_marker, hiNibble_nibbleByte,
    loNibble_nibbleByte, hd, false_and, if_false, if_true, and_self]

theorem decodeDelta_lit {dn ln : BitVec 4} (hd : dn.toNat ≤ 12) (hl : ln ≠ 15) :
    decodeDelta (nibbleByte dn ln) = .ok (.optDeltaLit dn ln) := by
  obtain ⟨h13, h14, h15⟩ := Machine.nibble_lit dn hd
  rw [decodeDelta_class h15 hl, if_neg h14, if_neg h13]

theorem decodeLength_lit {dn ln : BitVec 4} (hd : dn ≠ 15) (hl : ln.toNat ≤ 12) :
    decodeLength (nibbleByte dn ln) = .ok (.optLenLit dn ln) := by
  obtain ⟨h13, h14, h15⟩ := Machine.nibble_lit ln hl
  rw [decodeLength_class hd h15, if_neg h14, if_neg h13]

/-! ## Decoding what is encoded -/

theorem decode_command_of {w : Word} {i : Instr} (rest : List Byte) (h : decodeCommand w = i) :
    decode .command (wordBytes w ++ rest) = .ok (i, rest) := h ▸ decode_wordBytes w rest

theorem decode_option_of {h : Byte} {i : Instr} (rest : List Byte) (ho : decodeOption h = i) :
    decode .option ([h] ++ rest) = .ok (i, rest) := ho ▸ rfl

theorem decode_delta_of {h : Byte} {i : Instr} (rest : List Byte) (hd : decodeDelta h = .ok i) :
    decode .delta ([h] ++ rest) = .ok (i, rest) := congrArg (Except.map (·, rest)) hd

theorem decode_length_of {h : Byte} {i : Instr} (rest : List Byte) (hl : decodeLength h = .ok i) :
    decode .length ([h] ++ rest) = .ok (i, rest) := congrArg (Except.map (·, rest)) hl

/-- Settles O44: row by row, by what the decoder of the row's position answers. -/
theorem decodeOfEncode : Obligations.DecodeOfEncode := by
  intro i rest hwf
  cases i with
  | nop => exact decode_command_of rest rfl
  | decodeExt => exact decode_command_of rest rfl
  | encodeExt => exact decode_command_of rest rfl
  | parse => exact decode_command_of rest rfl
  | build => exact decode_command_of rest rfl
  | illegalReservedOpcode op mbz =>
    exact decode_command_of rest (decodeCommand_reservedOpcode mbz (of_decide_eq_true hwf))
  | illegalReservedBits op mbz =>
    obtain ⟨hop, hmbz⟩ := Bool.and_eq_true_iff.mp hwf
    exact decode_command_of rest
      (decodeCommand_reservedBits (of_decide_eq_true hop) (of_decide_eq_true hmbz))
  | wireHeader t tkl code mid =>
    exact congrArg (Except.map (·, rest)) (decodeHeader_headerByte t tkl code mid)
  | optHdr dn ln =>
    exact decode_option_of rest (decodeOption_nibbleByte ((wellFormed_optHdr dn ln).mp hwf))
  | payloadMarker => rfl
  | optDeltaLit dn ln =>
    obtain ⟨hd, hl⟩ := Bool.and_eq_true_iff.mp hwf
    exact decode_delta_of rest (decodeDelta_lit (of_decide_eq_true hd) (of_decide_eq_true hl))
  | optDeltaExt8 ln =>
    exact decode_delta_of rest (decodeDelta_class (by decide) (of_decide_eq_true hwf))
  | optDeltaExt16 ln =>
    exact decode_delta_of rest (decodeDelta_class (by decide) (of_decide_eq_true hwf))
  | optDeltaReserved ln => exact decode_delta_of rest (decode_deltaReserved (of_decide_eq_true hwf)).1
  | optLenReserved dn => exact decode_delta_of rest (decode_lenReserved (of_decide_eq_true hwf)).1
  | optLenLit dn ln =>
    obtain ⟨hd, hl⟩ := Bool.and_eq_true_iff.mp hwf
    exact decode_length_of rest (decodeLength_lit (of_decide_eq_true hd) (of_decide_eq_true hl))
  | optLenExt8 dn =>
    exact decode_length_of rest (decodeLength_class (of_decide_eq_true hwf) (by decide))
  | optLenExt16 dn =>
    exact decode_length_of rest (decodeLength_class (of_decide_eq_true hwf) (by decide))

/-! ## Encoding what is decoded -/

/-- A well-formed instruction with these bytes as its encoding. -/
def Instr.EncodedAs (i : Instr) (bs : List Byte) : Prop := i.wellFormed = true ∧ bs = encode i

theorem decodeCommand_encodedAs (w : Word) : (decodeCommand w).EncodedAs (wordBytes w) := by
  obtain hw | ⟨op, mbz, rfl, hop⟩ | ⟨op, mbz, rfl, hop, hmbz⟩ := word_cases w
  · rcases hw with rfl | rfl | rfl | rfl | rfl <;> exact ⟨rfl, rfl⟩
  · rw [decodeCommand_reservedOpcode mbz hop]
    exact ⟨decide_eq_true hop, rfl⟩
  · rw [decodeCommand_reservedBits hop hmbz]
    exact ⟨Bool.and_eq_true_iff.mpr ⟨decide_eq_true hop, decide_eq_true hmbz⟩, rfl⟩

theorem decodeHeader_encodedAs {b0 b1 b2 b3 : Byte} {i : Instr} (h : decodeHeader b0 b1 b2 b3 = .ok i) :
    i.EncodedAs [b0, b1, b2, b3] := by
  unfold decodeHeader at h
  split at h
  next hv =>
    cases h
    exact ⟨rfl, by simp [encode, headerByte_fields b0 hv]⟩
  next => cases h

theorem decodeOption_encodedAs (h : Byte) : (decodeOption h).EncodedAs [h] := by
  obtain ⟨dn, ln, rfl⟩ := exists_nibbleByte h
  by_cases hm : dn = 15 ∧ ln = 15
  · obtain ⟨rfl, rfl⟩ := hm
    exact ⟨rfl, rfl⟩
  · rw [decodeOption_nibbleByte hm]
    exact ⟨(wellFormed_optHdr dn ln).mpr hm, rfl⟩

/-- The four cases of an option header byte before its extensions are looked at (41_message_parser.md
R505 steps 2 and 3; 90_conflicts.md C3). -/
theorem nibbleByte_cases (h : Byte) :
    h = nibbleByte 15 15 ∨ (∃ ln, ln ≠ 15 ∧ h = nibbleByte 15 ln) ∨
    (∃ dn, dn ≠ 15 ∧ h = nibbleByte dn 15) ∨
    ∃ dn ln, dn ≠ 15 ∧ ln ≠ 15 ∧ h = nibbleByte dn ln := by
  obtain ⟨dn, ln, rfl⟩ := exists_nibbleByte h
  by_cases hd : dn = 15 <;> by_cases hl : ln = 15
  · exact .inl (by rw [hd, hl])
  · exact .inr (.inl ⟨ln, hl, by rw [hd]⟩)
  · exact .inr (.inr (.inl ⟨dn, hd, by rw [hl]⟩))
  · exact .inr (.inr (.inr ⟨dn, ln, hd, hl, rfl⟩))

theorem decodeDelta_encodedAs {h : Byte} {i : Instr} (hi : decodeDelta h = .ok i) :
    i.EncodedAs [h] := by
  obtain rfl | ⟨ln, hl, rfl⟩ | ⟨dn, hd, rfl⟩ | ⟨dn, ln, hd, hl, rfl⟩ := nibbleByte_cases h
  · exact nomatch hi
  · cases (decode_deltaReserved hl).1.symm.trans hi
    exact ⟨decide_eq_true hl, rfl⟩
  · cases (decode_lenReserved hd).1.symm.trans hi
    exact ⟨decide_eq_true hd, rfl⟩
  · obtain hlit | rfl | rfl | rfl := Machine.nibble_cases dn
    · cases (decodeDelta_lit hlit hl).symm.trans hi
      exact ⟨Bool.and_eq_true_iff.mpr ⟨decide_eq_true hlit, decide_eq_true hl⟩, rfl⟩
    · cases (decodeDelta_class hd hl).symm.trans hi
      exact ⟨decide_eq_true hl, rfl⟩
    · cases (decodeDelta_class hd hl).symm.trans hi
      exact ⟨decide_eq_true hl, rfl⟩
    · exact absurd rfl hd

theorem decodeLength_encodedAs {h : Byte} {i : Instr} (hi : decodeLength h = .ok i) :
    i.EncodedAs [h] := by
  obtain rfl | ⟨ln, hl, rfl⟩ | ⟨dn, hd, rfl⟩ | ⟨dn, ln, hd, hl, rfl⟩ := nibbleByte_cases h
  · exact nomatch hi
  · cases (decode_deltaReserved hl).2.symm.trans hi
    exact ⟨decide_eq_true hl, rfl⟩
  · cases (decode_lenReserved hd).2.symm.trans hi
    exact ⟨decide_eq_true hd, rfl⟩
  · obtain hlit | rfl | rfl | rfl := Machine.nibble_cases ln
    · cases (decodeLength_lit hd hlit).symm.trans hi
      exact ⟨Bool.and_eq_true_iff.mpr ⟨decide_eq_true hd, decide_eq_true hlit⟩, rfl⟩
    · cases (decodeLength_class hd hl).symm.trans hi
      exact ⟨decide_eq_true hd, rfl⟩
    · cases (decodeLength_class hd hl).symm.trans hi
      exact ⟨decide_eq_true hd, rfl⟩
    · exact absurd rfl hl

theorem Instr.EncodedAs.append {i : Instr} {bs : List Byte} (h : i.EncodedAs bs) (rest : List Byte) :
    i.wellFormed = true ∧ bs ++ rest = encode i ++ rest := ⟨h.1, h.2 ▸ rfl⟩

/-- Taking the rest of the list along adds nothing to what a byte decodes to. -/
theorem map_rest_ok {d : Except DecodeError Instr} {i : Instr} {tail rest : List Byte}
    (h : d.map (·, tail) = .ok (i, rest)) : d = .ok i ∧ tail = rest := by
  cases d with
  | error e => cases h
  | ok j => cases h; exact ⟨rfl, rfl⟩

/-- Settles O45: position by position, by what its decoder's answer is the encoding of. -/
theorem encodeOfDecode : Obligations.EncodeOfDecode := by
  intro pos bs rest i h
  unfold decode at h
  split at h
  next b0 b1 b2 b3 _ =>
    cases h
    have hw := decodeCommand_encodedAs (ofLanes b0 b1 b2 b3)
    rw [wordBytes_ofLanes] at hw
    exact hw.append rest
  next =>
    obtain ⟨hd, rfl⟩ := map_rest_ok h
    exact (decodeHeader_encodedAs hd).append _
  next hb _ =>
    cases h
    exact (decodeOption_encodedAs hb).append rest
  next =>
    obtain ⟨hd, rfl⟩ := map_rest_ok h
    exact (decodeDelta_encodedAs hd).append _
  next =>
    obtain ⟨hd, rfl⟩ := map_rest_ok h
    exact (decodeLength_encodedAs hd).append _
  next => cases h

/-- Settles O46: the decoder evaluated on the ten byte sequences. -/
theorem writtenOutWordsDecode : Obligations.WrittenOutWordsDecode := by
  unfold Obligations.WrittenOutWordsDecode
  decide

end Sys2Proof
end

section
/-! SUPPORT. Proofs of the encoding family: the header, delta and length elements on the scan of a
running PARSE (30_encoding.md R311, R316; 41_message_parser.md R501, R503, R505). -/

namespace Sys2Proof.Machine

/-- The rule of every wire element of a running PARSE (10_state.md R134). -/
theorem exec_wire_running {i : Instr} {s : State} {sc : Scan} (hi : i.position ≠ .command)
    (hr : s.running = some .parse)
    (he : wireEffect s.rxSource s.params.pathCap.toNat i s.theScan = sc) :
    exec i s = .next { s with scan := some sc } := by
  rw [exec_wire i s hi, onScan_running _ s hr, he]

/-! ## The header -/

section
variable {src : Nat → Byte} {t : BitVec 2} {tkl : BitVec 4} {code : BitVec 8} {mid : BitVec 16}
  {sc : Scan}

theorem scanWireHeader_tklGt8 (hph : sc.phase = .header) (h : 8 < tkl.toNat) :
    scanWireHeader src t tkl code mid sc = sc.fail .tklGt8 0 := by
  simp [scanWireHeader, hph, h]

theorem scanWireHeader_tokenTrunc (hph : sc.phase = .header) (h : tkl.toNat ≤ 8)
    (hn : sc.n < 4 + tkl.toNat) :
    scanWireHeader src t tkl code mid sc = sc.fail .tokenTrunc 0 := by
  simp [scanWireHeader, hph, Nat.not_lt.mpr h, hn]

theorem scanWireHeader_ok (hph : sc.phase = .header) (h : tkl.toNat ≤ 8)
    (hn : 4 + tkl.toNat ≤ sc.n) :
    scanWireHeader src t tkl code mid sc = { sc with
      t := t, tkl := tkl, code := code, mid := mid
      token := (List.range tkl.toNat).map (fun i => src (4 + i))
      p := 4 + tkl.toNat, phase := .option } := by
  simp [scanWireHeader, hph, Nat.not_lt.mpr h, Nat.not_lt.mpr hn, slice_eq_map]

end

/-- Settles O36: the header element's three cases. -/
theorem headerElementExtracts : Obligations.HeaderElementExtracts := by
  rintro s _ t tkl code mid hr rfl hph
  exact ⟨fun h => exec_wire_running nofun hr (scanWireHeader_tklGt8 hph h),
    fun h hn => exec_wire_running nofun hr (scanWireHeader_tokenTrunc hph h hn),
    fun h hn => exec_wire_running nofun hr (scanWireHeader_ok hph h hn)⟩

/-! ## The extension forms of a nibble -/

section
variable {src : Nat → Byte} {p stop : Nat}

theorem nibbleDecode_ext8 (h : p + 1 ≤ stop) :
    nibbleDecode 13#4 src p stop = .ok (13 + (src p).toNat) (p + 1) := by
  rw [nibbleDecode_13, if_neg (by omega)]

theorem nibbleDecode_ext8_trunc (h : stop < p + 1) : nibbleDecode 13#4 src p stop = .trunc := by
  rw [nibbleDecode_13, if_pos h]

theorem nibbleDecode_ext16 (h : p + 2 ≤ stop) : nibbleDecode 14#4 src p stop =
    .ok (269 + (256 * (src p).toNat + (src (p + 1)).toNat)) (p + 2) := by
  rw [nibbleDecode_14, if_neg (by omega), be16, Nat.mul_comm]

theorem nibbleDecode_ext16_trunc (h : stop < p + 2) : nibbleDecode 14#4 src p stop = .trunc := by
  rw [nibbleDecode_14, if_pos h]

end

/-! ## A delta or length class at its phase -/

section
variable {src : Nat → Byte} {pathCap hp delta v next : Nat} {dn ln n : BitVec 4} {b : Byte} {sc : Scan}

theorem scanDelta_ok (hph : sc.phase = .delta hp b)
    (hd : nibbleDecode dn src sc.p sc.n = .ok v next) : scanDelta src dn ln sc =
      { sc with p := next, phase := .length hp (nibbleByte dn ln) v } := by
  simp only [scanDelta, hph, hd]

theorem scanDelta_trunc (hph : sc.phase = .delta hp b)
    (hd : nibbleDecode dn src sc.p sc.n = .trunc) :
    scanDelta src dn ln sc = sc.fail .deltaExtTrunc hp := by
  simp only [scanDelta, hph, hd]

theorem scanLength_ok (hph : sc.phase = .length hp b delta)
    (hd : nibbleDecode n src sc.p sc.n = .ok v next) :
    scanLength src pathCap n sc = scanValue src pathCap hp delta v { sc with p := next } := by
  simp only [scanLength, hph, hd]

theorem scanLength_trunc (hph : sc.phase = .length hp b delta)
    (hd : nibbleDecode n src sc.p sc.n = .trunc) :
    scanLength src pathCap n sc = sc.fail .lengthExtTrunc hp := by
  simp only [scanLength, hph, hd]

theorem scanDeltaReserved_delta (hph : sc.phase = .delta hp b) :
    scanDeltaReserved sc = sc.fail .deltaReserved hp := by
  simp only [scanDeltaReserved, hph]

theorem scanLenReserved_delta (hph : sc.phase = .delta hp b) :
    scanLenReserved sc = sc.fail .lengthReserved hp := by
  simp only [scanLenReserved, hph]

theorem scanLenReserved_length (hph : sc.phase = .length hp b delta) :
    scanLenReserved sc = sc.fail .lengthReserved hp := by
  simp only [scanLenReserved, hph]

end

/-- Settles O38: a delta class is its nibble's form in `nibbleDecode`. -/
theorem deltaClassesDecode : Obligations.DeltaClassesDecode := by
  rintro s _ dn ln hp h hr rfl hph
  exact ⟨fun hd => exec_wire_running nofun hr (scanDelta_ok hph (nibbleDecode_lit dn _ _ _ hd)),
    fun hn => exec_wire_running nofun hr (scanDelta_ok hph (nibbleDecode_ext8 hn)),
    fun hn => exec_wire_running nofun hr (scanDelta_trunc hph (nibbleDecode_ext8_trunc hn)),
    fun hn => exec_wire_running nofun hr (scanDelta_ok hph (nibbleDecode_ext16 hn)),
    fun hn => exec_wire_running nofun hr (scanDelta_trunc hph (nibbleDecode_ext16_trunc hn)),
    exec_wire_running nofun hr (scanDeltaReserved_delta hph),
    exec_wire_running nofun hr (scanLenReserved_delta hph)⟩

/-- Settles O39: a length class is its nibble's form in `nibbleDecode`, and then the value. -/
theorem lengthClassesDecode : Obligations.LengthClassesDecode := by
  rintro s _ dn ln hp delta h hr rfl hph
  exact ⟨fun hl => exec_wire_running nofun hr (scanLength_ok hph (nibbleDecode_lit ln _ _ _ hl)),
    fun hn => exec_wire_running nofun hr (scanLength_ok hph (nibbleDecode_ext8 hn)),
    fun hn => exec_wire_running nofun hr (scanLength_trunc hph (nibbleDecode_ext8_trunc hn)),
    fun hn => exec_wire_running nofun hr (scanLength_ok hph (nibbleDecode_ext16 hn)),
    fun hn => exec_wire_running nofun hr (scanLength_trunc hph (nibbleDecode_ext16_trunc hn)),
    exec_wire_running nofun hr (scanLenReserved_length hph)⟩

end Sys2Proof.Machine
end

section
/-! SUPPORT. Proofs of the option codec family: NibbleDecode and NibbleEncode as inverse functions, and
the commands DECODE_EXT and ENCODE_EXT (40_option_codec.md R402, R403, R410 to R412). -/

namespace Sys2Proof.Machine

/-! ## NibbleEncode: where it answers, and its widths -/

theorem nibbleEncode_isSome_iff (v : Nat) : (∃ r, nibbleEncode v = some r) ↔ v ≤ 65804 := by
  constructor
  · rintro ⟨⟨n, e⟩, h⟩
    obtain ⟨hv, -⟩ | ⟨-, hv, -⟩ | ⟨-, hv, -⟩ := nibbleEncode_some h <;> omega
  · intro hv
    rcases (by omega : v ≤ 12 ∨ (13 ≤ v ∧ v ≤ 268) ∨ 269 ≤ v) with hlit | ⟨hlo, hhi⟩ | hlo
    · exact ⟨_, nibbleEncode_lit v hlit⟩
    · exact ⟨_, nibbleEncode_ext8 v hlo hhi⟩
    · exact ⟨_, nibbleEncode_ext16 v hlo hv⟩

theorem nibbleEncode_form {v : Nat} {n : BitVec 4} {e : List Byte} (h : nibbleEncode v = some (n, e)) :
    e.length = extlen n ∧ n ≠ 15 := by
  obtain ⟨hv, rfl, rfl⟩ | ⟨-, -, rfl, rfl⟩ | ⟨-, -, rfl, rfl⟩ := nibbleEncode_some h
  · have hn : (BitVec.ofNat 4 v).toNat ≤ 12 := by
      rw [BitVec.toNat_ofNat, Nat.mod_eq_of_lt (by omega)]
      exact hv
    obtain ⟨h13, h14, h15⟩ := nibble_lit _ hn
    exact ⟨by rw [extlen, if_neg h13, if_neg h14, List.length_nil], h15⟩
  · exact ⟨rfl, by decide⟩
  · exact ⟨rfl, by decide⟩

theorem extlen_le_two (n : BitVec 4) : extlen n ≤ 2 := by
  unfold extlen
  split_ifs <;> decide

/-! ## Encoding and decoding are inverse -/

theorem nibbleDecode_of_encode {v : Nat} {n : BitVec 4} {e : List Byte}
    (h : nibbleEncode v = some (n, e)) :
    nibbleDecode n (extByte e) 0 e.length = .ok v e.length := by
  obtain ⟨hv, rfl, rfl⟩ | ⟨hlo, hhi, rfl, rfl⟩ | ⟨hlo, hhi, rfl, rfl⟩ := nibbleEncode_some h
  · have hn : (BitVec.ofNat 4 v).toNat = v := Nat.mod_eq_of_lt (by omega)
    rw [nibbleDecode_lit _ _ _ _ (by omega), hn]
    rfl
  · have hv : 13 + (BitVec.ofNat 8 (v - 13)).toNat = v := by
      rw [BitVec.toNat_ofNat]; omega
    rw [nibbleDecode_13, if_neg (by simp)]
    exact congrArg (NibbleResult.ok · 1) hv
  · have hv : 269 + be16 (highByte (BitVec.ofNat 16 (v - 269)))
        (lowByte (BitVec.ofNat 16 (v - 269))) = v := by
      rw [be16_bytes, BitVec.toNat_ofNat]; omega
    rw [nibbleDecode_14, if_neg (by simp)]
    exact congrArg (NibbleResult.ok · 2) hv

theorem nibbleEncode_of_decode {n : BitVec 4} {src : Nat → Byte} {p stop v next : Nat}
    (h : nibbleDecode n src p stop = .ok v next) :
    nibbleEncode v = some (n, slice src p (next - p)) := by
  obtain ⟨hn, rfl, rfl⟩ | ⟨rfl, rfl, rfl, -⟩ | ⟨rfl, rfl, rfl, -⟩ := nibbleDecode_ok h
  · rw [nibbleEncode_lit _ hn, BitVec.ofNat_toNat, BitVec.setWidth_eq, Nat.sub_self]
    rfl
  · have hb := (src p).isLt
    rw [nibbleEncode_ext8 _ (by omega) (by omega), Nat.add_sub_cancel_left, Nat.add_sub_cancel_left,
      BitVec.ofNat_toNat, BitVec.setWidth_eq]
    rfl
  · have hb := be16_lt (src p) (src (p + 1))
    obtain ⟨hhigh, hlow⟩ := bytes_be16 (src p) (src (p + 1))
    rw [nibbleEncode_ext16 _ (by omega) (by omega), Nat.add_sub_cancel_left, Nat.add_sub_cancel_left,
      hhigh, hlow]
    rfl

/-- Settles O22: each of the three forms, in both directions. -/
theorem codecRoundTrips : Obligations.CodecRoundTrips :=
  ⟨fun _ _ _ _ => nibbleDecode_of_encode, fun _ _ _ _ _ _ => nibbleEncode_of_decode⟩

/-- Settles O21: a decoded value has an encoding, which is its nibble and extension bytes. -/
theorem codecFunctionsStayInRange : Obligations.CodecFunctionsStayInRange := by
  refine ⟨?_, nibbleEncode_isSome_iff, fun _ _ _ => nibbleEncode_form, ?_⟩
  · intro n src p stop v next h
    exact (nibbleEncode_isSome_iff v).mp ⟨_, nibbleEncode_of_decode h⟩
  · intro n n' src src' p p' stop stop' v next next' h h'
    have hforms := (nibbleEncode_of_decode h).symm.trans (nibbleEncode_of_decode h')
    exact Prod.mk.inj (Option.some.inj hforms)

/-! ## The two commands -/

/-- The completion step of an untainted command records what its rule answers (45_command_control.md
R700). -/
theorem exec_command_untainted (i : Instr) {s : State} {r : Result} (hi : i.position = .command)
    (ht : s.taint = false) (hr : commandRule i s = r) :
    exec i s = .next { r.st with errInfo := r.err, inflight := none, done := true, scan := none } := by
  rw [exec_command i s hi, completion_untainted _ _ _ ht, hr]

section
variable {s : State} {v used : Nat}

theorem decodeExtRule_availReserved (ha : s.codecIn.count = 3) :
    decodeExtRule s = raiseError .availReserved 0 { s with codecOut := { value := 0, used := 0 } } :=
  if_pos ha

theorem decodeExtRule_ok (ha : s.codecIn.count ≠ 3)
    (hd : nibbleDecode s.codecIn.nibble (codecSource s.codecIn) 0 s.codecIn.count.toNat = .ok v used) :
    decodeExtRule s =
      complete { s with codecOut := { value := BitVec.ofNat 17 v, used := BitVec.ofNat 2 used } } := by
  simp only [decodeExtRule, if_neg ha, hd]

theorem decodeExtRule_reserved (ha : s.codecIn.count ≠ 3)
    (hd : nibbleDecode s.codecIn.nibble (codecSource s.codecIn) 0 s.codecIn.count.toNat = .reserved) :
    decodeExtRule s = raiseError .nibbleReserved 0 { s with codecOut := { value := 0, used := 0 } } := by
  simp only [decodeExtRule, if_neg ha, hd]

theorem decodeExtRule_trunc (ha : s.codecIn.count ≠ 3)
    (hd : nibbleDecode s.codecIn.nibble (codecSource s.codecIn) 0 s.codecIn.count.toNat = .trunc) :
    decodeExtRule s = raiseError .extTrunc 0 { s with codecOut := { value := 0, used := 0 } } := by
  simp only [decodeExtRule, if_neg ha, hd]

/-- A nibble and its extension bytes in the layout of `CODEC_ENC` and `CODEC_IN` (10_state.md R114). -/
def CodecWord.ofForm (n : BitVec 4) (e : List Byte) : CodecWord :=
  { nibble := n, count := BitVec.ofNat 2 e.length, ext0 := extByte e 0, ext1 := extByte e 1 }

theorem encodeExtRule_some {n : BitVec 4} {e : List Byte}
    (h : nibbleEncode s.codecValIn.toNat = some (n, e)) :
    encodeExtRule s = complete { s with codecEnc := CodecWord.ofForm n e } := by
  simp only [encodeExtRule, h, CodecWord.ofForm]

theorem encodeExtRule_none (h : nibbleEncode s.codecValIn.toNat = none) :
    encodeExtRule s = raiseError .encodeRange 0
      { s with codecEnc := { nibble := 0, count := 0, ext0 := 0, ext1 := 0 } } := by
  simp only [encodeExtRule, h]

end

/-- Settles O19: each case is one answer of `nibbleDecode` at the bounds `AVAIL` gives. -/
theorem decodeExtWritesResult : Obligations.DecodeExtWritesResult := by
  intro s ht n a ext8 ext16 ends
  have completes {r : Result} (hr : decodeExtRule s = r) :=
    exec_command_untainted .decodeExt rfl ht hr
  have ok {v used : Nat} (ha : a ≠ 3)
      (hd : nibbleDecode s.codecIn.nibble (codecSource s.codecIn) 0 a = .ok v used) : ends v used 0 0 :=
    completes (decodeExtRule_ok (BitVec.toNat_ne_iff_ne.mp ha) hd)
  have trunc (ha : a ≠ 3)
      (hd : nibbleDecode s.codecIn.nibble (codecSource s.codecIn) 0 a = .trunc) : ends 0 0 4 0x0A :=
    completes (decodeExtRule_trunc (BitVec.toNat_ne_iff_ne.mp ha) hd)
  have nibble {k : BitVec 4} (hn : n = k.toNat) : s.codecIn.nibble = k := BitVec.eq_of_toNat_eq hn
  refine ⟨?_, ?_, ?_, ?_, ?_, ?_, ?_⟩
  · intro ha
    exact completes (decodeExtRule_availReserved (BitVec.eq_of_toNat_eq ha))
  · intro ha hn
    refine completes (decodeExtRule_reserved (BitVec.toNat_ne_iff_ne.mp ha) ?_)
    rw [nibble (k := 15) hn]
    exact nibbleDecode_15 _ _ _
  · intro hn ha
    refine trunc (by omega) ?_
    rw [nibble (k := 13) hn]
    exact nibbleDecode_ext8_trunc (by omega)
  · intro hn ha
    refine trunc (by omega) ?_
    rw [nibble (k := 14) hn]
    exact nibbleDecode_ext16_trunc (by omega)
  · intro ha hn
    exact ok ha (nibbleDecode_lit _ _ _ _ hn)
  · intro hn hlo hhi
    refine ok (by omega) ?_
    rw [nibble (k := 13) hn]
    exact nibbleDecode_ext8 (by omega)
  · intro hn ha
    refine ok (by omega) ?_
    rw [nibble (k := 14) hn]
    exact nibbleDecode_ext16 (by omega)

theorem highByte_ofNat (d : Nat) : highByte (BitVec.ofNat 16 d) = BitVec.ofNat 8 (d / 256) := by
  apply BitVec.eq_of_toNat_eq
  simp only [highByte, BitVec.extractLsb'_toNat, BitVec.toNat_ofNat, Nat.shiftRight_eq_div_pow]
  omega

theorem lowByte_ofNat (d : Nat) : lowByte (BitVec.ofNat 16 d) = BitVec.ofNat 8 (d % 256) := by
  apply BitVec.eq_of_toNat_eq
  simp only [lowByte, BitVec.extractLsb'_toNat, BitVec.toNat_ofNat, Nat.shiftRight_zero]
  omega

/-- Settles O20: each range of values is one form of `nibbleEncode`. -/
theorem encodeExtWritesResult : Obligations.EncodeExtWritesResult := by
  intro s ht v ends
  have completes {r : Result} (hr : encodeExtRule s = r) :=
    exec_command_untainted .encodeExt rfl ht hr
  refine ⟨?_, ?_, ?_, ?_⟩
  · intro hv
    exact completes (encodeExtRule_some (nibbleEncode_lit v hv))
  · intro hlo hhi
    exact completes (encodeExtRule_some (nibbleEncode_ext8 v hlo hhi))
  · intro hlo hhi
    have henc := nibbleEncode_ext16 v hlo hhi
    rw [highByte_ofNat, lowByte_ofNat] at henc
    exact completes (encodeExtRule_some henc)
  · intro hv
    exact completes (encodeExtRule_none (nibbleEncode_range v hv))

/-! ## The copied word decodes back -/

theorem CodecWord.ofWord_toWord (c : CodecWord) : CodecWord.ofWord c.toWord = c := by
  obtain ⟨hnibble, hcount, -, hext0, hext1, -⟩ := c.toWord_fields
  rw [CodecWord.ofWord, hnibble, hcount, hext0, hext1]

/-- Copying `CODEC_ENC` into `CODEC_IN` as a word loses no field. -/
theorem set_codecIn_get_codecEnc (s : State) :
    Reg.codecIn.set (Reg.codecEnc.get s) s = { s with codecIn := s.codecEnc } :=
  congrArg (fun c => { s with codecIn := c }) s.codecEnc.ofWord_toWord

theorem codecSource_ofForm (n : BitVec 4) {e : List Byte} (he : e.length ≤ 2) :
    codecSource (CodecWord.ofForm n e) = extByte e := by
  funext i
  match i with
  | 0 => rfl
  | 1 => rfl
  | i + 2 => exact (List.getD_eq_default e 0 (by omega)).symm

/-- DECODE_EXT on the form of a value answers the value (40_option_codec.md R412). -/
theorem decodeExtRule_of_encode {s : State} {v : Nat} {n : BitVec 4} {e : List Byte}
    (henc : nibbleEncode v = some (n, e)) (hin : s.codecIn = CodecWord.ofForm n e) :
    decodeExtRule s = complete
      { s with codecOut := { value := BitVec.ofNat 17 v, used := BitVec.ofNat 2 e.length } } := by
  have hlen : e.length ≤ 2 := (nibbleEncode_form henc).1 ▸ extlen_le_two n
  have hcount : s.codecIn.count.toNat = e.length := by
    rw [hin]
    exact Nat.mod_eq_of_lt (by omega)
  have hne : s.codecIn.count.toNat ≠ 3 := by omega
  refine decodeExtRule_ok (BitVec.toNat_ne_iff_ne.mp hne) ?_
  rw [hcount, hin, codecSource_ofForm n hlen]
  exact nibbleDecode_of_encode henc

/-- DECODE_EXT after the copy, in a state whose `CODEC_ENC` holds the form of a value. -/
theorem exec_decodeExt_of_copied {t : State} {v : Nat} {n : BitVec 4} {e : List Byte}
    (ht : t.taint = false) (henc : nibbleEncode v = some (n, e))
    (hform : t.codecEnc = CodecWord.ofForm n e) :
    exec .decodeExt (Reg.codecIn.set (Reg.codecEnc.get t) t) = .next
      { t with
        codecIn := t.codecEnc
        codecOut := { value := BitVec.ofNat 17 v, used := BitVec.ofNat 2 e.length }
        errInfo := Error.ok.info 0, inflight := none, done := true, scan := none } := by
  rw [set_codecIn_get_codecEnc]
  exact exec_command_untainted .decodeExt (s := { t with codecIn := t.codecEnc }) rfl ht
    (decodeExtRule_of_encode henc hform)

/-- Settles O23: the word that is copied is the form of the value. -/
theorem encodeThenDecodeCommandsRoundTrip : Obligations.EncodeThenDecodeCommandsRoundTrip := by
  intro s ht hv
  obtain ⟨⟨n, e⟩, henc⟩ := (nibbleEncode_isSome_iff _).mpr hv
  exact ⟨_, _, exec_command_untainted .encodeExt rfl ht (encodeExtRule_some henc), rfl,
    exec_decodeExt_of_copied ht henc rfl, rfl, Nat.mod_eq_of_lt (by omega), rfl⟩

end Sys2Proof.Machine
end

section
/-! SUPPORT. Proofs of the parser family: how an untainted PARSE completes, from how its scan ends
(41_message_parser.md R500, R509 to R511). -/

namespace Sys2Proof.Machine

/-! ## The final scan, from some of its passes -/

theorem Phase.ended_iff {ph : Phase} : ph.ended = true ↔ ph = .done ∨ ∃ e pos, ph = .failed e pos := by
  cases ph <;> simp [Phase.ended]

/-- Settles O30: a scan's rank bounds its passes, and the fuel bounds its rank. -/
theorem parseTerminates : Obligations.ParseTerminates := fun src rxCap pathCap sc =>
  Phase.ended_iff.mp (scanRun_rank src rxCap pathCap _ sc (rank_le_fuel sc))

section
variable {s : State} {k : Nat}

/-- The first passes that end PARSE give its final scan (41_message_parser.md R511). -/
theorem finalScan_of_passes {fin : Scan}
    (h : scanRun s.rxSource s.params.rxCap.toNat s.params.pathCap.toNat k s.theScan = fin)
    (he : fin.phase.ended = true) (hk : k ≤ scanFuel s.theScan.n) : s.finalScan = fin :=
  scanRun_fuel _ _ _ _ _ k h he hk

/-- The first passes that fail give the failure of the final scan. -/
theorem finalScan_failed_of_passes {e : Error} {pos : Nat}
    (h : (scanRun s.rxSource s.params.rxCap.toNat s.params.pathCap.toNat k s.theScan).phase =
      .failed e pos)
    (hk : k ≤ scanFuel s.theScan.n) : s.finalScan.phase = .failed e pos := by
  rw [finalScan_of_passes rfl (Phase.ended_iff.mpr (.inr ⟨e, pos, h⟩)) hk, h]

/-! ## The completion of PARSE -/

theorem exec_parse_of_done (ht : s.taint = false) (h : s.finalScan.phase = .done) :
    exec .parse s = .next { s.parseCommit s.finalScan with
      errInfo := Error.ok.info 0, inflight := none, done := true, scan := none } :=
  exec_command_untainted .parse rfl ht (parseRule_of_done h)

theorem exec_parse_of_failed {e : Error} {pos : Nat} (ht : s.taint = false)
    (h : s.finalScan.phase = .failed e pos) :
    exec .parse s = .next { s.parseFailure with
      errInfo := e.info pos, inflight := none, done := true, scan := none } :=
  exec_command_untainted .parse rfl ht (parseRule_of_failed h)

end

/-- What a PARSE from `s` that fails leaves in the register bank (41_message_parser.md R509). -/
structure ParseFailed (s t : State) (e : Error) (pos : Nat) : Prop where
  errInfo : t.errInfo = e.info pos
  done : t.done = true
  idle : t.busy = false
  notValid : t.pFlags.valid = false
  drawn : ∀ r ∈ parseResultRegs, r.get t = Config.drawWord s.draws r.offset &&& r.fieldMask

theorem ParseFailed.err {s t : State} {e : Error} {pos : Nat} (h : ParseFailed s t e pos)
    (he : e ≠ .ok) : t.err = true := by
  rw [err_true, h.errInfo]
  exact code_ne_zero e he

theorem parse_fails {s : State} {e : Error} {pos : Nat} (ht : s.taint = false)
    (h : s.finalScan.phase = .failed e pos) :
    ∃ t, exec .parse s = .next t ∧ ParseFailed s t e pos := by
  refine ⟨_, exec_parse_of_failed ht h, rfl, rfl, rfl, parseFailure_valid s, fun r hr => ?_⟩
  have hc : ∀ r ∈ parseResultRegs, r ∉ controlRegs := by decide
  exact (get_control (hc r hr)).trans ((parseFailure_get s r).1 hr)

/-- The failures of PARSE with their numbers (60_exceptions.md R800, R801). -/
def parseFailures : List (Error × Nat × Nat) :=
  [(.tooShort, 1, 0x00), (.unsupportedVersion, 2, 0x00), (.tklGt8, 3, 0x01), (.tokenTrunc, 3, 0x02),
   (.deltaReserved, 4, 0x01), (.lengthReserved, 4, 0x02), (.deltaExtTrunc, 4, 0x03),
   (.lengthExtTrunc, 4, 0x04), (.valueOverrun, 4, 0x05), (.emptyPayload, 4, 0x06),
   (.pathOverflow, 4, 0x07), (.cfTooLong, 4, 0x08), (.rxLenGtCap, 6, 0x03)]

theorem parseFailures_numbers : ∀ row ∈ parseFailures, row.1 ≠ .ok ∧
    row.1.code = BitVec.ofNat 4 row.2.1 ∧ row.1.detail = BitVec.ofNat 8 row.2.2 := by decide

/-- Settles O57: the rule of PARSE commits a scan that ends well, and records a failure under the
numbers of its row. -/
theorem parseRecordsItsFailure : Obligations.ParseRecordsItsFailure := by
  intro s ht
  refine ⟨fun h => ⟨_, exec_parse_of_done ht h, rfl, rfl⟩, fun row hrow pos h => ?_⟩
  obtain ⟨hne, hcode, hdetail⟩ := parseFailures_numbers row hrow
  obtain ⟨t, hexec, ht⟩ := parse_fails ht h
  refine ⟨t, hexec, ?_, ht.err hne, ht.done, ht.idle, ht.notValid, ht.drawn⟩
  rw [ht.errInfo, Error.info, hcode, hdetail]

end Sys2Proof.Machine
end

section
/-! SUPPORT. Proofs of the parser family: PARSE of a legal datagram (41_message_parser.md R503, R506 to
R508, R513). -/

namespace Sys2Proof.Machine

/-- The scan of an `n`-byte datagram right after the options of a message. -/
def Message.pastOptions (m : Message) (n : Nat) : Scan := Scan.past (m.atOptions n) m.options

section
variable (m : Message) (n : Nat)

theorem pastOptions_path : (m.pastOptions n).path = m.path :=
  congrArg Prod.snd (accPath_false (m.valuesOf 11))

theorem pastOptions_pathPresent : (m.pastOptions n).pathPresent = decide (m.valuesOf 11 ≠ []) :=
  congrArg Prod.fst (accPath_false (m.valuesOf 11))

theorem pastOptions_cfPresent : (m.pastOptions n).cfPresent = decide (m.valuesOf 12 ≠ []) :=
  Bool.false_or _

theorem pastOptions_num : (m.pastOptions n).num = m.lastNumber := Nat.zero_add _

theorem pastOptions_count : (m.pastOptions n).count = m.options.length := Nat.zero_add _

theorem pastOptions_p : (m.pastOptions n).p = m.headBytes.length := (headBytes_length m).symm

end

/-- The last of some values of at most 4 bytes each fits the register (41_message_parser.md R507). -/
theorem lastCf_toNat {l : List (List Byte)} (h : ∀ v ∈ l, v.length ≤ 4) :
    (lastCf l 0).toNat = beNat (l.getLastD []) := by
  rw [lastCf, List.getLastD_eq_getLast?]
  cases hlast : l.getLast? with
  | none => rfl
  | some v =>
    have hbytes := beNat_lt v
    have hlen : 256 ^ v.length ≤ 256 ^ 4 :=
      Nat.pow_le_pow_right (by decide) (h v (List.mem_of_getLast? hlast))
    exact Nat.mod_eq_of_lt (Nat.lt_of_lt_of_le hbytes hlen)

theorem Message.tkl_toNat {m : Message} (h : m.token.length ≤ 8) : m.tkl.toNat = m.token.length :=
  Nat.mod_eq_of_lt (by omega)

/-- Settles O28: the final scan is that of the message, and its bounds make every field fit its
register. -/
theorem parseExtractsLegalMessage : Obligations.ParseExtractsLegalMessage := by
  intro s m ht hsc hlegal hrx
  have hfinal := finalScan_legal s m hsc hlegal hrx
  have hdone : s.finalScan.phase = .done := by rw [hfinal]; rfl
  have hbound := finalScan_bounded s (theScan_ok_of_none hsc) hdone
  rw [hfinal] at hbound
  obtain ⟨htoken, -, hpath, hcf, hlen⟩ := hlegal
  have hexec := exec_parse_of_done ht hdone
  rw [hfinal] at hexec
  have epath : (finalScanOf m).path = m.path := pastOptions_path m _
  have enum : (finalScanOf m).num = m.lastNumber := pastOptions_num m _
  have ecount : (finalScanOf m).count = m.options.length := pastOptions_count m _
  have hsplit : m.payloadOffset + m.payload.length = m.bytes.length := hbound.payload
  have hcursor : (finalScanOf m).p ≤ m.bytes.length := hbound.cursor
  have hcount := hbound.count
  have hnum := hbound.num
  have hcap := s.params.rxCap.isLt
  refine ⟨_, hexec, rfl, rfl, rfl, rfl, Message.tkl_toNat htoken, rfl, rfl, fun i hi => ?_, ?_,
    fun i hi => ?_, lastCf_toNat hcf, ?_, ?_, ?_, ?_, rfl, pastOptions_pathPresent m _,
    pastOptions_cfPresent m _, rfl⟩
  · exact token_byte m.token i hi
  · rw [← epath] at hpath ⊢
    exact toNat_length_of_le_cap hpath
  · refine (get?_parseCommit s (finalScanOf m) (0x40000 + i)).trans ?_
    rw [epath, if_pos (by omega), Nat.add_sub_cancel_left]
  · exact toNat_length_of_le_cap (n := m.payloadOffset) (cap := s.params.rxCap) (by omega)
  · exact toNat_length_of_le_cap (n := m.payload.length) (cap := s.params.rxCap) (by omega)
  · rw [← ecount]
    exact toNat_length_of_le_cap (cap := s.params.rxCap) (by omega)
  · rw [← enum]
    exact Nat.mod_eq_of_lt (by omega)

end Sys2Proof.Machine
end

section
/-! SUPPORT. Proofs of the parser family: the framing checks, and what PARSE leaves unchanged
(41_message_parser.md R501, R509, R510). -/

namespace Sys2Proof.Machine

/-! ## The framing checks -/

theorem version_eq_one_iff (b : Byte) : b.extractLsb' 6 2 = 1#2 ↔ b.toNat / 64 = 1 := by
  have hb := b.isLt
  rw [← BitVec.toNat_inj, BitVec.extractLsb'_toNat, Nat.shiftRight_eq_div_pow]
  exact iff_of_eq (congrArg (· = 1) (Nat.mod_eq_of_lt (by omega)))

theorem loNibble_toNat (b : Byte) : (loNibble b).toNat = b.toNat % 16 := by
  rw [loNibble, BitVec.extractLsb'_toNat, Nat.shiftRight_zero]

section
variable {src : Nat → Byte} {rxCap pathCap : Nat} {sc : Scan} (hph : sc.phase = .header)
include hph

theorem scanAdvance_rxLenGtCap (h : rxCap < sc.n) :
    scanAdvance src rxCap pathCap sc = sc.fail .rxLenGtCap 0 := by
  rw [scanAdvance_header _ _ _ _ hph, if_pos h]

variable (hcap : sc.n ≤ rxCap)
include hcap

theorem scanAdvance_tooShort (h : sc.n < 4) :
    scanAdvance src rxCap pathCap sc = sc.fail .tooShort 0 := by
  rw [scanAdvance_header _ _ _ _ hph, if_neg (Nat.not_lt.mpr hcap), if_pos h]

variable (h4 : 4 ≤ sc.n)
include h4

theorem scanAdvance_unsupportedVersion (h : (src 0).toNat / 64 ≠ 1) :
    scanAdvance src rxCap pathCap sc = sc.fail .unsupportedVersion 0 := by
  rw [scanAdvance_header _ _ _ _ hph, if_neg (Nat.not_lt.mpr hcap), if_neg (Nat.not_lt.mpr h4),
    if_pos (mt (version_eq_one_iff (src 0)).mp h)]

/-- A header of version 1 is executed (41_message_parser.md R501 check 3). -/
theorem scanAdvance_wireHeader (h : (src 0).toNat / 64 = 1) :
    scanAdvance src rxCap pathCap sc = scanWireHeader src ((src 0).extractLsb' 4 2)
      (loNibble (src 0)) (src 1) (src 2 ++ src 3) sc := by
  rw [scanAdvance_header _ _ _ _ hph, if_neg (Nat.not_lt.mpr hcap), if_neg (Nat.not_lt.mpr h4),
    if_neg (not_not.mpr ((version_eq_one_iff (src 0)).mpr h))]

end

/-- A failure of the first pass is the failure of PARSE. -/
theorem parse_fails_at_header {s : State} {e : Error} (ht : s.taint = false)
    (h : scanAdvance s.rxSource s.params.rxCap.toNat s.params.pathCap.toNat s.theScan =
      s.theScan.fail e 0) : ∃ t, exec .parse s = .next t ∧ ParseFailed s t e 0 := by
  refine parse_fails ht (finalScan_failed_of_passes (k := 1) ?_ (by unfold scanFuel; omega))
  rw [scanRun, h]
  rfl

/-- A token that ends the datagram ends PARSE without an error (41_message_parser.md R501, R504). -/
theorem finalScan_done_of_token_end {s : State} {t : BitVec 2} {tkl : BitVec 4} {code : Byte}
    {mid : BitVec 16} (hph : s.theScan.phase = .header) (h8 : tkl.toNat ≤ 8)
    (hn : s.theScan.n = 4 + tkl.toNat)
    (h : scanAdvance s.rxSource s.params.rxCap.toNat s.params.pathCap.toNat s.theScan =
      scanWireHeader s.rxSource t tkl code mid s.theScan) : s.finalScan.phase = .done := by
  rw [scanWireHeader_ok hph h8 (Nat.le_of_eq hn.symm)] at h
  have hend := scanAdvance_option_end s.rxSource s.params.rxCap.toNat s.params.pathCap.toNat _
    (congrArg Scan.phase h) (by rw [h]; exact Nat.le_of_eq hn)
  rw [finalScan_of_passes (k := 2) hend rfl (by unfold scanFuel; omega)]

/-- Settles O27: the first pass fails the check; when the token ends the datagram, the second pass
finds the end. -/
theorem parseFramingChecks : Obligations.ParseFramingChecks := by
  intro s ht hsc n b0 ends
  have hth : s.theScan = Scan.start n := theScan_of_none hsc
  have hph : s.theScan.phase = .header := by rw [hth]; rfl
  have hn : s.theScan.n = n := by rw [hth]; rfl
  have htkl : (loNibble b0).toNat = b0.toNat % 16 := loNibble_toNat b0
  have fails {e : Error} (he : e ≠ .ok)
      (h : scanAdvance s.rxSource s.params.rxCap.toNat s.params.pathCap.toNat s.theScan =
        s.theScan.fail e 0) :
      ∃ t, exec .parse s = .next t ∧ t.errInfo = e.info 0 ∧ t.err = true ∧ t.done = true ∧
        t.busy = false ∧ t.pFlags.valid = false := by
    obtain ⟨t, hexec, hf⟩ := parse_fails_at_header ht h
    exact ⟨t, hexec, hf.errInfo, hf.err he, hf.done, hf.idle, hf.notValid⟩
  have header (hcap : s.theScan.n ≤ s.params.rxCap.toNat) (h4 : 4 ≤ s.theScan.n)
      (hv : b0.toNat / 64 = 1) := scanAdvance_wireHeader (src := s.rxSource)
    (pathCap := s.params.pathCap.toNat) hph hcap h4 hv
  rw [← hn, ← htkl]
  refine ⟨fun h => ?_, fun hcap h => ?_, fun hcap h4 h => ?_, fun hcap h4 hv h => ?_,
    fun hcap h4 hv h8 h => ?_, fun hcap h4 hv h8 h => ?_⟩
  · exact fails (e := .rxLenGtCap) (by decide) (scanAdvance_rxLenGtCap hph h)
  · exact fails (e := .tooShort) (by decide) (scanAdvance_tooShort hph hcap h)
  · exact fails (e := .unsupportedVersion) (by decide)
      (scanAdvance_unsupportedVersion hph hcap h4 h)
  · exact fails (e := .tklGt8) (by decide)
      ((header hcap h4 hv).trans (scanWireHeader_tklGt8 hph h))
  · exact fails (e := .tokenTrunc) (by decide)
      ((header hcap h4 hv).trans (scanWireHeader_tokenTrunc hph h8 h))
  · have hdone := finalScan_done_of_token_end hph h8 h (header hcap h4 hv)
    exact ⟨_, exec_parse_of_done ht hdone, rfl, rfl⟩

/-! ## The frame of PARSE -/

/-- A commit writes the path and no other byte of `PATH` (41_message_parser.md R510). -/
theorem isSome_parseCommit (s : State) (sc : Scan) {i : Nat} (hi : i < s.params.pathCap.toNat) :
    (Memory.get? (s.parseCommit sc).mem (0x40000 + i)).isSome =
      ((Memory.get? s.mem (0x40000 + i)).isSome || decide (i < sc.path.length)) := by
  rw [get?_parseCommit]
  by_cases h : i < sc.path.length
  · simp [h]
  · simp [h, hi]

/-- A failure writes no byte of `PATH` (41_message_parser.md R509). -/
theorem isSome_parseFailure (s : State) (a : Nat) :
    (Memory.get? s.parseFailure.mem a).isSome = (Memory.get? s.mem a).isSome := by
  rw [get?_parseFailure]
  split_ifs
  · exact Option.isSome_map
  · rfl

theorem completion_mem_untainted {i : Instr} {r : Result} {s : State} (h : s.taint = false) :
    (State.completion i r s).mem = r.st.mem := by rw [completion_untainted _ _ _ h]

/-- A completion step leaves `CTRL`. -/
theorem completion_get_ctrl (i : Instr) (s : State) :
    Reg.ctrl.get (State.completion i (commandRule i s) s) = Reg.ctrl.get s :=
  congrArg (fun b => ((0#30 ++ bit b) ++ 0#1 : Word)) (completion_irqEn i s)

/-- Settles O29: registers and bytes by the frame of every command, `VALID` and the written bits of
`PATH` by whether the scan commits. -/
theorem parseFrame : Obligations.ParseFrame := by
  intro s hinv ht
  have hok := theScan_ok s hinv
  refine ⟨_, exec_command .parse s rfl, rfl, rfl, rfl, ?_, fun r hr => ?_, completion_overrun .parse s,
    completion_taint .parse s, fun a ha => ?_, fun i hi => ?_⟩
  · rw [completion_untainted _ _ _ ht, err_false]
    rcases parseRule_cases s with ⟨_, e⟩ | ⟨err, pos, hf, e⟩ <;> rw [commandRule, e]
    · exact iff_of_true rfl rfl
    · exact iff_of_false nofun (code_ne_zero err (finalScan_failed s hok hf).1)
  · have hkept : ∀ r ∈ [Reg.id, .hwrev, .cap0, .cap1, .ctrl, .cmd, .codecIn, .codecValIn, .codecOut,
        .codecEnc, .rxLen, .respCode, .bodyLen, .txLen],
        r = .ctrl ∨ (r ∉ outputRegs .parse ∧ r ∉ controlRegs) := by decide
    obtain rfl | ⟨ho, hc⟩ := hkept r hr
    · exact completion_get_ctrl .parse s
    · exact completion_get_other .parse s r ho hc
  · rw [completion_mem_untainted ht]
    refine rule_mem .parse s a hok (fun b hb => ?_)
    rw [List.mem_singleton.mp hb]
    exact ha
  · rw [completion_untainted _ _ _ ht]
    rcases parseRule_cases s with ⟨hdone, e⟩ | ⟨err, pos, hf, e⟩ <;> rw [commandRule, e]
    · have hlen := toNat_length_of_le_cap (finalScan_bounded s hok hdone).path
      rw [complete_st, isSome_parseCommit s _ hi, ← hlen]
      rfl
    · have herr : (err.info pos).code ≠ 0#4 := code_ne_zero err (finalScan_failed s hok hf).1
      rw [raiseError_st, isSome_parseFailure]
      simp [State.err, raiseError, herr]

end Sys2Proof.Machine
end

section
/-! SUPPORT. Proofs of the parser family: the option elements and the option values on the scan, and the
element that a hidden step executes (41_message_parser.md R504 to R508). -/

namespace Sys2Proof.Machine

/-! ## The header byte and the marker -/

section
variable {sc : Scan} (hph : sc.phase = .option)
include hph

theorem scanOptHdr_option (dn ln : BitVec 4) :
    scanOptHdr dn ln sc = { sc with p := sc.p + 1, phase := .delta sc.p (nibbleByte dn ln) } := by
  simp only [scanOptHdr, hph]

theorem scanPayloadMarker_last (h : sc.p + 1 = sc.n) :
    scanPayloadMarker sc = sc.fail .emptyPayload sc.p := by
  simp only [scanPayloadMarker, hph, if_pos h]

theorem scanPayloadMarker_payload (h : sc.p + 1 < sc.n) :
    scanPayloadMarker sc = { sc with
      payPresent := true, payOff := sc.p + 1, payLen := sc.n - sc.p - 1, phase := .done } := by
  simp only [scanPayloadMarker, hph, if_neg (Nat.ne_of_lt h), Nat.sub_sub]

end

/-- Settles O37: the two elements of an option position. -/
theorem optionHeaderAndMarker : Obligations.OptionHeaderAndMarker := by
  rintro s _ dn ln hr rfl hph
  exact ⟨exec_wire_running nofun hr (scanOptHdr_option hph dn ln),
    fun h => exec_wire_running nofun hr (scanPayloadMarker_last hph h),
    fun h => exec_wire_running nofun hr (scanPayloadMarker_payload hph h)⟩

/-! ## Option values -/

section
variable {src : Nat → Byte} {pathCap hp delta len : Nat} {sc : Scan}

theorem scanValue_overrun (h : sc.n < sc.p + len) :
    scanValue src pathCap hp delta len sc = sc.fail .valueOverrun hp := if_pos h

variable (hn : sc.p + len ≤ sc.n)
include hn

/-- A value inside the datagram is counted, whatever its number (41_message_parser.md R502). -/
theorem scanValue_counted : (scanValue src pathCap hp delta len sc).num = sc.num + delta ∧
    (scanValue src pathCap hp delta len sc).count = sc.count + 1 := by
  rcases scanValue_cases src pathCap hp delta len sc with
    ⟨h, -⟩ | ⟨-, ⟨e, -, h⟩ | ⟨_, _, _, _, -, h⟩⟩
  · omega
  · rw [h]; exact ⟨rfl, rfl⟩
  · rw [h]; exact ⟨rfl, rfl⟩

theorem scanValue_skipped (h11 : sc.num + delta ≠ 11) (h12 : sc.num + delta ≠ 12) :
    scanValue src pathCap hp delta len sc = { sc with
      num := sc.num + delta, count := sc.count + 1, p := sc.p + len, phase := .option } := by
  rw [scanValue, if_neg (Nat.not_lt.mpr hn)]
  simp only [if_neg h11, if_neg h12]

theorem scanValue_cfTooLong (h12 : sc.num + delta = 12) (h : 4 < len) :
    scanValue src pathCap hp delta len sc =
      ({ sc with num := sc.num + delta, count := sc.count + 1 } : Scan).fail .cfTooLong hp := by
  rw [scanValue, if_neg (Nat.not_lt.mpr hn)]
  simp [h12, h]

theorem scanValue_contentFormat (h12 : sc.num + delta = 12) (h : len ≤ 4) :
    scanValue src pathCap hp delta len sc = { sc with
      num := 12, count := sc.count + 1, p := sc.p + len, phase := .option
      cfPresent := true, cf := BitVec.ofNat 32 (beNat (slice src sc.p len)) } := by
  rw [scanValue, if_neg (Nat.not_lt.mpr hn)]
  simp [h12, Nat.not_lt.mpr h]

theorem scanValue_pathOverflow (h11 : sc.num + delta = 11)
    (h : pathCap < (joinPath sc.pathPresent sc.path (slice src sc.p len)).length) :
    scanValue src pathCap hp delta len sc =
      ({ sc with num := sc.num + delta, count := sc.count + 1 } : Scan).fail .pathOverflow hp := by
  rw [scanValue, if_neg (Nat.not_lt.mpr hn)]
  simp only [if_pos h11, if_pos h]

theorem scanValue_uriPath (h11 : sc.num + delta = 11)
    (h : (joinPath sc.pathPresent sc.path (slice src sc.p len)).length ≤ pathCap) :
    scanValue src pathCap hp delta len sc = { sc with
      num := 11, count := sc.count + 1, p := sc.p + len, phase := .option, pathPresent := true
      path := joinPath sc.pathPresent sc.path (slice src sc.p len) } := by
  rw [scanValue, if_neg (Nat.not_lt.mpr hn)]
  simp [h11, Nat.not_lt.mpr h]

end

/-- Settles O40: the cases of `scanValue` for a number other than 11. -/
theorem optionValueInterpreted : Obligations.OptionValueInterpreted := by
  intro src pathCap hp delta len sc v r
  have hv : v = slice src sc.p len := (slice_eq_map src sc.p len).symm
  refine ⟨scanValue_overrun, fun hn => ?_⟩
  obtain ⟨hnum, hcount⟩ := scanValue_counted (src := src) (pathCap := pathCap) (hp := hp)
    (delta := delta) hn
  exact ⟨hnum, hcount, scanValue_skipped hn,
    fun h12 h => congrArg Scan.phase (scanValue_cfTooLong hn h12 h),
    fun h12 h => hv ▸ scanValue_contentFormat hn h12 h⟩

theorem joinPath_eq (present : Bool) (path segment : List Byte) :
    joinPath present path segment = path ++ (if present then [0x2F#8] else []) ++ segment := by
  cases present <;> simp [joinPath]

/-- Settles O41: the two cases of `scanValue` for number 11. -/
theorem uriPathSegmentsJoin : Obligations.UriPathSegmentsJoin := by
  intro src pathCap hp delta len sc v need r hn h11
  have hv : v = slice src sc.p len := (slice_eq_map src sc.p len).symm
  have hlen : (joinPath sc.pathPresent sc.path (slice src sc.p len)).length =
      sc.path.length + need := by rw [joinPath_length, slice_length]
  rw [← hlen, hv, ← joinPath_eq]
  exact ⟨fun h => congrArg Scan.phase (scanValue_pathOverflow hn h11 h), scanValue_uriPath hn h11⟩

/-! ## The element at the cursor -/

section
variable {src : Nat → Byte} {rxCap : Nat} {sc : Scan}

theorem fetchWire_header (hph : sc.phase = .header) (h4 : 4 ≤ sc.n) (hcap : sc.n ≤ rxCap) :
    fetchWire src rxCap sc = fetchOf (decode .header [src 0, src 1, src 2, src 3]) := by
  simp only [fetchWire, hph, if_neg (Nat.not_lt.mpr hcap), Nat.min_eq_right h4]
  rfl

theorem fetchWire_option (hph : sc.phase = .option) (hp : sc.p < sc.n) :
    fetchWire src rxCap sc = fetchOf (decode .option [src sc.p]) := by
  simp only [fetchWire, hph, if_pos hp]

theorem fetchWire_delta {hp : Nat} {h : Byte} (hph : sc.phase = .delta hp h) :
    fetchWire src rxCap sc = fetchOf (decode .delta [h]) := by
  simp only [fetchWire, hph]

theorem fetchWire_length {hp d : Nat} {h : Byte} (hph : sc.phase = .length hp h d) :
    fetchWire src rxCap sc = fetchOf (decode .length [h]) := by
  simp only [fetchWire, hph]

end

theorem scanMove_instr {s : State} {i : Instr} (hr : s.running = some .parse)
    (hf : s.fetchWire = .instr i) : scanMove s = exec i s := by
  simp only [scanMove, if_pos hr, hf]

/-- Settles O48: phase by phase, by the bytes that the fetch gives to the decoder. -/
theorem scanStepRunsDecodedElement : Obligations.ScanStepRunsDecodedElement := by
  rintro s _ rest i more hin hr rfl u rx
  have runs {d : Except DecodeError (Instr × List Byte)} (hf : u.fetchWire = fetchOf d)
      (hd : d = .ok (i, more)) : step s = exec i u :=
    (step_move hin).trans (scanMove_instr hr (hf.trans (congrArg fetchOf hd)))
  exact ⟨fun hph h4 hcap => runs (fetchWire_header hph h4 hcap),
    fun hph hp => runs (fetchWire_option hph hp),
    fun _ _ hph => runs (fetchWire_delta hph),
    fun _ _ _ hph => runs (fetchWire_length hph)⟩

end Sys2Proof.Machine
end

section
/-! SUPPORT. Proofs of the parser family: a bad option after options that pass every check
(41_message_parser.md R505 to R509, 60_exceptions.md R802). -/

namespace Sys2Proof.Machine

/-! ## A pass executes the decoded element -/

section
variable {src : Nat → Byte} {rxCap pathCap hp delta : Nat} {dn ln : BitVec 4} {sc : Scan} {h : Byte}
  {i : Instr}

theorem scanAdvance_of_delta (hph : sc.phase = .delta hp h) (hd : decodeDelta h = .ok i) :
    scanAdvance src rxCap pathCap sc = wireEffect src pathCap i sc := by
  have hfetch : fetchWire src rxCap sc = .instr i :=
    (fetchWire_delta hph).trans (congrArg fetchOf (decode_delta_of [] hd))
  simp only [scanAdvance, hfetch]

theorem scanAdvance_of_length (hph : sc.phase = .length hp h delta) (hl : decodeLength h = .ok i) :
    scanAdvance src rxCap pathCap sc = wireEffect src pathCap i sc := by
  have hfetch : fetchWire src rxCap sc = .instr i :=
    (fetchWire_length hph).trans (congrArg fetchOf (decode_length_of [] hl))
  simp only [scanAdvance, hfetch]

/-- The three delta classes are one meaning (30_encoding.md R316). -/
theorem scanAdvance_deltaClass (hph : sc.phase = .delta hp (nibbleByte dn ln)) (hd : dn ≠ 15)
    (hl : ln ≠ 15) : scanAdvance src rxCap pathCap sc = scanDelta src dn ln sc := by
  rw [scanAdvance_of_delta hph (decodeDelta_class hd hl)]
  split_ifs with h14 h13
  · rw [h14]; rfl
  · rw [h13]; rfl
  · rfl

/-- The three length classes are one meaning (30_encoding.md R316). -/
theorem scanAdvance_lengthClass (hph : sc.phase = .length hp (nibbleByte dn ln) delta) (hd : dn ≠ 15)
    (hl : ln ≠ 15) : scanAdvance src rxCap pathCap sc = scanLength src pathCap ln sc := by
  rw [scanAdvance_of_length hph (decodeLength_class hd hl)]
  split_ifs with h14 h13
  · rw [h14]; rfl
  · rw [h13]; rfl
  · rfl

end

/-! ## The passes over the option at the cursor -/

theorem nibbleDecode_ext_trunc {n : BitVec 4} {src : Nat → Byte} {p stop : Nat} (hn : n = 13 ∨ n = 14)
    (h : stop < p + extlen n) : nibbleDecode n src p stop = .trunc := by
  rcases hn with rfl | rfl
  · exact nibbleDecode_ext8_trunc h
  · exact nibbleDecode_ext16_trunc h

theorem ne_reserved_of_ext {n : BitVec 4} (h : n = 13 ∨ n = 14) : n ≠ 15 := by
  rcases h with rfl | rfl <;> decide

theorem scanRun_succ_eq (src : Nat → Byte) (rxCap pathCap k : Nat) (sc : Scan) :
    scanRun src rxCap pathCap (k + 1) sc =
      scanAdvance src rxCap pathCap (scanRun src rxCap pathCap k sc) :=
  scanRun_add src rxCap pathCap k 1 sc

/-- PARSE stands at an option position, and `rest` is what is left of the datagram. -/
structure Remaining (src : Nat → Byte) (sc : Scan) (rest : List Byte) : Prop where
  phase : sc.phase = .option
  holds : Holds src sc.p rest
  stop : sc.n = sc.p + rest.length

section
variable {src : Nat → Byte} {rxCap pathCap delta len : Nat} {sc : Scan} {dn ln : BitVec 4}
  {de le rest : List Byte}

theorem Remaining.marker (h : Remaining src sc [0xFF]) :
    scanRun src rxCap pathCap 1 sc = sc.fail .emptyPayload sc.p := by
  have hstop : sc.p + 1 = sc.n := h.stop.symm
  have hbyte : src sc.p = 0xFF := (holds_cons.mp h.holds).1
  exact (scanAdvance_option_marker src rxCap pathCap sc h.phase (by omega) hbyte).trans (if_pos hstop)

theorem nibbleByte_ne_marker (h : dn ≠ 15 ∨ ln ≠ 15) : nibbleByte dn ln ≠ 0xFF := by
  rw [ne_eq, nibbleByte_eq_marker, not_and_or]
  exact h

/-- The first pass keeps the header byte (41_message_parser.md R505 step 1). -/
theorem Remaining.optionByte (h : Remaining src sc (nibbleByte dn ln :: rest))
    (hm : dn ≠ 15 ∨ ln ≠ 15) : scanRun src rxCap pathCap 1 sc =
      { sc with p := sc.p + 1, phase := .delta sc.p (nibbleByte dn ln) } := by
  have hstop := h.stop
  rw [List.length_cons] at hstop
  have hbyte : src sc.p = nibbleByte dn ln := (holds_cons.mp h.holds).1
  refine (scanAdvance_option_header src rxCap pathCap sc h.phase (by omega) ?_).trans (by rw [hbyte])
  rw [hbyte]
  exact nibbleByte_ne_marker hm

theorem Remaining.deltaReserved (h : Remaining src sc (nibbleByte 15 ln :: rest)) (hl : ln ≠ 15) :
    (scanRun src rxCap pathCap 2 sc).phase = .failed .deltaReserved sc.p := by
  rw [scanRun_succ_eq, h.optionByte (.inr hl), scanAdvance_of_delta rfl (decode_deltaReserved hl).1]
  rfl

theorem Remaining.lenReserved (h : Remaining src sc (nibbleByte dn 15 :: rest)) (hd : dn ≠ 15) :
    (scanRun src rxCap pathCap 2 sc).phase = .failed .lengthReserved sc.p := by
  rw [scanRun_succ_eq, h.optionByte (.inl hd), scanAdvance_of_delta rfl (decode_lenReserved hd).1]
  rfl

theorem Remaining.deltaTrunc (h : Remaining src sc (nibbleByte dn ln :: rest))
    (hd : dn = 13 ∨ dn = 14) (hl : ln ≠ 15) (hlen : rest.length < extlen dn) :
    (scanRun src rxCap pathCap 2 sc).phase = .failed .deltaExtTrunc sc.p := by
  have hstop := h.stop
  rw [List.length_cons] at hstop
  have htrunc : nibbleDecode dn src (sc.p + 1) sc.n = .trunc := nibbleDecode_ext_trunc hd (by omega)
  have hne := ne_reserved_of_ext hd
  rw [scanRun_succ_eq, h.optionByte (.inl hne), scanAdvance_deltaClass rfl hne hl,
    scanDelta_trunc rfl htrunc]
  rfl

/-- Two passes take the delta (41_message_parser.md R505 step 4). -/
theorem Remaining.afterDelta (h : Remaining src sc (nibbleByte dn ln :: (de ++ rest)))
    (hde : nibbleEncode delta = some (dn, de)) (hl : ln ≠ 15) :
    scanRun src rxCap pathCap 2 sc =
      { sc with p := sc.p + 1 + de.length, phase := .length sc.p (nibbleByte dn ln) delta } := by
  have hstop := h.stop
  rw [List.length_cons, List.length_append] at hstop
  obtain ⟨-, htail⟩ := holds_cons.mp h.holds
  obtain ⟨hext, -⟩ := holds_append.mp htail
  obtain ⟨hdec, hd⟩ := decode_holds (stop := sc.n) hde hext (by omega)
  rw [scanRun_succ_eq, h.optionByte (.inl hd), scanAdvance_deltaClass rfl hd hl, scanDelta_ok rfl hdec]

theorem Remaining.lengthTrunc (h : Remaining src sc (nibbleByte dn ln :: (de ++ rest)))
    (hde : nibbleEncode delta = some (dn, de)) (hl : ln = 13 ∨ ln = 14)
    (hlen : rest.length < extlen ln) :
    (scanRun src rxCap pathCap 3 sc).phase = .failed .lengthExtTrunc sc.p := by
  have hstop := h.stop
  rw [List.length_cons, List.length_append] at hstop
  have htrunc : nibbleDecode ln src (sc.p + 1 + de.length) sc.n = .trunc :=
    nibbleDecode_ext_trunc hl (by omega)
  have hne := ne_reserved_of_ext hl
  rw [scanRun_succ_eq, h.afterDelta hde hne, scanAdvance_lengthClass rfl (nibbleEncode_form hde).2 hne,
    scanLength_trunc rfl htrunc]
  rfl

/-- Three passes come to the value (41_message_parser.md R505 step 5). -/
theorem Remaining.afterLength (h : Remaining src sc (nibbleByte dn ln :: (de ++ (le ++ rest))))
    (hde : nibbleEncode delta = some (dn, de)) (hle : nibbleEncode len = some (ln, le)) :
    scanRun src rxCap pathCap 3 sc = scanValue src pathCap sc.p delta len { sc with
      p := sc.p + 1 + de.length + le.length, phase := .length sc.p (nibbleByte dn ln) delta } := by
  have hstop := h.stop
  rw [List.length_cons, List.length_append, List.length_append] at hstop
  obtain ⟨-, htail⟩ := holds_cons.mp h.holds
  obtain ⟨-, htail⟩ := holds_append.mp htail
  obtain ⟨hext, -⟩ := holds_append.mp htail
  obtain ⟨hdec, hl⟩ := decode_holds (stop := sc.n) hle hext (by omega)
  rw [scanRun_succ_eq, h.afterDelta hde hl, scanAdvance_lengthClass rfl (nibbleEncode_form hde).2 hl,
    scanLength_ok rfl hdec]

theorem Remaining.overrun {v : List Byte}
    (h : Remaining src sc (nibbleByte dn ln :: (de ++ (le ++ v))))
    (hde : nibbleEncode delta = some (dn, de)) (hle : nibbleEncode len = some (ln, le))
    (hv : v.length < len) :
    (scanRun src rxCap pathCap 3 sc).phase = .failed .valueOverrun sc.p := by
  have hstop := h.stop
  rw [List.length_cons, List.length_append, List.length_append] at hstop
  rw [h.afterLength hde hle, scanValue_overrun]
  · rfl
  · simp only
    omega

/-- Three passes come to the value of a whole option, which stands inside the datagram. -/
theorem Remaining.wholeOption {v : List Byte} (h : Remaining src sc (wireOption delta v ++ rest))
    (hd : delta ≤ 65804) (hv : v.length ≤ 65804) :
    ∃ q ph, q + v.length ≤ sc.n ∧ slice src q v.length = v ∧
      scanRun src rxCap pathCap 3 sc =
        scanValue src pathCap sc.p delta v.length { sc with p := q, phase := ph } := by
  obtain ⟨⟨dn, de⟩, hde⟩ := (nibbleEncode_isSome_iff delta).mpr hd
  obtain ⟨⟨ln, le⟩, hle⟩ := (nibbleEncode_isSome_iff v.length).mpr hv
  have hbytes : wireOption delta v ++ rest = nibbleByte dn ln :: (de ++ (le ++ (v ++ rest))) := by
    simp [wireOption, hde, hle]
  rw [hbytes] at h
  have hstop := h.stop
  simp only [List.length_cons, List.length_append] at hstop
  obtain ⟨-, htail⟩ := holds_cons.mp h.holds
  obtain ⟨-, htail⟩ := holds_append.mp htail
  obtain ⟨-, htail⟩ := holds_append.mp htail
  obtain ⟨hvalue, -⟩ := holds_append.mp htail
  exact ⟨_, _, by omega, slice_of_holds hvalue, h.afterLength hde hle⟩

theorem Remaining.pathOverflow {v : List Byte} (h : Remaining src sc (wireOption delta v ++ rest))
    (hd : delta ≤ 65804) (hv : v.length ≤ 65804) (h11 : sc.num + delta = 11)
    (hcap : pathCap < (joinPath sc.pathPresent sc.path v).length) :
    (scanRun src rxCap pathCap 3 sc).phase = .failed .pathOverflow sc.p := by
  obtain ⟨q, ph, hq, hslice, hrun⟩ := h.wholeOption hd hv
  rw [hrun, scanValue_pathOverflow (sc := { sc with p := q, phase := ph }) hq h11 (by rwa [hslice])]
  rfl

theorem Remaining.cfTooLong {v : List Byte} (h : Remaining src sc (wireOption delta v ++ rest))
    (hd : delta ≤ 65804) (hv : v.length ≤ 65804) (h12 : sc.num + delta = 12) (h4 : 4 < v.length) :
    (scanRun src rxCap pathCap 3 sc).phase = .failed .cfTooLong sc.p := by
  obtain ⟨q, ph, hq, -, hrun⟩ := h.wholeOption hd hv
  rw [hrun, scanValue_cfTooLong (sc := { sc with p := q, phase := ph }) hq h12 h4]
  rfl

end

/-! ## A legal message and then something else -/

/-- A PARSE that has not begun faces the header, token and options of a legal message, and then
`rest`. -/
structure Continued (s : State) (m : Message) (rest : List Byte) : Prop where
  noScan : s.scan = none
  legal : m.legal s.params
  noPayload : m.payload = []
  fits : m.bytes.length + rest.length ≤ s.params.rxCap.toNat
  holds : s.rxHolds (m.bytes ++ rest)

section
variable {s : State} {m : Message} {rest : List Byte} (h : Continued s m rest)
include h

theorem Continued.bytes_eq : m.bytes = m.headBytes := by
  rw [bytes_eq_head, h.noPayload]
  exact List.append_nil _

theorem Continued.theScan_eq : s.theScan = Scan.start (m.bytes.length + rest.length) := by
  rw [theScan_of_none h.noScan, h.holds.1, List.length_append]

theorem Continued.rx_holds :
    Holds s.rxSource 0 m.bytes ∧ Holds s.rxSource m.bytes.length rest := by
  obtain ⟨hhead, htail⟩ := holds_append.mp (holds_of_rx s _ h.holds.2)
  exact ⟨hhead, Nat.zero_add m.bytes.length ▸ htail⟩

theorem Continued.cursor (n : Nat) : (m.pastOptions n).p = m.bytes.length := by
  rw [pastOptions_p, h.bytes_eq]

/-- The message is passed, and `rest` is left (41_message_parser.md R504). -/
theorem Continued.remaining :
    Remaining s.rxSource (m.pastOptions (m.bytes.length + rest.length)) rest where
  phase := rfl
  holds := by rw [h.cursor]; exact h.rx_holds.2
  stop := by rw [h.cursor]; rfl

/-- An option that fails within its three passes is the failure of PARSE. -/
theorem Continued.fails {k : Nat} {e : Error} (ht : s.taint = false) (hk : k ≤ 3)
    (hf : (scanRun s.rxSource s.params.rxCap.toNat s.params.pathCap.toNat k
      (m.pastOptions (m.bytes.length + rest.length))).phase =
        .failed e (m.pastOptions (m.bytes.length + rest.length)).p) :
    ∃ t, exec .parse s = .next t ∧ ParseFailed s t e m.bytes.length := by
  have hfits := h.fits
  have hpassed : scanRun s.rxSource s.params.rxCap.toNat s.params.pathCap.toNat
      (1 + 3 * m.options.length) s.theScan = m.pastOptions (m.bytes.length + rest.length) := by
    rw [h.theScan_eq]
    exact scanRun_head s.rxSource s.params m _ h.legal (h.bytes_eq ▸ h.rx_holds.1)
      (by rw [← h.bytes_eq]; omega) h.fits
  have hfuel : 1 + 3 * m.options.length + k ≤ scanFuel s.theScan.n := by
    have hoptions := wireOptions_len m.options h.legal.2.1
    have hlen := headBytes_length m
    rw [← h.bytes_eq] at hlen
    rw [h.theScan_eq]
    unfold scanFuel
    simp only [Scan.start]
    omega
  refine parse_fails ht (finalScan_failed_of_passes ?_ hfuel)
  rw [scanRun_add, hpassed, hf, h.cursor]

end

/-- Settles O58: the options before it are passed, and the bad option fails within its three passes. -/
theorem parseReportsFirstBadOption : Obligations.ParseReportsFirstBadOption := by
  intro s m bad ht hsc hlegal hpay hfits hrx ends
  have hcont : Continued s m bad := ⟨hsc, hlegal, hpay, hfits, hrx⟩
  have hrem {rest : List Byte} (h : bad = rest) :
      Remaining s.rxSource (m.pastOptions (m.bytes.length + bad.length)) rest := by
    rw [← h]
    exact hcont.remaining
  have fails {k : Nat} (e : Error) (hk : k ≤ 3) (he : e.code = 4)
      (hf : (scanRun s.rxSource s.params.rxCap.toNat s.params.pathCap.toNat k
        (m.pastOptions (m.bytes.length + bad.length))).phase =
          .failed e (m.pastOptions (m.bytes.length + bad.length)).p) : ends e.detail := by
    obtain ⟨t, hexec, hfailed⟩ := hcont.fails ht hk hf
    refine ⟨t, hexec, ?_, hfailed.notValid, hfailed.done, hfailed.idle⟩
    rw [hfailed.errInfo, Error.info, he]
  refine ⟨?_, ?_, ?_, ?_, ?_, ?_, ?_, ?_⟩
  · intro ln more hl hbad
    exact fails .deltaReserved (by decide) rfl ((hrem hbad).deltaReserved hl)
  · intro dn more hd hbad
    exact fails .lengthReserved (by decide) rfl ((hrem hbad).lenReserved hd)
  · intro ln x hl hbad
    have truncated {dn : BitVec 4} {rest : List Byte} (hbad : bad = nibbleByte dn ln :: rest)
        (hd : dn = 13 ∨ dn = 14) (hlen : rest.length < extlen dn) : ends 0x03 :=
      fails .deltaExtTrunc (by decide) rfl ((hrem hbad).deltaTrunc hd hl hlen)
    rcases hbad with hbad | hbad | hbad
    · exact truncated hbad (.inl rfl) (by decide)
    · exact truncated hbad (.inr rfl) (by decide)
    · exact truncated hbad (.inr rfl) Nat.one_lt_two
  · intro delta dn de x hde hbad
    have truncated {ln : BitVec 4} {rest : List Byte} (hbad : bad = nibbleByte dn ln :: (de ++ rest))
        (hl : ln = 13 ∨ ln = 14) (hlen : rest.length < extlen ln) : ends 0x04 :=
      fails .lengthExtTrunc (by decide) rfl ((hrem hbad).lengthTrunc hde hl hlen)
    rcases hbad with hbad | hbad | hbad
    · exact truncated (rest := []) (by rw [hbad, List.append_nil]; rfl) (.inl rfl) (by decide)
    · exact truncated (rest := []) (by rw [hbad, List.append_nil]; rfl) (.inr rfl) (by decide)
    · exact truncated hbad (.inr rfl) Nat.one_lt_two
  · intro delta len dn ln de le v hde hle hv hbad
    exact fails .valueOverrun (by decide) rfl ((hrem hbad).overrun hde hle hv)
  · intro hbad
    exact fails .emptyPayload (by decide) rfl (congrArg Scan.phase (hrem hbad).marker)
  · intro delta v more hd hv hbad h11 hcap
    refine fails .pathOverflow (by decide) rfl ((hrem hbad).pathOverflow hd hv ?_ ?_)
    · rw [pastOptions_num, h11]
    · rw [pastOptions_pathPresent, pastOptions_path, joinPath_length]
      simp only [decide_eq_true_eq, ne_eq, ite_not]
      omega
  · intro delta v more hd hv hbad h12 h4
    refine fails .cfTooLong (by decide) rfl ((hrem hbad).cfTooLong hd hv ?_ h4)
    rw [pastOptions_num, h12]

end Sys2Proof.Machine
end

section
/-! SUPPORT. Proofs of the message builder family: `UintBytes` (42_message_builder.md R604,
30_encoding.md R320). -/

namespace Sys2Proof.Machine

theorem lane_toNat (w : Word) (k : Nat) : (lane w k).toNat = w.toNat / 2 ^ (8 * k) % 256 := by
  rw [lane, BitVec.extractLsb'_toNat, Nat.shiftRight_eq_div_pow]

/-- A word's highest lane in use is not 0. -/
theorem lane_ne_zero {w : Word} {k : Nat} (lo : 2 ^ (8 * k) ≤ w.toNat)
    (hi : w.toNat < 2 ^ (8 * k) * 256) : lane w k ≠ 0#8 := by
  have hquot : 0 < w.toNat / 2 ^ (8 * k) := Nat.div_pos lo (by positivity)
  rw [ne_eq, ← BitVec.toNat_inj, lane_toNat, Nat.mod_eq_of_lt (Nat.div_lt_of_lt_mul hi)]
  exact hquot.ne'

/-- The number is empty or begins with its highest lane in use. -/
theorem uintBytes_head?_ne_zero (v : Word) : (uintBytes v).head? ≠ some 0#8 := by
  have hv := v.isLt
  unfold uintBytes
  split_ifs with h0 h1 h2 h3
  · exact nofun
  · exact mt Option.some.inj (lane_ne_zero (k := 0) (by omega) (by omega))
  · exact mt Option.some.inj (lane_ne_zero (k := 1) (by omega) (by omega))
  · exact mt Option.some.inj (lane_ne_zero (k := 2) (by omega) (by omega))
  · exact mt Option.some.inj (lane_ne_zero (k := 3) (by omega) (by omega))

theorem uintBytes_length_le (v : Word) : (uintBytes v).length ≤ 4 := (beNat_uint v).2

/-- Settles O24: value and length by the four widths, and the first byte is the highest lane in use. -/
theorem uintBytesAreMinimal : Obligations.UintBytesAreMinimal := by
  intro v
  obtain ⟨hvalue, hlen⟩ := beNat_uint v
  exact ⟨hvalue, hlen, uintBytes_head?_ne_zero v, fun h => h ▸ rfl⟩

end Sys2Proof.Machine
end

section
/-! SUPPORT. Proofs of the message builder family: the frame of BUILD and how BUILD ends
(42_message_builder.md R600 to R606). -/

namespace Sys2Proof.Machine

/-! ## The framed datagram -/

/-- A short option is its header byte and its value (30_encoding.md R315, R316). -/
theorem wireOption_short {delta : Nat} {v : List Byte} (hd : delta ≤ 12) (hv : v.length ≤ 12) :
    wireOption delta v = nibbleByte (BitVec.ofNat 4 delta) (BitVec.ofNat 4 v.length) :: v := by
  simp only [wireOption, nibbleEncode_lit _ hd, nibbleEncode_lit _ hv, List.nil_append]

theorem wirePayload_length (body : List Byte) :
    (wirePayload body).length = if 0 < body.length then 1 + body.length else 0 := by
  cases body with
  | nil => rfl
  | cons b bs => exact Nat.add_comm _ _

/-- The marker stands before the body, and nothing after it. -/
theorem suffix_wirePayload (body : List Byte) : body <:+ wirePayload body := by
  cases body with
  | nil => exact List.suffix_rfl
  | cons b bs => exact List.suffix_cons 0xFF (b :: bs)

section
variable (s : State)

theorem frame_length : s.frame.length = 4 + s.reqTkl.toNat + 1 +
    (uintBytes s.params.textPlainCf).length +
      (if 0 < s.bodyLen.toNat then 1 + s.bodyLen.toNat else 0) := by
  have hcf := uintBytes_length_le s.params.textPlainCf
  rw [State.frame, wireOption_short (by decide) (by omega)]
  simp only [List.length_append, List.length_cons, List.length_nil, wirePayload_length,
    State.echoedToken, State.body, slice_length]
  omega

theorem frame_zero : s.frame[0]? = some (headerByte (responseType s.reqType) s.reqTkl) := rfl

theorem frame_two : s.frame[2]? = some (highByte s.reqMid) := rfl

theorem frame_three : s.frame[3]? = some (lowByte s.reqMid) := rfl

theorem frame_token {i : Nat} (hi : i < s.reqTkl.toNat) :
    s.frame[4 + i]? = some (s.tokenByte i) := by
  have htoken : i < s.echoedToken.length := by rwa [State.echoedToken, slice_length]
  rw [State.frame, List.getElem?_append_right (Nat.le_add_right 4 i), List.length_cons,
    List.length_cons, List.length_cons, List.length_cons, List.length_nil, Nat.add_sub_cancel_left,
    List.getElem?_append_left htoken, State.echoedToken, slice_getElem? _ _ _ _ hi, Nat.zero_add]

end

/-! ## The completion of BUILD -/

/-- BUILD passes its three checks (42_message_builder.md R600). -/
structure State.Frames (s : State) : Prop where
  body : s.bodyLen.toNat ≤ s.params.bodyCap.toNat
  token : s.reqTkl.toNat ≤ 8
  fits : s.frame.length ≤ s.params.txCap.toNat

section
variable {s : State}

theorem buildRule_bodyLenGtCap (h : s.params.bodyCap.toNat < s.bodyLen.toNat) :
    buildRule s = raiseError .bodyLenGtCap 0 { s with txLen := 0 } := if_pos h

theorem buildRule_tklGt8 (hb : s.bodyLen.toNat ≤ s.params.bodyCap.toNat) (h : 8 < s.reqTkl.toNat) :
    buildRule s = raiseError .buildTklGt8 0 { s with txLen := 0 } :=
  (if_neg (Nat.not_lt.mpr hb)).trans (if_pos h)

theorem buildRule_bufferTooSmall (hb : s.bodyLen.toNat ≤ s.params.bodyCap.toNat)
    (ht : s.reqTkl.toNat ≤ 8) (h : s.params.txCap.toNat < s.frame.length) :
    buildRule s = raiseError .bufferTooSmall 0 { s with txLen := 0 } :=
  (if_neg (Nat.not_lt.mpr hb)).trans ((if_neg (Nat.not_lt.mpr ht)).trans (if_pos h))

theorem buildRule_of_frames (h : s.Frames) : buildRule s =
    complete { s.storeBytes .tx 0 s.frame with txLen := BitVec.ofNat 16 s.frame.length } :=
  (if_neg (Nat.not_lt.mpr h.body)).trans
    ((if_neg (Nat.not_lt.mpr h.token)).trans (if_neg (Nat.not_lt.mpr h.fits)))

/-- The completion step of an untainted BUILD that passes its checks. -/
theorem exec_build_of_frames (ht : s.taint = false) (h : s.Frames) :
    exec .build s = .next { s.storeBytes .tx 0 s.frame with
      txLen := BitVec.ofNat 16 s.frame.length, errInfo := Error.ok.info 0
      inflight := none, done := true, scan := none } :=
  exec_command_untainted .build rfl ht (buildRule_of_frames h)

/-- A BUILD that ends without an error has passed its checks (42_message_builder.md R605). -/
theorem frames_of_build {t : State} (ht : s.taint = false) (hx : exec .build s = .next t)
    (hok : t.err = false) : s.Frames := by
  have noError {e : Error} (he : e ≠ .ok)
      (hr : buildRule s = raiseError e 0 { s with txLen := 0 }) : False := by
    cases (exec_command_untainted .build rfl ht hr).symm.trans hx
    exact code_ne_zero e he ((err_false _).mp hok)
  by_contra hn
  by_cases hb : s.bodyLen.toNat ≤ s.params.bodyCap.toNat
  · by_cases h8 : s.reqTkl.toNat ≤ 8
    · have hsmall : s.params.txCap.toNat < s.frame.length :=
        Nat.lt_of_not_le (fun h => hn ⟨hb, h8, h⟩)
      exact noError (e := .bufferTooSmall) nofun (buildRule_bufferTooSmall hb h8 hsmall)
    · exact noError (e := .buildTklGt8) nofun (buildRule_tklGt8 hb (Nat.lt_of_not_le h8))
  · exact noError (e := .bodyLenGtCap) nofun (buildRule_bodyLenGtCap (Nat.lt_of_not_le hb))

end

/-- `TX` of a state after the BUILD from `s` (42_message_builder.md R600). -/
structure Built (s t : State) : Prop where
  length : t.txLen.toNat = s.frame.length
  bytes : ∀ i < s.frame.length, Memory.get? t.mem (0x20000 + i) = s.frame[i]?

theorem built_of_build {s t : State} (ht : s.taint = false) (hx : exec .build s = .next t)
    (h : s.Frames) : Built s t := by
  cases (exec_build_of_frames ht h).symm.trans hx
  exact ⟨toNat_length_of_le_cap h.fits, fun i hi => get?_store_inside s.mem 0x20000 s.frame i hi⟩

/-- The header byte put together from its fields (30_encoding.md R311). -/
theorem headerByte_eq_or (t : BitVec 2) (tkl : BitVec 4) :
    headerByte t tkl = 0x40#8 ||| (t.setWidth 8 <<< 4) ||| tkl.setWidth 8 := by
  revert t tkl
  decide

theorem setWidth_responseType (t : BitVec 2) :
    (responseType t).setWidth 8 = if t = 0 then 2#8 else 1#8 := by
  unfold responseType
  split_ifs <;> rfl

/-- Settles O25: the checks pass, and the frame is stored in `TX`. -/
theorem buildFramesResponse : Obligations.BuildFramesResponse := by
  intro s ht len hbody htoken hfits
  have hlen : s.frame.length = len := frame_length s
  have hframes : s.Frames := ⟨hbody, htoken, hlen ▸ hfits⟩
  have hexec := exec_build_of_frames ht hframes
  have hbuilt := built_of_build ht hexec hframes
  have hpos : 0 < s.frame.length := by rw [hlen]; omega
  rw [built_bytes, ← hlen]
  refine ⟨_, hexec, rfl, hbuilt.length, rfl, hbuilt.bytes, fun a ha => ?_, ?_⟩
  · exact get?_store_outside s.mem 0x20000 s.frame a ha
  · rw [← setWidth_responseType, ← headerByte_eq_or]
    exact hbuilt.bytes 0 hpos

/-- Settles O26: each check fails with its own error, and a failure writes `TX_LEN` alone. -/
theorem buildFailuresLeaveTx : Obligations.BuildFailuresLeaveTx := by
  intro s ht len ends
  have hlen : s.frame.length = len := frame_length s
  have fails {e : Error} (hr : buildRule s = raiseError e 0 { s with txLen := 0 }) :=
    exec_command_untainted .build rfl ht hr
  refine ⟨fun h => ?_, fun hb h => ?_, fun hb h8 h => ?_⟩
  · exact fails (buildRule_bodyLenGtCap h)
  · exact fails (buildRule_tklGt8 hb h)
  · exact fails (buildRule_bufferTooSmall hb h8 (hlen ▸ h))

end Sys2Proof.Machine
end

section
/-! SUPPORT. Proofs of the message builder family: what BUILD frames, parsed, and what PARSE took,
framed (42_message_builder.md R609). -/

namespace Sys2Proof.Machine

/-! ## The built message -/

theorem slice_getD (src : Nat → Byte) (p : Nat) {len i : Nat} (h : i < len) :
    (slice src p len).getD i 0 = src (p + i) := by
  rw [List.getD_eq_getElem?_getD, slice_getElem? _ _ _ _ h, Option.getD_some]

/-- The payload ends the datagram (41_message_parser.md R506). -/
theorem bytes_payload (m : Message) (i : Nat) :
    m.bytes[m.payloadOffset + i]? = m.payload[i]? := by
  have hsuffix : m.payload <:+ m.bytes := by
    rw [bytes_eq_head]
    exact (suffix_wirePayload m.payload).trans (List.suffix_append _ _)
  rw [Message.payloadOffset, ← List.getElem?_drop, ← List.suffix_iff_eq_drop.mp hsuffix]

theorem builtMessage_legal {s : State} {c : Params} (h8 : s.reqTkl.toNat ≤ 8)
    (hrx : s.frame.length ≤ c.rxCap.toNat) : s.builtMessage.legal c := by
  have hcf := uintBytes_length_le s.params.textPlainCf
  have hdelta : 12 ≤ maxExtValue := by decide
  have hvalue : 4 ≤ maxExtValue := by decide
  exact ⟨(slice_length _ _ _).trans_le h8,
    List.forall_mem_singleton.mpr ⟨hdelta, hcf.trans hvalue⟩, Nat.zero_le _,
    List.forall_mem_singleton.mpr hcf, by rwa [built_bytes]⟩

/-- Settles O33: the frame is the bytes of a legal message, which PARSE extracts. -/
theorem buildThenParseRoundTrips : Obligations.BuildThenParseRoundTrips := by
  intro s t u ht hexec hok htu hscan hparams hrxLen hcap hcopy
  have hframes := frames_of_build ht hexec hok
  have hbuilt := built_of_build ht hexec hframes
  rw [hbuilt.length] at hcap hcopy
  have hrx : u.rxHolds s.builtMessage.bytes := by
    rw [built_bytes]
    exact ⟨hrxLen ▸ hbuilt.length, fun i hi => (hcopy i hi).trans (hbuilt.bytes i hi)⟩
  obtain ⟨r, hparse, herr, -, -, htype, htkl, hcode, hmid, htoken, -, -, hcf, hoff, hlen, hcount, hlast,
    hvalid, -, hcfPresent, hpayload⟩ :=
    parseExtractsLegalMessage u s.builtMessage htu hscan (builtMessage_legal hframes.token hcap) hrx
  have hbody : s.builtMessage.payload.length = s.bodyLen.toNat := slice_length _ _ _
  refine ⟨r, hparse, ?_, hvalid, hmid, ?_, fun i hi => ?_, htype, hcode, ?_, hcfPresent, ?_, ?_, ?_, ?_,
    fun i hi => ?_⟩
  · rw [err_false, herr]
  · exact BitVec.eq_of_toNat_eq (htkl.trans (slice_length _ _ _))
  · rw [htoken i (Nat.lt_of_lt_of_le hi hframes.token)]
    exact (slice_getD s.tokenByte 0 hi).trans (by rw [Nat.zero_add])
  · exact BitVec.eq_of_toNat_eq (hcf.trans (beNat_uint _).1)
  · exact BitVec.eq_of_toNat_eq hcount
  · exact BitVec.eq_of_toNat_eq hlast
  · rw [hpayload, decide_eq_true_iff, ← List.length_pos_iff, hbody]
  · exact BitVec.eq_of_toNat_eq (hlen.trans hbody)
  · have hbyte : s.builtMessage.bytes[r.pPayloadOff.toNat + i]? = some (s.readByte .body i) := by
      rw [hoff, bytes_payload]
      exact (slice_getElem? _ _ _ _ hi).trans (by rw [Nat.zero_add])
    obtain ⟨hin, -⟩ := List.getElem?_eq_some_iff.mp hbyte
    exact (hrx.2 _ hin).trans hbyte

/-! ## The header that PARSE took -/

/-- A successful PARSE has read a header of version 1 and a token of at most 8 bytes
(41_message_parser.md R501, R503). -/
structure HeaderTaken (src : Nat → Byte) (sc : Scan) : Prop where
  version : (src 0).extractLsb' 6 2 = 1#2
  tokenMax : sc.tkl.toNat ≤ 8
  type : sc.t = (src 0).extractLsb' 4 2
  tkl : sc.tkl = loNibble (src 0)
  mid : sc.mid = src 2 ++ src 3
  token : sc.token = slice src 4 sc.tkl.toNat

theorem HeaderTaken.congr {src : Nat → Byte} {sc sc' : Scan} (h : HeaderTaken src sc)
    (he : sc'.headerPart = sc.headerPart) : HeaderTaken src sc' := by
  simp only [Scan.headerPart, Prod.mk.injEq] at he
  obtain ⟨ht, htkl, -, hmid, htoken⟩ := he
  exact ⟨h.version, htkl ▸ h.tokenMax, ht ▸ h.type, htkl ▸ h.tkl, hmid ▸ h.mid,
    htkl ▸ htoken ▸ h.token⟩

theorem HeaderTaken.tokenByte {src : Nat → Byte} {sc : Scan} (h : HeaderTaken src sc) {i : Nat}
    (hi : i < sc.tkl.toNat) : sc.token.getD i 0 = src (4 + i) := by
  rw [h.token, slice_getD _ _ hi]

/-- The pass at the header fails or takes the header. -/
theorem scanAdvance_header_cases (src : Nat → Byte) (rxCap pathCap : Nat) {sc : Scan}
    (hph : sc.phase = .header) :
    (∃ e, (scanAdvance src rxCap pathCap sc).phase = .failed e 0) ∨
    ((scanAdvance src rxCap pathCap sc).phase ≠ .header ∧
      HeaderTaken src (scanAdvance src rxCap pathCap sc)) := by
  rw [scanAdvance_header src rxCap pathCap sc hph]
  split_ifs with hcap h4 hversion
  · exact .inl ⟨_, rfl⟩
  · exact .inl ⟨_, rfl⟩
  · exact .inl ⟨_, rfl⟩
  · rcases scanWireHeader_cases src ((src 0).extractLsb' 4 2) (loNibble (src 0)) (src 1)
      (src 2 ++ src 3) sc hph with ⟨-, h⟩ | ⟨-, -, h⟩ | ⟨h8, -, h⟩ <;> rw [h]
    · exact .inl ⟨_, rfl⟩
    · exact .inl ⟨_, rfl⟩
    · exact .inr ⟨nofun, not_not.mp hversion, h8, rfl, rfl, rfl, rfl⟩

/-- A scan that ends well has taken the header: the first pass did, and the others keep it. -/
theorem headerTaken_of_done {s : State} (hs : s.scan = none) (hd : s.finalScan.phase = .done) :
    HeaderTaken s.rxSource s.finalScan := by
  have hph : s.theScan.phase = .header := by rw [theScan_of_none hs]; rfl
  rcases scanAdvance_header_cases s.rxSource s.params.rxCap.toNat s.params.pathCap.toNat hph with
    ⟨e, hf⟩ | ⟨hpast, htaken⟩
  · have hfail := finalScan_failed_of_passes (k := 1) hf (by unfold scanFuel; omega)
    exact nomatch hd.symm.trans hfail
  · exact htaken.congr (scanRun_keepsHeader _ _ _ (3 * s.theScan.n + 3) _ hpast)

/-- A PARSE that ends without an error has finished its scan (41_message_parser.md R509). -/
theorem finalScan_done_of_parse {s t : State} (ht : s.taint = false) (hs : s.scan = none)
    (hx : exec .parse s = .next t) (hok : t.err = false) : s.finalScan.phase = .done := by
  rcases parseRule_cases s with ⟨hd, -⟩ | ⟨e, pos, hf, -⟩
  · exact hd
  · cases (exec_parse_of_failed ht hf).symm.trans hx
    have he := (finalScan_failed s (theScan_ok_of_none hs) hf).1
    exact absurd ((err_false _).mp hok) (code_ne_zero e he)

/-- A successful PARSE commits the type, the token and the message-id of its scan
(41_message_parser.md R503). -/
theorem requestRegs_of_parse {s t : State} (ht : s.taint = false) (hx : exec .parse s = .next t)
    (hd : s.finalScan.phase = .done) :
    t.reqType = s.finalScan.t ∧ t.reqTkl = s.finalScan.tkl ∧ t.reqMid = s.finalScan.mid ∧
      ∀ i < 8, t.tokenByte i = s.finalScan.token.getD i 0 := by
  cases (exec_parse_of_done ht hd).symm.trans hx
  exact ⟨rfl, rfl, rfl, token_byte s.finalScan.token⟩

/-! ## The response to a parsed request -/

theorem type_toNat (b : Byte) : (b.extractLsb' 4 2).toNat = b.toNat / 16 % 4 := by
  rw [BitVec.extractLsb'_toNat, Nat.shiftRight_eq_div_pow]

theorem headerByte_toNat (t : BitVec 2) (tkl : BitVec 4) :
    (headerByte t tkl).toNat / 64 = 1 ∧ (headerByte t tkl).toNat % 16 = tkl.toNat ∧
      (headerByte t tkl).toNat / 16 % 4 = t.toNat := by
  rw [← version_eq_one_iff, ← loNibble_toNat, ← type_toNat, version_headerByte, tkl_headerByte,
    type_headerByte]
  exact ⟨rfl, rfl, rfl⟩

/-- ACK for a CON request, NON otherwise (42_message_builder.md R602), in numbers. -/
theorem responseType_toNat (t : BitVec 2) :
    (responseType t).toNat = if t.toNat = 0 then 2 else 1 := by
  revert t
  decide

/-- Settles O34: the header and the token of the frame are those that PARSE took from the request. -/
theorem responseEchoesRequest : Obligations.ResponseEchoesRequest := by
  intro s t u v hts hscan hparse htok htu htype htkl hmid htoken hbuild hvok rx tx
  have hdone := finalScan_done_of_parse hts hscan hparse htok
  have htaken : HeaderTaken rx s.finalScan := headerTaken_of_done hscan hdone
  obtain ⟨etype, etkl, emid, etoken⟩ := requestRegs_of_parse hts hparse hdone
  have hbuilt := built_of_build htu hbuild (frames_of_build htu hbuild hvok)
  have sent {i : Nat} {b : Byte} (h : u.frame[i]? = some b) : tx i = some b := by
    obtain ⟨hi, -⟩ := List.getElem?_eq_some_iff.mp h
    exact (hbuilt.bytes i hi).trans h
  have hreqTkl : t.reqTkl.toNat = (rx 0).toNat % 16 := by rw [etkl, htaken.tkl, loNibble_toNat]
  have hreqMid : u.reqMid = rx 2 ++ rx 3 := by rw [hmid, emid, htaken.mid]
  refine ⟨hreqTkl, fun i hi => ?_, ?_, ?_, ?_⟩
  · have hsent := sent (frame_token u (htkl ▸ hi))
    rw [etkl] at hi
    have h8 : i < 8 := Nat.lt_of_lt_of_le hi htaken.tokenMax
    rw [hsent, htoken i h8, etoken i h8, htaken.tokenByte hi]
  · rw [sent (frame_two u), hreqMid, highByte_append]
  · rw [sent (frame_three u), hreqMid, lowByte_append]
  · obtain ⟨hversion, htklBits, htypeBits⟩ := headerByte_toNat (responseType u.reqType) u.reqTkl
    refine ⟨_, sent (frame_zero u), hversion, ?_, ?_⟩
    · rw [htklBits, htkl, hreqTkl]
    · rw [htypeBits, htype, etype, htaken.type, responseType_toNat, type_toNat]

end Sys2Proof.Machine
end

section
/-! SUPPORT. Proofs of the control family: what the host's writes of `CMD` and `STATUS` do
(45_command_control.md R700, R701, R706). -/

namespace Sys2Proof.Machine

/-! ## Writes of CMD and STATUS -/

section
variable {s : State} {v : Word} {rest : List Move}

/-- A `CMD` write to an idle block starts a command (45_command_control.md R700). -/
theorem step_writeCmd_idle (hin : s.inputs = .write 0x00014 v :: rest) (hb : s.busy = false) :
    step s = .next (State.startCommand v (s.tick rest)) := by
  rw [step_writeReg (r := .cmd) hin]
  simp [State.writeReg, State.writeCmd, hb]

/-- A `CMD` write to a busy block sets `OVERRUN` alone (45_command_control.md R701). -/
theorem step_writeCmd_busy (hin : s.inputs = .write 0x00014 v :: rest) (hb : s.busy = true) :
    step s = .next { s.tick rest with overrun := true } := by
  rw [step_writeReg (r := .cmd) hin]
  simp [State.writeReg, State.writeCmd, hb]

/-- A `STATUS` write acknowledges (45_command_control.md R706). -/
theorem step_writeStatus (hin : s.inputs = .write 0x00018 v :: rest) :
    step s = .next (State.acknowledge v (s.tick rest)) :=
  step_writeReg (r := .status) hin

end

/-- The start of a command shows in `STATUS` and `ERR_INFO` alone (45_command_control.md R700). -/
theorem get_startCommand {r : Reg} (w : Word) (s : State) (h : r ∉ [Reg.status, .errInfo]) :
    r.get (State.startCommand w s) = r.get s := by
  cases r with
  | status | errInfo => exact absurd (by decide) h
  | _ => rfl

/-- Settles O11: an idle block's `CMD` write is `startCommand`, field by field. -/
theorem commandWriteStarts : Obligations.CommandWriteStarts := by
  intro s w rest hin hb
  have hcleared : (Error.ok.info 0).toWord = 0 := by decide
  refine ⟨_, step_writeCmd_idle hin hb, rfl, rfl, rfl, hcleared, (err_false _).mpr rfl, rfl, rfl,
    fun r hr => ?_, rfl⟩
  rw [get_startCommand w _ hr, get_tick]

/-- Settles O13: a `STATUS` write is `acknowledge`, and the invariant has `DONE` = 0 while `BUSY` = 1. -/
theorem statusWriteClearsDoneAndOverrun : Obligations.StatusWriteClearsDoneAndOverrun := by
  intro s v rest hin
  refine ⟨_, step_writeStatus hin, rfl, rfl, rfl, rfl, rfl, rfl, fun hinv hbusy => ?_⟩
  have hdone : s.done = false := Bool.eq_false_iff.mpr fun h => hinv.busyDone ⟨hbusy, h⟩
  exact ⟨hdone, by simp [hdone]⟩

/-! ## What clears OVERRUN -/

/-- A register write clears `OVERRUN` only by an acknowledge of bit 3 or a soft reset
(45_command_control.md R701). -/
theorem writeReg_overrun {s : State} (r : Reg) (v : Word) (h : s.overrun = true) :
    (s.writeReg r v).overrun = true ∨ (r = .status ∧ bitOf v 3 = true) ∨
      (r = .ctrl ∧ bitOf v 0 = true) := by
  rcases writeReg_cases r v s with ⟨hr, hv, -⟩ | ⟨-, -, e⟩ | ⟨-, -, e⟩ | ⟨-, -, e⟩ | ⟨hr, e⟩ | ⟨-, e⟩ |
    ⟨-, -, -, -, e⟩
  · exact .inr (.inr ⟨hr, hv⟩)
  · rw [e]; exact .inl h
  · rw [e]; exact .inl rfl
  · rw [e]; exact .inl h
  · cases hv : bitOf v 3 with
    | true => exact .inr (.inl ⟨hr, rfl⟩)
    | false => left; simp [e, h, hv]
  · left; simp [e, h]
  · rw [e]; exact .inl h

/-- A write to a buffer window or a hole leaves `OVERRUN`, and one to a register is `writeReg`. -/
theorem writeTarget_overrun {s : State} (target : Target) (v : Word) (h : s.overrun = true) :
    (s.writeTarget target v).overrun = true ∨ (target = .reg .status ∧ bitOf v 3 = true) ∨
      (target = .reg .ctrl ∧ bitOf v 0 = true) := by
  cases target with
  | reg r => simpa [State.writeTarget] using writeReg_overrun r v h
  | hole => exact .inl h
  | word b i => left; rw [State.writeTarget]; split_ifs <;> simp [h]

/-- Settles O12: of what a step can do to `OVERRUN`, only an acknowledge and the two resets clear it. -/
theorem commandWriteWhileBusyOverruns : Obligations.CommandWriteWhileBusyOverruns := by
  refine ⟨fun s w rest => step_writeCmd_busy, fun s t h ht => ?_⟩
  cases stepped_of_step ht with
  | idle | skipped | read | scanned => exact .inl h
  | completed => left; simp [h]
  | reset hin => exact .inr (.inr (.inr ⟨_, hin⟩))
  | @wrote addr v rest target hin hres =>
    rcases writeTarget_overrun (s := s.tick rest) target v h with hkept | ⟨rfl, hv⟩ | ⟨rfl, hv⟩
    · exact .inl hkept
    · obtain rfl := resolve_ok_reg hres
      exact .inr (.inl ⟨v, rest, hin, hv⟩)
    · obtain rfl := resolve_ok_reg hres
      exact .inr (.inr (.inl ⟨v, rest, hin, hv⟩))

end Sys2Proof.Machine
end

section
/-! SUPPORT. Proofs of the control family: the completion step, and the commands NOP and the two illegal
classes (45_command_control.md R700, R702, R703, R705). -/

namespace Sys2Proof.Machine

theorem completeMove_inflight {s : State} {w : Word} (h : s.inflight = some w) :
    completeMove s = exec (decodeCommand w) s := by
  simp [completeMove, h]

/-- Settles O47: the move of a completion is `completeMove`, which executes the word in flight. -/
theorem completionStepRunsDecodedCommand : Obligations.CompletionStepRunsDecodedCommand :=
  fun s _ rest hin hw => (step_move hin).trans (completeMove_inflight (s := s.tick rest) hw)

/-- Settles O16: the completion of an untainted command records its rule's result, and the rule of NOP
is `complete`. -/
theorem nopCompletes : Obligations.NopCompletes :=
  fun _ ht => exec_command_untainted .nop rfl ht rfl

/-- The completion of any command raises `irq` when `IRQ_EN` = 1 (60_exceptions.md R820). -/
theorem irq_of_exec_command {i : Instr} {s t : State} (hi : i.position = .command)
    (h : exec i s = .next t) : t.irq = s.irqEn := by
  cases (exec_command i s hi).symm.trans h
  simp [State.irq]

/-- Settles O17: an illegal word decodes to one of the two classes, whose rules raise their error and
write nothing. -/
theorem illegalWordsComplete : Obligations.IllegalWordsComplete := by
  intro s ht ends
  have hopcode (op mbz) : ends (.illegalReservedOpcode op mbz) 0x01 :=
    exec_command_untainted _ rfl ht rfl
  have hbits (op mbz) : ends (.illegalReservedBits op mbz) 0x02 :=
    exec_command_untainted _ rfl ht rfl
  refine ⟨hopcode, hbits, fun w hop => ?_, fun w hop hmbz => ?_, fun w t _ hx => ?_,
    fun w rest _ hin hb => ?_⟩
  · obtain ⟨-, -, -, -, -, hdecode, -⟩ := everyWordSelectsOneCommand w
    rw [hdecode (by omega) hop]
    exact hopcode _ _
  · obtain ⟨-, -, -, -, -, -, hdecode⟩ := everyWordSelectsOneCommand w
    rw [hdecode (by omega) hop]
    exact hbits _ _
  · exact irq_of_exec_command (decodeCommand_position w) hx
  · exact ⟨_, step_writeCmd_idle hin hb, rfl, rfl⟩

end Sys2Proof.Machine
end

section
/-! SUPPORT. Proofs of the exceptions family: what an untainted command records in `ERR_INFO`
(60_exceptions.md R800 to R803). -/

namespace Sys2Proof.Machine

/-- The (code, detail) pairs of 60_exceptions.md R801, and that of OK. -/
def listedPairs : List (Nat × Nat) :=
  [(0, 0), (1, 0), (2, 0), (3, 1), (3, 2), (3, 3), (4, 1), (4, 2), (4, 3), (4, 4), (4, 5), (4, 6),
   (4, 7), (4, 8), (4, 9), (4, 10), (5, 0), (6, 1), (6, 2), (6, 3), (6, 4), (6, 5), (7, 1)]

theorem code_detail_mem_listedPairs (e : Error) :
    (e.code.toNat, e.detail.toNat) ∈ listedPairs := by
  cases e <;> decide

/-! ## The record of each rule -/

theorem decodeExtRule_err (s : State) : ∃ e : Error, (decodeExtRule s).err = e.info 0 := by
  by_cases ha : s.codecIn.count = 3
  · exact ⟨_, congrArg Result.err (decodeExtRule_availReserved ha)⟩
  · cases hd : nibbleDecode s.codecIn.nibble (codecSource s.codecIn) 0 s.codecIn.count.toNat with
    | ok v used => exact ⟨_, congrArg Result.err (decodeExtRule_ok ha hd)⟩
    | reserved => exact ⟨_, congrArg Result.err (decodeExtRule_reserved ha hd)⟩
    | trunc => exact ⟨_, congrArg Result.err (decodeExtRule_trunc ha hd)⟩

theorem encodeExtRule_err (s : State) : ∃ e : Error, (encodeExtRule s).err = e.info 0 := by
  cases h : nibbleEncode s.codecValIn.toNat with
  | some form => exact ⟨_, congrArg Result.err (encodeExtRule_some h)⟩
  | none => exact ⟨_, congrArg Result.err (encodeExtRule_none h)⟩

theorem buildRule_err (s : State) : ∃ e : Error, (buildRule s).err = e.info 0 := by
  rcases buildRule_cases s with ⟨e, -, h⟩ | ⟨-, h⟩
  · exact ⟨e, congrArg Result.err h⟩
  · exact ⟨.ok, congrArg Result.err h⟩

/-- Every command but PARSE records position 0 (60_exceptions.md R802). -/
theorem commandRule_err_of_ne_parse {i : Instr} (s : State) (hi : i ≠ .parse) :
    ∃ e : Error, (commandRule i s).err = e.info 0 := by
  cases i with
  | parse => exact absurd rfl hi
  | decodeExt => exact decodeExtRule_err s
  | encodeExt => exact encodeExtRule_err s
  | build => exact buildRule_err s
  | illegalReservedOpcode op mbz => exact ⟨.reservedOpcode, rfl⟩
  | illegalReservedBits op mbz => exact ⟨.reservedBits, rfl⟩
  | nop | wireHeader | optHdr | optDeltaLit | optDeltaExt8 | optDeltaExt16 | optDeltaReserved
  | optLenLit | optLenExt8 | optLenExt16 | optLenReserved | payloadMarker => exact ⟨.ok, rfl⟩

/-- PARSE records a position other than 0 only with MalformedOption (60_exceptions.md R802). -/
theorem parseRule_err {s : State} (h : s.theScan.Ok s.params) :
    ∃ (e : Error) (pos : Nat), (parseRule s).err = e.info pos ∧ (e.code = 4 ∨ pos = 0) := by
  rcases parseRule_cases s with ⟨-, hr⟩ | ⟨e, pos, hf, hr⟩
  · exact ⟨.ok, 0, congrArg Result.err hr, .inr rfl⟩
  · exact ⟨e, pos, congrArg Result.err hr, (finalScan_failed s h hf).2⟩

/-- Settles O42: the completion of an untainted command records the outcome of its rule, and only
PARSE has one with a position. -/
theorem onlyListedErrorsAreRecorded : Obligations.OnlyListedErrorsAreRecorded := by
  intro i s t hinv hi ht hx
  have herr : t.errInfo = (commandRule i s).err := by
    cases (exec_command_untainted i hi ht rfl).symm.trans hx
    rfl
  by_cases hp : i = .parse
  · subst hp
    obtain ⟨e, pos, he, hpos⟩ := parseRule_err (theScan_ok s hinv)
    rw [herr, commandRule, he]
    exact ⟨code_detail_mem_listedPairs e,
      fun hne => ⟨rfl, hpos.resolve_right fun h0 => hne (by rw [h0]; rfl)⟩⟩
  · obtain ⟨e, he⟩ := commandRule_err_of_ne_parse s hp
    rw [herr, he]
    exact ⟨code_detail_mem_listedPairs e, fun hne => absurd rfl hne⟩

end Sys2Proof.Machine
end

section
/-! SUPPORT. Proofs of the reset and hazard family: what the two resets leave, and that a reset state has
the invariant (70_reset_and_hazards.md R900 to R902). -/

namespace Sys2Proof.Machine

/-! ## Hardware reset -/

theorem hardReset_zero (s : State) {r : Reg} (hr : r ∉ [Reg.id, .hwrev, .cap0, .cap1]) :
    r.get s.hardReset = 0 :=
  (hardReset_get s r).trans (powerUp_zero s.params r hr)

/-- Settles O1: every register but the constants is 0 after power-up, and memory lists nothing. -/
theorem hardResetLeavesResetValues : Obligations.HardResetLeavesResetValues := fun s rest hin =>
  ⟨(s.tick rest).hardReset, step_move hin, rfl, rfl, rfl, rfl, fun _ hr => hardReset_zero _ hr,
    rfl, rfl, rfl, fun a => get?_nil a, rfl⟩

/-- The reset state has no byte, no command and no scan that could break the invariant. -/
theorem powerUp_inv {c : Params} (hc : c.wf) : Inv (State.powerUp c) where
  params := hc
  memory := List.Pairwise.nil
  inside := List.forall_mem_nil _
  busyDone h := nomatch h.1
  scanRuns h := nomatch h
  scanOk _ h := nomatch h

/-- Settles O51: the parameters of `State.reset` are legal ones. -/
theorem resetHasInvariant : Obligations.ResetHasInvariant :=
  ⟨powerUp_inv (by decide), fun _ hc => powerUp_inv hc⟩

/-! ## Soft reset -/

/-- A `CTRL` write with `SOFT_RESET` set is a soft reset, whatever its other bits (10_state.md R107). -/
theorem step_softReset {s : State} {v : Word} {rest : List Move}
    (hin : s.inputs = .write 0x00010 v :: rest) (hv : bitOf v 0 = true) :
    step s = .next (s.tick rest).softReset := by
  rw [step_writeReg (r := .ctrl) hin]
  simp [State.writeReg, State.writeCtrl, hv]

theorem softReset_zero (s : State) {r : Reg} (hr : r ∉ [Reg.id, .hwrev, .cap0, .cap1]) :
    r.get s.softReset = 0 :=
  (softReset_get s r).trans (hardReset_zero s hr)

/-- What a soft reset does to a byte (70_reset_and_hazards.md R901, R902). -/
theorem get?_softReset (s : State) (x : Nat) :
    Memory.get? s.softReset.mem x =
      if ∃ i, s.running = some i ∧ ∃ b ∈ outputBuffers i, b.base ≤ x ∧ x < b.base + b.cap s.params then
        (Memory.get? s.mem x).map (fun _ => Config.drawByte s.draws x)
      else Memory.get? s.mem x := by
  cases hr : s.running with
  | none => simp [State.softReset, State.abandonBuffers, hr]
  | some i =>
    simp only [State.softReset, State.abandonBuffers, hr, get?_foldl_drawBuffer, Option.some.injEq,
      exists_eq_left']

/-- No command writes a buffer of the host's (20_memory.md R212). -/
theorem not_output_of_hostWritable {b : Buffer} (hb : b.hostWritable = true) (i : Instr) :
    b ∉ outputBuffers i := fun h => by
  rcases outputBuffers_cases h with ⟨-, rfl⟩ | ⟨-, rfl⟩ <;> exact absurd hb (by decide)

theorem build_of_writes_tx {i : Instr} (h : Buffer.tx ∈ outputBuffers i) : i = .build := by
  simpa using outputBuffers_cases h

theorem parse_of_writes_path {i : Instr} (h : Buffer.path ∈ outputBuffers i) : i = .parse := by
  simpa using outputBuffers_cases h

theorem base_window_injective {b b' : Buffer} (h : b.base / 0x10000 = b'.base / 0x10000) : b = b' :=
  Option.some.inj (by rw [← windowBuffer_base b, h, windowBuffer_base])

/-- A soft reset keeps the whole window of a buffer that the abandoned command was not writing. -/
theorem get?_softReset_kept {s : State} {b : Buffer} {k : Nat}
    (hb : ∀ i, s.running = some i → b ∉ outputBuffers i) (hk : k < 0x10000) :
    Memory.get? s.softReset.mem (b.base + k) = Memory.get? s.mem (b.base + k) := by
  rw [get?_softReset, if_neg]
  rintro ⟨i, hr, b', hb', hin⟩
  obtain ⟨n, -, -, hn⟩ := base_eq b
  have hwin := window_of_inside hin
  obtain rfl : b = b' := base_window_injective (by omega)
  exact hb i hr hb'

/-- A soft reset draws the written bytes of the buffer that the abandoned command was writing. -/
theorem get?_softReset_abandoned {s : State} {i : Instr} {b : Buffer} {k : Nat}
    (hr : s.running = some i) (hb : b ∈ outputBuffers i) (hk : k < b.cap s.params) :
    Memory.get? s.softReset.mem (b.base + k) =
      (Memory.get? s.mem (b.base + k)).map (fun _ => Config.drawByte s.draws (b.base + k)) := by
  rw [get?_softReset, if_pos ⟨i, hr, b, hb, by omega, by omega⟩]

/-- Settles O2: the registers are those of a hardware reset, no command writes RX or BODY, and only
BUILD writes TX and only PARSE writes PATH. -/
theorem softResetKeepsBuffers : Obligations.SoftResetKeepsBuffers := by
  intro s v rest hin hv
  refine ⟨_, step_softReset hin hv, rfl, rfl, rfl, rfl, fun _ hr => softReset_zero _ hr, rfl, rfl, rfl,
    rfl, fun _ hk => ?_, fun _ hk => ?_, fun hr _ hk => ?_, fun hr _ hk => ?_, fun hr _ hk => ?_,
    fun hr _ hk => ?_⟩
  · exact get?_softReset_kept (b := .rx) (fun i _ => not_output_of_hostWritable rfl i) hk
  · exact get?_softReset_kept (b := .body) (fun i _ => not_output_of_hostWritable rfl i) hk
  · exact get?_softReset_kept (s := s.tick rest) (b := .tx)
      (fun _ hi h => hr (build_of_writes_tx h ▸ hi)) hk
  · exact get?_softReset_kept (s := s.tick rest) (b := .path)
      (fun _ hi h => hr (parse_of_writes_path h ▸ hi)) hk
  · exact get?_softReset_abandoned (s := s.tick rest) hr (List.mem_singleton_self Buffer.tx) hk
  · exact get?_softReset_abandoned (s := s.tick rest) hr (List.mem_singleton_self Buffer.path) hk

end Sys2Proof.Machine
end

section
/-! SUPPORT. Proofs of the reset and hazard family: the input hazard, and the completion that every
started command reaches (70_reset_and_hazards.md R907, R911, R920). -/

namespace Sys2Proof.Machine

/-! ## The input hazard -/

theorem readsNow_running {s : State} {i : Instr} (hr : s.running = some i) (r : Reg) :
    s.readsNow r = decide (r ∈ inputRegs i) := by
  simp [State.readsNow, hr]

theorem readsBufferNow_running {s : State} {i : Instr} (hr : s.running = some i) (b : Buffer) :
    s.readsBufferNow b = decide (b ∈ inputBuffers i) := by
  simp [State.readsBufferNow, hr]

/-- Settles O10: both writes pass through `taintIf` of the running command's inputs. -/
theorem inputWritesTaint : Obligations.InputWritesTaint := by
  intro s i v rest hr
  refine ⟨fun r hrw hin => ?_, fun b w addr hrw ha hw hin => ?_⟩
  · have hstep := step_writeReg hin
    rw [writeReg_rw r v _ hrw, readsNow_running (s := s.tick rest) hr] at hstep
    exact ⟨_, hstep, fun h => by simp [h], fun h => by simp [h]⟩
  · have hstep := step_writeWord hrw ha hw hin
    rw [readsBufferNow_running (s := s.tick rest) hr] at hstep
    exact ⟨_, hstep, fun h => by simp [h], fun h => by simp [h]⟩

/-! ## The completion of a tainted command -/

/-- The end of a command shows in `STATUS` alone, its outcome apart (45_command_control.md R700). -/
theorem get_ended {r : Reg} (s : State) (h : r ≠ .status) :
    r.get { s with inflight := none, done := true, scan := none } = r.get s := by
  cases r with
  | status => exact absurd rfl h
  | _ => rfl

theorem status_not_mem_outputRegs (i : Instr) : Reg.status ∉ outputRegs i := fun h =>
  absurd (outputRegs_data i _ h) (by decide)

/-- Settles O43: the completion of a tainted command is `drawOutputs` and the end of the command. -/
theorem taintedCommandLeavesDraws : Obligations.TaintedCommandLeavesDraws := by
  intro i s hi ht
  have hexec := exec_command i s hi
  rw [completion_tainted _ _ _ ht] at hexec
  refine ⟨_, hexec, rfl, rfl, drawOutputs_overrun i s, fun r hr => ?_, fun b hb k hk => ?_,
    fun r hstatus hr => ?_, fun a ha => ?_⟩
  · have hstatus : r ≠ .status := fun e => status_not_mem_outputRegs i (e ▸ hr)
    rw [get_ended _ hstatus, drawOutputs_get i s r hr]
  · exact (get?_drawOutputs i s _).trans (if_pos ⟨b, hb, by omega, by omega⟩)
  · rw [get_ended _ hstatus, drawOutputs_get_other i s r hr hstatus]
  · exact (get?_drawOutputs i s a).trans (if_neg fun ⟨b, hb, hin⟩ => ha b hb hin)

/-! ## The last completion -/

/-- With no move left, the command in flight completes (70_reset_and_hazards.md R920). -/
theorem step_last_completion {s : State} {i : Instr} (hin : s.inputs = []) (hr : s.running = some i) :
    step s = .next (State.completion i (commandRule i (s.tick [])) (s.tick [])) := by
  rcases step_cases s with ⟨-, h, -⟩ | ⟨j, -, h, e⟩ | hmove
  · exact nomatch hr.symm.trans h
  · obtain rfl : i = j := Option.some.inj (hr.symm.trans h)
    exact e
  · simp [hin] at hmove

/-- Settles O49: a busy block has a command in flight, and its completion takes no move. -/
theorem startedCommandCompletes : Obligations.StartedCommandCompletes := by
  intro s hin hb
  obtain ⟨w, hw⟩ := Option.isSome_iff_exists.mp hb
  exact ⟨_, step_last_completion hin (running_of_inflight hw), rfl, by simp [State.ended, State.busy]⟩

end Sys2Proof.Machine
end
